-- ==== Sys2Proof/Word.lean ====
section
/-! DEFINITION. The widths of R7 as types, the two floating-point formats of R5 and the type of a float's value. -/

namespace Sys2Proof

/-- The state word, a seed, an operand field, a data beat's payload (R7, R61, R70). -/
abbrev U64 := BitVec 64
/-- A raw draw (R7) and the batch length field `N` (R64). -/
abbrev U32 := BitVec 32
/-- A uniform numerator: the top 24 bits of a draw (R7). -/
abbrev U24 := BitVec 24
/-- A command word, `cmd_data[191:0]` (R60). -/
abbrev CmdWord := BitVec 192
/-- A response beat, `rsp_data[64:0]` (R70, R71). -/
abbrev RspWord := BitVec 65
/-- A byte of a stored command word or beat (R44). -/
abbrev Byte := BitVec 8

/-- The parameter `FLEN` (R5): the format of every float operand and result. -/
inductive Flen where
  | binary64
  | binary32
deriving DecidableEq, Repr

/-- A value of the format `F` (R110). A NaN carries no sign and no payload: R112 makes every NaN operand act
alike, and which NaN a NaN result is gets chosen where it is packed (R8, R73). A finite value is a sign and a
magnitude counted in units of the format's least subnormal, 2^-1074 or 2^-149, so that every finite number of
the format is exact here, the two zeros included. -/
inductive Flt where
  | nan
  | inf (neg : Bool)
  | fin (neg : Bool) (mag : Nat)
deriving DecidableEq, Repr

end Sys2Proof
end

