-- ==== Sys2Proof/Config.lean ====
section
/-! DEFINITION. The instance's configuration (R5, R9) and the free values: what the spec leaves open, as constants
with no body (R6, R8, 92_eei_decisions.md's named parameters). -/

namespace Sys2Proof

/-- `Config = (FLEN, LN, COS, SIN)` (R9): what is fixed when the instance is built and no command reads or changes (R25).
State is plain data, so a configuration holds the NAME of each of the three functions (R6), a number; `Config.elem` gives
the functions named. DESIGN CHOICE (log 21): two instances have the same `LN` where their configurations name the same
one, and nothing is known of whether two names stand for different functions; `COS` and `SIN` alike. -/
structure Config where
  flen : Flen
  ln : Nat
  cos : Nat
  sin : Nat
deriving DecidableEq, Repr

/-- `FLEN`'s default (R5), and functions of which nothing is known but the named properties (R6; log 21). -/
def Config.default : Config := ⟨.binary64, 0, 0, 0⟩

/-- FREE VALUE (R6, R132; log 6): the magnitude the `LN` of a name gives a finite positive operand other than 1.0, read by
`freeFiniteMag`. The operand is its magnitude. -/
opaque Config.lnMag : Nat → Flen → Nat → Nat

/-- FREE VALUE (R6, R133; log 6): the sign and magnitude that the `COS` of a name gives a finite non-zero operand. -/
opaque Config.cosFree : Nat → Flen → Bool → Nat → Bool × Nat

/-- FREE VALUE (R6, R133; log 6): the sign and magnitude that the `SIN` of a name gives a finite non-zero operand. -/
opaque Config.sinFree : Nat → Flen → Bool → Nat → Bool × Nat

/-- FREE VALUE (R8, U7; log 5): the sign and payload of the k-th NaN choice of a source of choices. Nothing relates the
choices of two sources (log 22). -/
opaque Config.nanChoice : Nat → Nat → Bool × Nat

/-- FREE VALUE (`LATENCY`, D25, U17; log 4): how many clock edges pass before the k-th beat of a source of choices is
presented. Nothing relates the latencies of two sources (log 22). -/
opaque Config.latency : Nat → Nat → Nat

/-- FREE VALUE (U15; log 20): which requester of a shared instance the arbiter grants the port to at its k-th grant, for
the source of choices of that instance. -/
opaque Config.grant : Nat → Nat → Nat

/-- FREE VALUE (R74; log 15): the sign and payload of the NaN the assembler writes for the literal `nan`, one for each
format. -/
opaque Config.asmNan : Flen → Bool × Nat

end Sys2Proof
end

