-- ==== Sys2Proof/Syntax.lean ====
section
/-! DEFINITION. The six commands (R12, R62), the fields of a command word (R61) and the ways a word is illegal (R67, R68). -/

namespace Sys2Proof

/-- One constructor per row of spec/opcode_table.json. A float operand stands as its 64-bit field, since every
encoding is a value (R65); a batch length as the 32-bit field `N` (R64). -/
inductive Instr where
  /-- `SEED`: `Construct(seed)` (R93). -/
  | seed (seed : U64)
  /-- `NEXTU32`: `NextU32()` (R94). -/
  | nextu32
  /-- `NEXTUF`: `NextUniformFloat()` (R116). -/
  | nextuf
  /-- `UNIFB`: `NextUniformBatch(n, low, high)` (R118). -/
  | unifb (n : U32) (low high : U64)
  /-- `BMXF`: `Transform(u1, u2)` (R137). -/
  | bmxf (u1 u2 : U64)
  /-- `NORMB`: `NextNormalBatch(n, mu, sigma)` (R139). -/
  | normb (n : U32) (mu sigma : U64)
deriving DecidableEq, Repr

/-- The six defined opcodes (R62). -/
inductive Opcode where
  | seed
  | nextu32
  | nextuf
  | unifb
  | bmxf
  | normb
deriving DecidableEq, Repr

/-- The opcode of a command. -/
def Instr.opcode : Instr → Opcode
  | .seed _ => .seed
  | .nextu32 => .nextu32
  | .nextuf => .nextuf
  | .unifb _ _ _ => .unifb
  | .bmxf _ _ => .bmxf
  | .normb _ _ _ => .normb

/-- A field of the command word that must be zero for some opcode (R62, R68): `aHi` and `bHi` are `A[63:32]` and
`B[63:32]`. -/
inductive ZeroField where
  | rsv
  | n
  | a
  | b
  | aHi
  | bHi
deriving DecidableEq, Repr

/-- Why bits spell no command, by name. -/
inductive Illegal where
  /-- `OP` is 0x00 or 0x07 to 0xFF (R67). -/
  | reservedOpcode (op : BitVec 8)
  /-- A must-be-zero field is not zero (R68): the first one in R62's order. -/
  | nonZeroField (field : ZeroField)
  /-- Fewer than the 24 bytes of one command word: a partial word cannot be presented (R45). -/
  | truncated
deriving DecidableEq, Repr

end Sys2Proof
end

