-- ==== Sys2Proof/WellFormed.lean ====
section
/-! DEFINITION. Which instructions a command word of an instance can spell (R62, R65, R68). -/

namespace Sys2Proof

/-- A float operand field of the format: with `FLEN = 32` the upper half is zero (R65); with `FLEN = 64` every
field is an encoding. -/
def floatFieldOk (f : Flen) (x : U64) : Bool :=
  match f with
  | .binary64 => true
  | .binary32 => x.extractLsb' 32 32 == 0

/-- The seed takes all 64 bits whatever `FLEN` is (R66), and `N` is any 32 bits (R64): only float operands are
constrained. -/
def Instr.wellFormed (f : Flen) : Instr → Bool
  | .seed _ => true
  | .nextu32 => true
  | .nextuf => true
  | .unifb _ low high => floatFieldOk f low && floatFieldOk f high
  | .bmxf u1 u2 => floatFieldOk f u1 && floatFieldOk f u2
  | .normb _ mu sigma => floatFieldOk f mu && floatFieldOk f sigma

end Sys2Proof
end

