-- ==== Sys2Proof/Decode.lean ====
section
/-! DEFINITION. Decoding a command word (R61 to R69), total and rejecting by name, and the encoder written from the
same table; the byte order of a stored word (R44). -/

namespace Sys2Proof

/-! ## The fields of format C (R61) -/

def CmdWord.op (w : CmdWord) : BitVec 8 := w.extractLsb' 0 8
def CmdWord.rsv (w : CmdWord) : BitVec 24 := w.extractLsb' 8 24
def CmdWord.n (w : CmdWord) : U32 := w.extractLsb' 32 32
def CmdWord.a (w : CmdWord) : U64 := w.extractLsb' 64 64
def CmdWord.b (w : CmdWord) : U64 := w.extractLsb' 128 64

/-- A command word of its five fields, `B` most significant (R61). -/
def assemble (op : BitVec 8) (rsv : BitVec 24) (n : U32) (a b : U64) : CmdWord :=
  b ++ a ++ n ++ rsv ++ op

/-! ## The opcode map (R62) -/

def Opcode.code : Opcode → BitVec 8
  | .seed => 0x01
  | .nextu32 => 0x02
  | .nextuf => 0x03
  | .unifb => 0x04
  | .bmxf => 0x05
  | .normb => 0x06

/-- The opcode of a code; none for 0x00 and 0x07 to 0xFF (R67). -/
def opcodeOfCode (c : BitVec 8) : Option Opcode :=
  match c.toNat with
  | 1 => some .seed
  | 2 => some .nextu32
  | 3 => some .nextuf
  | 4 => some .unifb
  | 5 => some .bmxf
  | 6 => some .normb
  | _ => none

/-- The upper halves of the two float operands, when `FLEN = 32` (R62, R65). -/
def floatHalves : Flen → List ZeroField
  | .binary64 => []
  | .binary32 => [.aHi, .bHi]

/-- R62's column "fields that must be zero". -/
def Opcode.zeroFields (f : Flen) : Opcode → List ZeroField
  | .seed => [.rsv, .n, .b]
  | .nextu32 => [.rsv, .n, .a, .b]
  | .nextuf => [.rsv, .n, .a, .b]
  | .unifb => .rsv :: floatHalves f
  | .bmxf => .rsv :: .n :: floatHalves f
  | .normb => .rsv :: floatHalves f

/-- Whether a field of the word is zero. -/
def CmdWord.isZero (w : CmdWord) : ZeroField → Bool
  | .rsv => w.rsv == 0
  | .n => w.n == 0
  | .a => w.a == 0
  | .b => w.b == 0
  | .aHi => w.a.extractLsb' 32 32 == 0
  | .bHi => w.b.extractLsb' 32 32 == 0

/-- R62's column "fields used". -/
def Opcode.instr (w : CmdWord) : Opcode → Instr
  | .seed => .seed w.a
  | .nextu32 => .nextu32
  | .nextuf => .nextuf
  | .unifb => .unifb w.n w.a w.b
  | .bmxf => .bmxf w.a w.b
  | .normb => .normb w.n w.a w.b

/-- R69's procedure: take `OP`; reserved is illegal; then the opcode's must-be-zero fields; then the command. It
depends on the word and `FLEN` alone. -/
def decode (f : Flen) (w : CmdWord) : Except Illegal Instr :=
  match opcodeOfCode w.op with
  | none => .error (.reservedOpcode w.op)
  | some o =>
    match (o.zeroFields f).find? (fun z => !w.isZero z) with
    | some z => .error (.nonZeroField z)
    | none => .ok (o.instr w)

/-- The encoder: every field the command does not use is zero (R62, R74). -/
def encode : Instr → CmdWord
  | .seed s => assemble Opcode.seed.code 0 0 s 0
  | .nextu32 => assemble Opcode.nextu32.code 0 0 0 0
  | .nextuf => assemble Opcode.nextuf.code 0 0 0 0
  | .unifb n low high => assemble Opcode.unifb.code 0 n low high
  | .bmxf u1 u2 => assemble Opcode.bmxf.code 0 0 u1 u2
  | .normb n mu sigma => assemble Opcode.normb.code 0 n mu sigma

/-! ## Match and mask (R63) -/

/-- The mask of a float operand's field: its upper half when `FLEN = 32`, nothing when `FLEN = 64`. -/
def floatMask : Flen → U64
  | .binary64 => 0
  | .binary32 => 0xFFFFFFFF00000000#64

/-- R63's mask column, field by field: `OP` and every must-be-zero field. -/
def Opcode.mask (f : Flen) : Opcode → CmdWord
  | .seed => assemble (-1) (-1) (-1) 0 (-1)
  | .nextu32 => assemble (-1) (-1) (-1) (-1) (-1)
  | .nextuf => assemble (-1) (-1) (-1) (-1) (-1)
  | .unifb => assemble (-1) (-1) 0 (floatMask f) (floatMask f)
  | .bmxf => assemble (-1) (-1) (-1) (floatMask f) (floatMask f)
  | .normb => assemble (-1) (-1) 0 (floatMask f) (floatMask f)

/-- R63's match column. -/
def Opcode.matchWord (o : Opcode) : CmdWord := o.code.setWidth 192

/-! ## Bytes (R44) -/

/-- The 24 bytes of a command word, byte `k` holding bits `[8k+7 : 8k]`. -/
def bytesOfWord (w : CmdWord) : List Byte := (List.range 24).map (fun k => w.extractLsb' (8 * k) 8)

/-- The 9 bytes of a response beat (R44), byte `k` holding bits `[8k+7 : 8k]`; the bits above bit 64 are 0 (log 17). -/
def bytesOfBeat (r : RspWord) : List Byte := (List.range 9).map (fun k => r.extractLsb' (8 * k) 8)

/-- The number little-endian bytes spell. -/
def natOfBytes : List Byte → Nat
  | [] => 0
  | b :: bs => b.toNat + 256 * natOfBytes bs

/-- The command word of its bytes, the first at the lowest address. -/
def wordOfBytes (bs : List Byte) : CmdWord := BitVec.ofNat 192 (natOfBytes bs)

/-- The first command of stored bytes and the bytes after it. -/
def decodeBytes (f : Flen) (bs : List Byte) : Except Illegal (Instr × List Byte) :=
  if bs.length < 24 then .error .truncated
  else
    match decode f (wordOfBytes (bs.take 24)) with
    | .ok i => .ok (i, bs.drop 24)
    | .error e => .error e

/-- A table row's word, its bits numbered as `cmd_data`'s, under `FLEN`'s default (log 16). -/
def decodeTableWord (nbits w : Nat) : Option Instr :=
  match decode Config.default.flen (BitVec.ofNat 192 (w % 2 ^ nbits)) with
  | .ok i => some i
  | .error _ => none

end Sys2Proof
end

