-- ==== Sys2Proof/Machine/Float.lean ====
section
/-! DEFINITION. IEEE 754 arithmetic of the two formats (R110 to R114, R131): exact results in units of the format's
least subnormal, rounded once to nearest, ties to even. -/

namespace Sys2Proof

/-! ## The constants of a format (R110) -/

/-- Fraction bits. -/
def Flen.fracBits : Flen → Nat
  | .binary64 => 52
  | .binary32 => 23

/-- Exponent bits. -/
def Flen.expBits : Flen → Nat
  | .binary64 => 11
  | .binary32 => 8

/-- The exponent bias. -/
def Flen.bias : Flen → Nat
  | .binary64 => 1023
  | .binary32 => 127

/-- The exponent field of infinities and NaNs: all ones. -/
def Flen.expOnes (f : Flen) : Nat := 2 ^ f.expBits - 1

/-- The least subnormal is `2 ^ (- unitExp)`: one unit of a magnitude. -/
def Flen.unitExp (f : Flen) : Nat := f.bias + f.fracBits - 1

/-- 1.0 in units. -/
def Flen.oneMag (f : Flen) : Nat := 2 ^ f.unitExp

/-- The least power of two above every finite magnitude, in units: a rounded magnitude that reaches it exceeds the
largest finite number (R113). -/
def Flen.overflowMag (f : Flen) : Nat := 2 ^ (f.fracBits + f.expOnes - 1)

/-- The spacing of the format's numbers at a magnitude is `2 ^ quantumExp` units; `t` is the magnitude's whole part. -/
def Flen.quantumExp (f : Flen) (t : Nat) : Nat := t.log2 - f.fracBits

/-- Whether a value is a number of the format: a finite magnitude is below the overflow threshold and a multiple of
the spacing at its own size. -/
def Flt.representable (f : Flen) : Flt → Bool
  | .nan => true
  | .inf _ => true
  | .fin _ m => m < f.overflowMag && m % 2 ^ f.quantumExp m == 0

/-! ## Order and sign -/

/-- A finite value as a signed count of units. -/
def signedMag (neg : Bool) (m : Nat) : Int := if neg then -(m : Int) else m

/-- The comparison `x <= y`; false when either is a NaN, and the two zeros are equal. -/
def Flt.le : Flt → Flt → Bool
  | .nan, _ => false
  | _, .nan => false
  | .inf true, _ => true
  | _, .inf false => true
  | .inf false, _ => false
  | _, .inf true => false
  | .fin a m, .fin b k => signedMag a m ≤ signedMag b k

/-- The comparison `x > 0` of R136; false for both zeros, negative values and NaN. -/
def Flt.gtZero : Flt → Bool
  | .nan => false
  | .inf neg => !neg
  | .fin neg m => !neg && m != 0

/-- The magnitude with sign 0. -/
def Flt.abs : Flt → Flt
  | .nan => .nan
  | .inf _ => .inf false
  | .fin _ m => .fin false m

/-! ## Rounding (R111) -/

/-- The integer nearest `num / den`, ties to the even one. -/
def nearestEven (num den : Nat) : Nat :=
  let q := num / den
  let r := num % den
  if den < 2 * r then q + 1
  else if 2 * r = den then (if q % 2 = 0 then q else q + 1)
  else q

/-- The magnitude `num / den` units rounded to the format's spacing at its size, the exponent unbounded above; below
the least normal number the spacing stays one unit, which is gradual underflow (R113). -/
def roundMag (f : Flen) (num den : Nat) : Nat :=
  let g := f.quantumExp (num / den)
  nearestEven num (den * 2 ^ g) * 2 ^ g

/-- The exact magnitude `num / den` units with its sign, rounded once; overflow gives the infinity of its sign
(R111, R113). -/
def roundToF (f : Flen) (neg : Bool) (num den : Nat) : Flt :=
  let m := roundMag f num den
  if m < f.overflowMag then .fin neg m else .inf neg

/-! ## The operations (R111 to R113, R131) -/

/-- IEEE 754 addition. An exact zero sum is `-0` only when both operands are negative (zeros), else `+0` (R113). -/
def fadd (f : Flen) : Flt → Flt → Flt
  | .nan, _ => .nan
  | _, .nan => .nan
  | .inf a, .inf b => if a = b then .inf a else .nan
  | .inf a, .fin _ _ => .inf a
  | .fin _ _, .inf b => .inf b
  | .fin a m, .fin b k =>
    let z := signedMag a m + signedMag b k
    if z = 0 then .fin (a && b) 0 else roundToF f (decide (z < 0)) z.natAbs 1

/-- The value with the opposite sign. -/
def Flt.negate : Flt → Flt
  | .nan => .nan
  | .inf a => .inf !a
  | .fin a m => .fin (!a) m

/-- IEEE 754 subtraction: the sum with the second operand's sign changed. -/
def fsub (f : Flen) (x y : Flt) : Flt := fadd f x y.negate

/-- IEEE 754 multiplication; the sign is the exclusive-or of the operand signs, for zeros and infinities too (R113).
A unit times a unit is `2 ^ (- unitExp)` units. -/
def fmul (f : Flen) : Flt → Flt → Flt
  | .nan, _ => .nan
  | _, .nan => .nan
  | .inf a, .inf b => .inf (a != b)
  | .inf a, .fin b k => if k = 0 then .nan else .inf (a != b)
  | .fin a m, .inf b => if m = 0 then .nan else .inf (a != b)
  | .fin a m, .fin b k => roundToF f (a != b) (m * k) (2 ^ f.unitExp)

/-- The bits of the integer square root of `n`, from bit `k - 1` down, added to those already in `r`. -/
def isqrtBits (n : Nat) : Nat → Nat → Nat
  | 0, r => r
  | k + 1, r => isqrtBits n k (if (r + 2 ^ k) * (r + 2 ^ k) ≤ n then r + 2 ^ k else r)

/-- The greatest natural number whose square is at most `n`. -/
def isqrt (n : Nat) : Nat := isqrtBits n (n.log2 / 2 + 1) 0

/-- IEEE 754 square root, correctly rounded (R131). The root of `m` units is the root of `m * 2 ^ unitExp`, in units;
where that root is no integer `r`, the half `r + 1/2` rounds as the root does, since the spacing there is more than
a unit. -/
def fsqrt (f : Flen) : Flt → Flt
  | .nan => .nan
  | .inf neg => if neg then .nan else .inf false
  | .fin neg m =>
    if m = 0 then .fin neg 0
    else if neg then .nan
    else
      let n := m * 2 ^ f.unitExp
      let r := isqrt n
      roundToF f false (if r * r = n then 2 * r else 2 * r + 1) 2

/-- `U24toF` (R114): the float whose value is exactly `k / 2^24`. -/
def u24toF (f : Flen) (k : U24) : Flt := .fin false (k.toNat * 2 ^ (f.unitExp - 24))

end Sys2Proof
end

