-- ==== Sys2Proof/Machine/Operands.lean ====
section
/-! DEFINITION. Operand assembly and result packing: the batch length (R64), `unpackF` (R65), `packF` (R73), and the
constants of the transform (R130). -/

namespace Sys2Proof

/-- `n = toSInt(N)` (R64). -/
def batchLength (n : U32) : Int := n.toInt

/-! ## Encodings (R110) -/

/-- The magnitude of the encoding with a sign bit of 0 whose exponent and fraction fields, read together, are `e`;
the exponent field is not all ones. -/
def magOfBits (f : Flen) (e : Nat) : Nat :=
  let expField := e / 2 ^ f.fracBits
  let frac := e % 2 ^ f.fracBits
  if expField = 0 then frac else (2 ^ f.fracBits + frac) * 2 ^ (expField - 1)

/-- The exponent and fraction fields, read together, of a magnitude of the format. -/
def bitsOfMag (f : Flen) (m : Nat) : Nat :=
  if m < 2 ^ f.fracBits then m
  else
    let g := f.quantumExp m
    (g + 1) * 2 ^ f.fracBits + (m / 2 ^ g - 2 ^ f.fracBits)

/-- The position of the sign bit: 63 or 31. -/
def Flen.signBit (f : Flen) : Nat := f.expBits + f.fracBits

/-- An encoding of its sign and its exponent and fraction fields, in the low bits of a 64-bit field. -/
def encoding (f : Flen) (neg : Bool) (e : Nat) : U64 :=
  BitVec.ofNat 64 ((if neg then 2 ^ f.signBit else 0) + e)

/-- `unpackF(X)` (R65): the value of the encoding in the low `FLEN` bits of the field. Every encoding is a value. -/
def unpackF (f : Flen) (x : U64) : Flt :=
  let e := x.toNat % 2 ^ f.signBit
  let neg := x.getLsbD f.signBit
  if e / 2 ^ f.fracBits = f.expOnes then
    (if e % 2 ^ f.fracBits = 0 then .inf neg else .nan)
  else .fin neg (magOfBits f e)

/-- The quiet NaN of a choice of sign and payload: exponent all ones, top fraction bit 1 (R8, R110). -/
def quietNaN (f : Flen) (c : Bool × Nat) : U64 :=
  encoding f c.1 (f.expOnes * 2 ^ f.fracBits + 2 ^ (f.fracBits - 1) + c.2 % 2 ^ (f.fracBits - 1))

/-- `packF(v)` (R73), zero-extended to the data field; a NaN is packed as the quiet NaN of the given choice (R8). -/
def packF (f : Flen) (nan : Bool × Nat) : Flt → U64
  | .nan => quietNaN f nan
  | .inf neg => encoding f neg (f.expOnes * 2 ^ f.fracBits)
  | .fin neg m => encoding f neg (bitsOfMag f m)

/-- A list of results packed in order, the value at index `i` with the source's NaN choice `k + i`: a fresh choice for
every beat (R8, U7). -/
def packAll (source : Nat) (f : Flen) : Nat → List Flt → List U64
  | _, [] => []
  | k, v :: vs => packF f (Config.nanChoice source k) v :: packAll source f (k + 1) vs

/-! ## Constants (R110, R130) -/

def Flen.one (f : Flen) : Flt := .fin false f.oneMag
def Flen.two (f : Flen) : Flt := .fin false (2 * f.oneMag)
/-- The document's `-2` (R134). -/
def Flen.minusTwo (f : Flen) : Flt := .fin true (2 * f.oneMag)

/-- `PI_F`, the number of the format nearest pi, by its encoding (R130). -/
def Flen.pi : Flen → Flt
  | .binary64 => unpackF .binary64 0x400921FB54442D18#64
  | .binary32 => unpackF .binary32 0x0000000040490FDB#64

/-- `TWO_PI_F = fmul(2.0, PI_F)` (R130). -/
def Flen.twoPi (f : Flen) : Flt := fmul f f.two f.pi

end Sys2Proof
end

