-- ==== Sys2Proof/Machine/Elementary.lean ====
section
/-! DEFINITION. The configuration functions `LN`, `COS`, `SIN` (R6, R132, R133) that a configuration names: their named
properties hold, and every other value of theirs is free (log 6, log 21). -/

namespace Sys2Proof

/-- The three elementary functions of one configuration (R6). -/
structure ElemFns where
  ln : Flen → Flt → Flt
  cos : Flen → Flt → Flt
  sin : Flen → Flt → Flt

/-- The exponent and fraction fields of the largest finite number. -/
def Flen.maxFiniteBits (f : Flen) : Nat := f.expOnes * 2 ^ f.fracBits - 1

/-- A free finite non-zero magnitude: every one of the format is the value at some `k`, and no other is. -/
def freeFiniteMag (f : Flen) (k : Nat) : Nat := magOfBits f (1 + k % f.maxFiniteBits)

/-- A free magnitude at most 1.0: every one of the format is the value at some `k`, and no other is. -/
def freeUnitMag (f : Flen) (k : Nat) : Nat := magOfBits f (k % (f.bias * 2 ^ f.fracBits + 1))

/-- The `LN` of a name (R132): `LN_NAN`, `LN_ZERO`, `LN_ONE`, `LN_INF`, and by `LN_SIGN` a free finite value, negative
below 1.0 and positive above. -/
def elemLn (name : Nat) (f : Flen) : Flt → Flt
  | .nan => .nan
  | .inf neg => if neg then .nan else .inf false
  | .fin neg m =>
    if m = 0 then .inf true
    else if neg then .nan
    else if m = f.oneMag then .fin false 0
    else .fin (decide (m < f.oneMag)) (freeFiniteMag f (Config.lnMag name f m))

/-- The `COS` of a name (R133): `CS_NAN`, `CS_ZERO`, and by `CS_RANGE` a free value of `[-1.0, 1.0]`. -/
def elemCos (name : Nat) (f : Flen) : Flt → Flt
  | .nan => .nan
  | .inf _ => .nan
  | .fin neg m =>
    if m = 0 then f.one
    else .fin (Config.cosFree name f neg m).1 (freeUnitMag f (Config.cosFree name f neg m).2)

/-- The `SIN` of a name (R133): `CS_NAN`, `CS_ZERO`, and by `CS_RANGE` a free value of `[-1.0, 1.0]`. -/
def elemSin (name : Nat) (f : Flen) : Flt → Flt
  | .nan => .nan
  | .inf _ => .nan
  | .fin neg m =>
    if m = 0 then .fin neg 0
    else .fin (Config.sinFree name f neg m).1 (freeUnitMag f (Config.sinFree name f neg m).2)

/-- The functions a configuration names (R6, R9). -/
def Config.elem (c : Config) : ElemFns := ⟨elemLn c.ln, elemCos c.cos, elemSin c.sin⟩

end Sys2Proof
end

