-- ==== Sys2Proof/Machine/State.lean ====
section
/-! DEFINITION. The state of one instance (R20 to R31), the response beats (R70, R71), the host's pins (R41 to R43),
the stops, and the state after reset (R191). -/

namespace Sys2Proof.Machine

/-- The status codes (R161); 4 to 15 are never produced, so they are no constructors. -/
inductive Status where
  | ok
  | invalidArgument
  | illegalCommand
  | notSeeded
deriving DecidableEq, Repr

/-- A response beat (R42): a data beat (R70) or a completion beat with its three fields (R71). -/
inductive Beat where
  | data (value : U64)
  | completion (status : Status) (dom : Bool) (count : U32)
deriving DecidableEq, Repr

/-- The block's input pins at one rising edge of `clk` (R41, R42, R190). -/
structure Pins where
  rst : Bool
  cmdValid : Bool
  cmdData : CmdWord
  rspReady : Bool
deriving DecidableEq, Repr

/-- Why the machine stops with a fault. -/
inductive Fault where
  /-- Raised by a drawing command that reads `S` while it holds no value although `SEEDED = 1` (U10: "that path must
  `fault`"). No reachable state raises it (`Inv`). SAFE: the model stops. -/
  | stateWordAbsent
  /-- Raised by a clock edge at which the host kept `cmd_valid` at 1 and changed `cmd_data` before the word was
  transferred (R41, U18: such a host "has no move in the model"). SAFE: the model stops. -/
  | commandNotHeld
deriving DecidableEq, Repr

/-- Why an instruction has no meaning. -/
inductive Refusal where
  /-- An instruction with no arm of its own yet: raised by `exec`'s arms only, and no arm does. SAFE. -/
  | notModelled (mnemonic : String)
deriving DecidableEq, Repr

/-- One instance of the block at a clock edge, and the host's side of its two ports. -/
structure State where
  /-- The state word (R20); `none` where it holds no value (R21, R31; log 1). -/
  S : Option U64
  /-- The seeded flag (R21). -/
  SEEDED : Bool
  /-- The response beats of the command in flight that the host has not taken, the next one first (R29, R42). -/
  pending : List Beat
  /-- A command word presented and not transferred at the last edge (R41; log 10). -/
  held : Option CmdWord
  /-- The build-time configuration (R5, R6, R9, R25; log 8, log 21). -/
  cfg : Config
  /-- The model's own: which source of choices this instance takes its latencies and NaN choices from. No command reads
  or changes it, and it is no instance identifier of the block's, which has none (R34; log 22). -/
  source : Nat
  /-- The model's own: clock edges until the head of `pending` is presented (log 4). -/
  wait : Nat
  /-- The model's own: how many latencies have been taken from the source's `Config.latency` (log 4). -/
  latencyDraws : Nat
  /-- The model's own: how many NaN choices have been taken from the source's `Config.nanChoice` (log 5). -/
  nanDraws : Nat
  /-- The host's pins at the coming clock edges, the next one first (log 2). -/
  inputs : List Pins
  /-- The beats the host has taken, oldest first (R50, R202; log 9). -/
  delivered : List Beat
deriving DecidableEq, Repr

/-- The state after reset of an instance built with a configuration, and with a source of choices: `SEEDED = 0`, `S` holds
no value, no command in flight (R30, R31, R191). -/
def State.resetOf (c : Config) (source : Nat) : State where
  S := none
  SEEDED := false
  pending := []
  held := none
  cfg := c
  source := source
  wait := 0
  latencyDraws := 0
  nanDraws := 0
  inputs := []
  delivered := []

/-- The state after reset with `FLEN`'s default (R5, R191). -/
def State.reset : State := State.resetOf Config.default 0

end Sys2Proof.Machine
end

