-- ==== Sys2Proof/Machine/Flags.lean ====
section
/-! DEFINITION. What a response reports of a command: the status code (R161), the `DOM` bit's place and the layout of
the two kinds of beat (R70, R71). The block stores no flag (R24). -/

namespace Sys2Proof.Machine

/-- The codes of R161. -/
def Status.code : Status → BitVec 4
  | .ok => 0
  | .invalidArgument => 1
  | .illegalCommand => 2
  | .notSeeded => 3

/-- `rsp_data[64:0]` of a beat: `DONE`, then the data value (R70), or 24 zero bits, `COUNT`, 3 zero bits, `DOM` and
`STATUS` (R71). -/
def Beat.bits : Beat → RspWord
  | .data value => (0 : BitVec 1) ++ value
  | .completion status dom count =>
    (1 : BitVec 1) ++ (0 : BitVec 24) ++ count ++ (0 : BitVec 3) ++ BitVec.ofBool dom ++ status.code

/-- Whether a beat is a completion beat (R71): its `DONE` bit. -/
def Beat.isCompletion : Beat → Bool
  | .data _ => false
  | .completion _ _ _ => true

/-- `DOM` of a list of first operands of `Transform` (R136): 1 when for at least one of them `u1 > 0` is false. -/
def domOf (u1s : List Flt) : Bool := u1s.any (fun u1 => !u1.gtZero)

end Sys2Proof.Machine
end

