-- ==== Sys2Proof/Machine/Ops.lean ====
section
/-! DEFINITION. The shared operations: the draw primitive (R90, R97), writing the state (R11), emitting and completing
a response (R11, R70 to R73), refusing a command (R160 to R167), and reset (R190 to R192). -/

namespace Sys2Proof.Machine

/-! ## The generator (R90, R97) -/

/-- The multiplier of R90's step 4. -/
def multiplier : U64 := 0x2545F4914F6CDD1D#64

/-- `Next` (R90): three xor-shifts, each of the value the one before it left. -/
def nextWord (s : U64) : U64 :=
  let t1 := s ^^^ (s >>> 12)
  let t2 := t1 ^^^ (t1 <<< 25)
  t2 ^^^ (t2 >>> 27)

/-- `Out` (R90): bits 63 to 32 of the 64-bit product of the updated state and the multiplier. -/
def outWord (x : U64) : U32 := (x * multiplier).extractLsb' 32 32

/-- `DrawU32` (R97) on the state word: the draw and the updated word. -/
def drawU32 (w : U64) : U32 × U64 := (outWord (nextWord w), nextWord w)

/-! ## Writing the state (R11) -/

/-- `S <- w`. -/
def State.setS (s : State) (w : U64) : State := { s with S := some w }

/-- `SEEDED <- 1`. -/
def State.setSeeded (s : State) : State := { s with SEEDED := true }

/-! ## The response (R11, R70 to R73) -/

/-- `emit` of a list of data values in order. -/
def State.emit (s : State) (ds : List U64) : State := { s with pending := s.pending ++ ds.map Beat.data }

/-- `emit(packF(v))` of a list of floats in order, each with a fresh NaN choice (R8, R73). -/
def State.emitFloats (s : State) (vs : List Flt) : State :=
  { s.emit (packAll s.source s.cfg.flen s.nanDraws vs) with nanDraws := s.nanDraws + vs.length }

/-- `complete(status, dom, count)`. -/
def State.complete (s : State) (status : Status) (dom : Bool) (count : U32) : State :=
  { s with pending := s.pending ++ [.completion status dom count] }

/-- `raise <Error>`: `complete(code, 0, 0)` with nothing before it (R11, R167). -/
def State.raise (s : State) (e : Status) : State := s.complete e false 0

/-! ## The checks of a drawing command (R162, R164, R166) -/

/-- The head of `NEXTU32`, `NEXTUF`, `UNIFB` and `NORMB`: `NotSeeded` while `SEEDED = 0`, then `InvalidArgument` for a
negative count of values, then the state word. `S` is absent with `SEEDED = 1` in no reachable state; a read of it
there faults (U10). -/
def drawing (n : Int) (s : State) (k : U64 → Host.Outcome State Fault Refusal) : Host.Outcome State Fault Refusal :=
  if s.SEEDED then
    if n < 0 then .next (s.raise .invalidArgument)
    else
      match s.S with
      | some w => k w
      | none => .fault .stateWordAbsent
  else .next (s.raise .notSeeded)

/-- The refusal of a word that spells no command (R163). -/
def refuseIllegal (s : State) : Host.Outcome State Fault Refusal := .next (s.raise .illegalCommand)

/-! ## Reset (R190 to R192) -/

/-- A resetting edge: `SEEDED = 0`, `S` holds no value, the command in flight is abandoned with its beats; beats
already taken stay taken. -/
def State.resetNow (s : State) : State :=
  { s with S := none, SEEDED := false, pending := [], wait := 0 }

end Sys2Proof.Machine
end

