-- ==== Sys2Proof/Machine/Uniform.lean ====
section
/-! DEFINITION. `NEXTUF` and `UNIFB` (41_uniform.md). -/

namespace Sys2Proof.Machine

/-- The float of a draw (R115): its top 24 bits, divided by 2^24. -/
def floatOfDraw (f : Flen) (r : U32) : Flt := u24toF f (r.extractLsb' 8 24)

/-- `UniformFloat` (R115) on the state word: the float and the updated word, one draw. -/
def uniformFloat (f : Flen) (w : U64) : Flt × U64 := (floatOfDraw f (drawU32 w).1, (drawU32 w).2)

/-- `AffineMap` (R117): three operations, three roundings, in this order. -/
def affineMap (f : Flen) (u low high : Flt) : Flt := fadd f (fmul f u (fsub f high low)) low

/-- R118's loop: `n` values, one draw each, and the word after them. -/
def uniformBatch (f : Flen) (low high : Flt) : Nat → U64 → List Flt × U64
  | 0, w => ([], w)
  | n + 1, w =>
    let u := uniformFloat f w
    let rest := uniformBatch f low high n u.2
    (affineMap f u.1 low high :: rest.1, rest.2)

/-- `NEXTUF` (R116). -/
def execNextuf (s : State) : Host.Outcome State Fault Refusal :=
  drawing 1 s fun w =>
    let u := uniformFloat s.cfg.flen w
    .next (((s.setS u.2).emitFloats [u.1]).complete .ok false 1)

/-- `UNIFB` (R118). -/
def execUnifb (n : U32) (low high : U64) (s : State) : Host.Outcome State Fault Refusal :=
  drawing (batchLength n) s fun w =>
    let f := s.cfg.flen
    let r := uniformBatch f (unpackF f low) (unpackF f high) (batchLength n).toNat w
    .next (((s.setS r.2).emitFloats r.1).complete .ok false n)

end Sys2Proof.Machine
end

