-- ==== Sys2Proof/Machine/Gaussian.lean ====
section
/-! DEFINITION. `BMXF` and `NORMB` (42_gaussian.md). The elementary functions are an argument, so that the reference
configuration `CR` can be tried on the spec's vectors; the two meanings use those of the instance's configuration. -/

namespace Sys2Proof.Machine

/-- `r` of `Transform` (R134): `fsqrt(fmul(-2.0, LN(u1)))`, computed once. DEDUCED (log 7): where the product of a finite
`LN(u1)` overflows, R113 makes it an infinity; R130 and R135 do not speak of that case. -/
def radius (E : ElemFns) (f : Flen) (u1 : Flt) : Flt := fsqrt f (fmul f f.minusTwo (E.ln f u1))

/-- `a` of `Transform` (R130, R134): `fmul(TWO_PI_F, u2)`, computed once. DEDUCED (log 7): where the product of a huge
finite `u2` (an operand of `BMXF` only) overflows, R113 makes it an infinity and `CS_NAN` makes `COS` and `SIN` of it NaNs;
R135's first row calls the outputs finite for every finite `u2` and does not speak of that case. -/
def angle (f : Flen) (u2 : Flt) : Flt := fmul f f.twoPi u2

/-- `Transform` (R134): `z1` is the cosine branch, `z2` the sine branch. -/
def transform (E : ElemFns) (f : Flen) (u1 u2 : Flt) : Flt × Flt :=
  (fmul f (radius E f u1) (E.cos f (angle f u2)), fmul f (radius E f u1) (E.sin f (angle f u2)))

/-- `NormalScale` (R138): two operations, two roundings. -/
def normalScale (f : Flen) (z mu sigma : Flt) : Flt := fadd f (fmul f z sigma) mu

/-- `P = ceil(n / 2)` (R140). -/
def pairCount (n : Nat) : Nat := (n + 1) / 2

/-- What a normal batch yields: its values in order, the first operands of its transforms, and the word after it. -/
structure NormalRun where
  values : List Flt
  u1s : List Flt
  word : U64
deriving DecidableEq, Repr

/-- The values one pair emits (R139, R141): both, or `z1` alone when only one value is left to emit. -/
def pairValues (f : Flen) (mu sigma : Flt) (left : Nat) (z : Flt × Flt) : List Flt :=
  if 2 ≤ left then [normalScale f z.1 mu sigma, normalScale f z.2 mu sigma] else [normalScale f z.1 mu sigma]

/-- R139's loop over `P` pairs with `left` values still to emit: `u1` then `u2`, two draws a pair. -/
def normalBatch (E : ElemFns) (f : Flen) (mu sigma : Flt) : Nat → Nat → U64 → NormalRun
  | 0, _, w => ⟨[], [], w⟩
  | p + 1, left, w =>
    let u1 := uniformFloat f w
    let u2 := uniformFloat f u1.2
    let rest := normalBatch E f mu sigma p (left - 2) u2.2
    ⟨pairValues f mu sigma left (transform E f u1.1 u2.1) ++ rest.values, u1.1 :: rest.u1s, rest.word⟩

/-- `BMXF` (R137) under given elementary functions. It reads neither `S` nor `SEEDED`. -/
def runBmxf (E : ElemFns) (u1 u2 : U64) (s : State) : Host.Outcome State Fault Refusal :=
  let f := s.cfg.flen
  let z := transform E f (unpackF f u1) (unpackF f u2)
  .next ((s.emitFloats [z.1, z.2]).complete .ok (domOf [unpackF f u1]) 2)

/-- `NORMB` (R139) under given elementary functions. -/
def runNormb (E : ElemFns) (n : U32) (mu sigma : U64) (s : State) : Host.Outcome State Fault Refusal :=
  drawing (batchLength n) s fun w =>
    let f := s.cfg.flen
    let len := (batchLength n).toNat
    let r := normalBatch E f (unpackF f mu) (unpackF f sigma) (pairCount len) len w
    .next (((s.setS r.word).emitFloats r.values).complete .ok (domOf r.u1s) n)

/-- `BMXF` (R137). -/
def execBmxf (u1 u2 : U64) (s : State) : Host.Outcome State Fault Refusal := runBmxf s.cfg.elem u1 u2 s

/-- `NORMB` (R139). -/
def execNormb (n : U32) (mu sigma : U64) (s : State) : Host.Outcome State Fault Refusal :=
  runNormb s.cfg.elem n mu sigma s

end Sys2Proof.Machine
end

