-- ==== Sys2Proof/Machine/Generator.lean ====
section
/-! DEFINITION. `SEED` and `NEXTU32` (40_generator.md). -/

namespace Sys2Proof.Machine

/-- `SEED` (R93). -/
def execSeed (seed : U64) (s : State) : Host.Outcome State Fault Refusal :=
  .next (((s.setS seed).setSeeded).complete .ok false 0)

/-- `NEXTU32` (R94). -/
def execNextu32 (s : State) : Host.Outcome State Fault Refusal :=
  drawing 1 s fun w =>
    let r := drawU32 w
    .next (((s.setS r.2).emit [r.1.setWidth 64]).complete .ok false 1)

end Sys2Proof.Machine
end

