-- ==== Sys2Proof/Machine/Dispatch.lean ====
section
/-! DEFINITION. One arm per command (R62): its meaning. -/

namespace Sys2Proof.Machine

def exec (i : Instr) (s : State) : Host.Outcome State Fault Refusal :=
  match i with
  | .seed seed => Sys2Proof.Machine.execSeed seed s
  | .nextu32 => Sys2Proof.Machine.execNextu32 s
  | .nextuf => Sys2Proof.Machine.execNextuf s
  | .unifb n low high => Sys2Proof.Machine.execUnifb n low high s
  | .bmxf u1 u2 => Sys2Proof.Machine.execBmxf u1 u2 s
  | .normb n mu sigma => Sys2Proof.Machine.execNormb n mu sigma s

end Sys2Proof.Machine
end

