-- ==== Sys2Proof/Machine/Ports.lean ====
section
/-! DEFINITION. The two ports at one rising edge of `clk` (R41 to R43, R49, R190 to R192, R200): the outputs the block
shows, and what an edge does. -/

namespace Sys2Proof.Machine

/-- Pins at which the host drives nothing: no reset, no command, no beat taken. -/
def Pins.idle : Pins := ⟨false, false, 0, false⟩

/-- Pins at which the host presents a command word and takes no beat. -/
def Pins.present (w : CmdWord) : Pins := ⟨false, true, w, false⟩

/-- Pins at which the host takes the beat presented, if any, and presents no command. -/
def Pins.take : Pins := ⟨false, false, 0, true⟩

/-! ## The outputs -/

/-- `cmd_ready`: 0 while `rst = 1` (R192) and from a command's acceptance until its completion beat has been
transferred (R49's reference behaviour; log 12); 1 when the block is idle (R175). -/
def cmdReady (p : Pins) (s : State) : Bool := !p.rst && s.pending.isEmpty

/-- `rsp_valid`: 0 while `rst = 1` (R192); 1 while the next beat of the command in flight is presented (R42). -/
def rspValid (p : Pins) (s : State) : Bool := !p.rst && !s.pending.isEmpty && s.wait == 0

/-- `rsp_data` while `rsp_valid` is 1 (R42); what it shows otherwise the spec does not say. -/
def rspData (p : Pins) (s : State) : Option RspWord :=
  if rspValid p s then s.pending.head?.map Beat.bits else none

/-! ## What an edge does -/

/-- The host changed `cmd_data` while it kept `cmd_valid` at 1 and the word was not transferred (R41, U18). -/
def holdBroken (p : Pins) (s : State) : Bool :=
  match s.held with
  | some w => p.cmdValid && p.cmdData != w
  | none => false

/-- The word presented at this edge and not transferred by it. -/
def heldAfter (p : Pins) (s : State) : Option CmdWord :=
  if p.cmdValid && !cmdReady p s then some p.cmdData else none

/-- One accepted word, executed whole (R49, R69): the command it spells, or the refusal of an illegal word. -/
def runWord (w : CmdWord) (s : State) : Host.Outcome State Fault Refusal :=
  match decode s.cfg.flen w with
  | .ok i => exec i s
  | .error _ => refuseIllegal s

/-- A free number of edges passes before the next beat is presented (`LATENCY`; log 4). -/
def State.takeLatency (s : State) : State :=
  { s with wait := Config.latency s.source s.latencyDraws, latencyDraws := s.latencyDraws + 1 }

/-- The response of an accepted command begins: its first beat is on its way. -/
def beginResponse : Host.Outcome State Fault Refusal → Host.Outcome State Fault Refusal
  | .next t => .next t.takeLatency
  | .fault r => .fault r
  | .refused r => .refused r

/-- The host takes the beat presented (R42); the next one of the same command, if any, is on its way. -/
def State.takeBeat (s : State) : State :=
  match s.pending with
  | [] => s
  | [b] => { s with pending := [], delivered := s.delivered ++ [b] }
  | b :: c :: rest => ({ s with pending := c :: rest, delivered := s.delivered ++ [b] } : State).takeLatency

/-- An edge at which no word and no beat is transferred: only time passes. -/
def State.tick (s : State) : State := { s with wait := s.wait - 1 }

/-- One rising edge of `clk`. Reset first (R190); then the host's obligation to hold its word; then at most one
transfer, since `cmd_ready` and `rsp_valid` are never both 1. -/
def clockEdge (p : Pins) (s : State) : Host.Outcome State Fault Refusal :=
  let h : State := { s with held := heldAfter p s }
  if p.rst then .next h.resetNow
  else if holdBroken p s then .fault .commandNotHeld
  else
    if cmdReady p s && p.cmdValid then beginResponse (runWord p.cmdData h)
    else if rspValid p s && p.rspReady then .next h.takeBeat
    else .next h.tick

/-- The host's pins at the next edge: the script's head, or nothing driven when it is used up (log 2). -/
def State.pins (s : State) : Pins := s.inputs.headD Pins.idle

/-- The state with the next edge's pins consumed. -/
def State.popPins (s : State) : State := { s with inputs := s.inputs.tail }

/-- The host has taken what was left of the response in flight and presents a command word at the next edge, so that
`cmd_ready` is 1 and the word is transferred there (R41, R49; log 13). -/
def State.presentNext (s : State) (w : CmdWord) : State :=
  { s with
    pending := []
    wait := 0
    held := none
    inputs := Pins.present w :: s.inputs
    delivered := s.delivered ++ s.pending }

end Sys2Proof.Machine
end

