-- ==== Sys2Proof/Machine/Step.lean ====
section
/-! DEFINITION. One step of the machine: one rising edge of `clk` with the host's next pins (log 2). -/

namespace Sys2Proof.Machine

def step (s : State) : Host.Outcome State Fault Refusal := clockEdge s.pins s.popPins

/-- The state with a command word, its bits numbered as `cmd_data`'s, presented at the next edge (log 13). -/
def State.withFetchWord (s : State) (nbits w : Nat) : State :=
  s.presentNext (BitVec.ofNat 192 (w % 2 ^ nbits))

end Sys2Proof.Machine
end

