-- ==== Sys2Proof/Machine/Assembler.lean ====
section
/-! DEFINITION. The assembler notation (R74) and its default operands (R75): one line of text to the command it
writes. The block has no part in it; a line's text is a list of characters. -/

namespace Sys2Proof

/-- What a line of assembler text is. -/
inductive AsmLine where
  /-- Nothing but spaces and a comment. -/
  | blank
  | command (i : Instr)
  /-- Text that is no line of R74. -/
  | bad
deriving DecidableEq, Repr

/-! ## Text -/

def isBlank (c : Char) : Bool := c == ' ' || c == '\t'

def trimBlanks (t : List Char) : List Char := ((t.dropWhile isBlank).reverse.dropWhile isBlank).reverse

/-- The pieces of a text between its commas. -/
def splitCommas : List Char → List (List Char)
  | [] => [[]]
  | c :: rest =>
    match c == ',', splitCommas rest with
    | true, parts => [] :: parts
    | false, [] => [[c]]
    | false, p :: parts => (c :: p) :: parts

/-- The text after a prefix, if it begins with it. -/
def dropPrefix : List Char → List Char → Option (List Char)
  | [], t => some t
  | _ :: _, [] => none
  | p :: ps, c :: t => if p = c then dropPrefix ps t else none

/-! ## Numbers -/

def decDigit (c : Char) : Option Nat :=
  if '0'.toNat ≤ c.toNat ∧ c.toNat ≤ '9'.toNat then some (c.toNat - '0'.toNat) else none

def hexDigit (c : Char) : Option Nat :=
  if 'a'.toNat ≤ c.toNat ∧ c.toNat ≤ 'f'.toNat then some (c.toNat - 'a'.toNat + 10)
  else if 'A'.toNat ≤ c.toNat ∧ c.toNat ≤ 'F'.toNat then some (c.toNat - 'A'.toNat + 10)
  else decDigit c

/-- The number digits of a base spell after a number already read; none when some character is no digit. -/
def readDigits (base : Nat) (digit : Char → Option Nat) : Nat → List Char → Option Nat
  | acc, [] => some acc
  | acc, c :: rest =>
    match digit c with
    | some d => readDigits base digit (acc * base + d) rest
    | none => none

/-- A non-empty decimal numeral. -/
def readDec (t : List Char) : Option Nat := if t.isEmpty then none else readDigits 10 decDigit 0 t

/-- A non-empty hexadecimal numeral. -/
def readHex (t : List Char) : Option Nat := if t.isEmpty then none else readDigits 16 hexDigit 0 t

/-- A numeral's sign and the text after it. -/
def readSign : List Char → Bool × List Char
  | [] => (false, [])
  | c :: rest => if c = '-' then (true, rest) else (false, c :: rest)

/-- `<seed>`: an unsigned integer, decimal or `0x` hexadecimal, 0 to 2^64 - 1. -/
def readSeed (t : List Char) : Option U64 :=
  let v :=
    match dropPrefix ['0', 'x'] t with
    | some digits => readHex digits
    | none => readDec t
  match v with
  | some k => if k < 2 ^ 64 then some (BitVec.ofNat 64 k) else none
  | none => none

/-- `<n>`: a signed decimal integer, -2^31 to 2^31 - 1. -/
def readCount (t : List Char) : Option U32 :=
  let s := readSign t
  match readDec s.2 with
  | some k =>
    if s.1 then (if k ≤ 2 ^ 31 then some (BitVec.ofInt 32 (-(k : Int))) else none)
    else if k < 2 ^ 31 then some (BitVec.ofNat 32 k)
    else none
  | none => none

/-! ## Float literals -/

/-- A numeral with an exponent part: its text before `e` and the exponent; the exponent is 0 without one. -/
def readExponent (t : List Char) : Option (List Char × Int) :=
  match t.span (fun c => !(c == 'e' || c == 'E')) with
  | (m, []) => some (m, 0)
  | (m, _ :: e) =>
    let s := readSign e
    match readDec s.2 with
    | some k => some (m, if s.1 then -(k : Int) else k)
    | none => none

/-- Decimal digits with or without a point: their number, and how many stand after the point. -/
def readPoint (t : List Char) : Option (Nat × Nat) :=
  match t.span (fun c => !(c == '.')) with
  | (whole, []) =>
    match readDec whole with
    | some k => some (k, 0)
    | none => none
  | (whole, _ :: frac) =>
    match readDec (whole ++ frac) with
    | some k => some (k, frac.length)
    | none => none

/-- The number of the format nearest `(-1)^neg * k * 10^e` (R74: "converted to format `F` by correct rounding"). -/
def ofDecimal (f : Flen) (neg : Bool) (k : Nat) (e : Int) : Flt :=
  roundToF f neg (k * 10 ^ e.toNat * f.oneMag) (10 ^ (-e).toNat)

/-- A decimal float literal. -/
def readDecimal (f : Flen) (t : List Char) : Option Flt :=
  let s := readSign t
  match readExponent s.2 with
  | some (m, e) =>
    match readPoint m with
    | some (k, places) => some (ofDecimal f s.1 k (e - places))
    | none => none
  | none => none

/-- How many hexadecimal digits a raw encoding has: `FLEN / 4`. -/
def Flen.hexDigits (f : Flen) : Nat := (f.signBit + 1) / 4

/-- A float literal's operand field (R74): a raw encoding, `inf`, `-inf`, `nan`, or a decimal literal. Which NaN `nan`
writes the spec does not say (log 15). -/
def readFloat (f : Flen) (t : List Char) : Option U64 :=
  match dropPrefix ['b', 'i', 't', 's', ':', '0', 'x'] t with
  | some digits =>
    if digits.length = f.hexDigits then (readHex digits).map (BitVec.ofNat 64) else none
  | none =>
    if t = ['i', 'n', 'f'] then some (packF f (Config.asmNan f) (.inf false))
    else if t = ['-', 'i', 'n', 'f'] then some (packF f (Config.asmNan f) (.inf true))
    else if t = ['n', 'a', 'n'] then some (packF f (Config.asmNan f) .nan)
    else (readDecimal f t).map (packF f (Config.asmNan f))

/-! ## Lines -/

/-- The operand a command's text omits (R75). -/
def defaultZero (f : Flen) : U64 := packF f (Config.asmNan f) (.fin false 0)
def defaultOne (f : Flen) : U64 := packF f (Config.asmNan f) f.one

def commandOf (i : Option Instr) : AsmLine :=
  match i with
  | some i => .command i
  | none => .bad

/-- The operands of `UNIFB` and `NORMB`: a count and up to two floats, the omitted trailing ones at their defaults
0.0 and 1.0 (R75). -/
def batchOperands (f : Flen) (mk : U32 → U64 → U64 → Instr) : List (List Char) → AsmLine
  | [n] => commandOf ((readCount n).map (fun k => mk k (defaultZero f) (defaultOne f)))
  | [n, x] => commandOf ((readCount n).bind (fun k => (readFloat f x).map (fun a => mk k a (defaultOne f))))
  | [n, x, y] =>
    commandOf ((readCount n).bind (fun k => (readFloat f x).bind (fun a => (readFloat f y).map (fun b => mk k a b))))
  | _ => .bad

/-- A command of its mnemonic and operand texts (R74). -/
def commandLine (f : Flen) (mnemonic : List Char) (ops : List (List Char)) : AsmLine :=
  if mnemonic = ['S', 'E', 'E', 'D'] then
    match ops with
    | [s] => commandOf ((readSeed s).map Instr.seed)
    | _ => .bad
  else if mnemonic = ['N', 'E', 'X', 'T', 'U', '3', '2'] then
    (if ops.isEmpty then .command .nextu32 else .bad)
  else if mnemonic = ['N', 'E', 'X', 'T', 'U', 'F'] then
    (if ops.isEmpty then .command .nextuf else .bad)
  else if mnemonic = ['U', 'N', 'I', 'F', 'B'] then batchOperands f .unifb ops
  else if mnemonic = ['B', 'M', 'X', 'F'] then
    match ops with
    | [x, y] => commandOf ((readFloat f x).bind (fun a => (readFloat f y).map (fun b => .bmxf a b)))
    | _ => .bad
  else if mnemonic = ['N', 'O', 'R', 'M', 'B'] then batchOperands f .normb ops
  else .bad

/-- One line: text from `;` on is a comment; a mnemonic; its operands, separated by commas (R74). -/
def asmLine (f : Flen) (line : List Char) : AsmLine :=
  let t := trimBlanks (line.takeWhile (fun c => !(c == ';')))
  if t.isEmpty then .blank
  else
    let parts := t.span (fun c => !isBlank c)
    let rest := trimBlanks parts.2
    commandLine f parts.1 (if rest.isEmpty then [] else (splitCommas rest).map trimBlanks)

end Sys2Proof
end

