-- ==== Sys2Proof/Machine/System.lean ====
section
/-! DEFINITION. Several instances of the block (R34): a list of states, each stepping on its own
with its own configuration and its own source of free values (log 21, log 22); and one instance shared
by several requesters through an arbiter outside the block (R53, R196; log 20). -/

namespace Sys2Proof.Machine

/-- Instance `k` makes one step; an index that is no instance changes nothing. Each state has its own `cfg` and `source`,
so `LN`, `COS`, `SIN`, the NaN choices and the latencies of two instances are related only where these fields are equal. -/
def stepInstance (k : Nat) (sys : List State) : Host.Outcome (List State) Fault Refusal :=
  match sys[k]? with
  | none => .next sys
  | some s =>
    match step s with
    | .next t => .next (sys.set k t)
    | .fault r => .fault r
    | .refused r => .refused r

/-- One instance and the requesters that share it: the words each still wants to run, and the beats each got. -/
structure Shared where
  block : State
  queues : List (List CmdWord)
  received : List (List Beat)
  /-- The model's own: how many grants have been taken from `Config.grant`. -/
  grants : Nat
deriving DecidableEq, Repr

/-- The requester the next grant goes to. -/
def Shared.granted (q : Shared) : Nat := Config.grant q.block.source q.grants % q.queues.length

/-- One grant: the granted requester's next word runs whole on the block, and every beat of its response, through the
completion beat, goes back to that requester. A requester with no word left lets the grant pass. -/
def grantNext (q : Shared) : Host.Outcome Shared Fault Refusal :=
  match q.queues[q.granted]? with
  | some (w :: rest) =>
    match runWord w q.block with
    | .next t =>
      .next
        { block := { t with pending := q.block.pending }
          queues := q.queues.set q.granted rest
          received := q.received.modify q.granted (· ++ t.pending.drop q.block.pending.length)
          grants := q.grants + 1 }
    | .fault r => .fault r
    | .refused r => .refused r
  | _ => .next { q with grants := q.grants + 1 }

end Sys2Proof.Machine
end

