-- ==== Sys2Proof/Safety.lean ====
section
/-! DEFINITION. The terms claims are stated in: the ghost stream position (R28), what a beat represents (R8, R73),
the status a word is answered with (R166), the invariant of a run, the transaction-level view of a run (R9, R202),
and the named properties of the elementary functions (R132, R133). Nothing here is part of the machine. -/

namespace Sys2Proof.Machine

/-! ## The stream (R28) -/

/-- The state word after `k` draws. -/
def nextIter (k : Nat) (w : U64) : U64 := nextWord^[k] w

/-- The draw number `k`, counted from 0, of the stream that starts at a state word. -/
def drawAt (k : Nat) (w : U64) : U32 := outWord (nextIter (k + 1) w)

/-- The uniform float of draw number `k` (R115). -/
def uniformAt (f : Flen) (k : Nat) (w : U64) : Flt := floatOfDraw f (drawAt k w)

/-- The value at an index of a normal batch: of pair `i / 2`, whose draws are `2 (i / 2)` and `2 (i / 2) + 1`, the cosine
branch at even indices and the sine branch at odd ones (R139). -/
def normalAt (E : ElemFns) (f : Flen) (mu sigma : Flt) (i : Nat) (w : U64) : Flt :=
  let z := transform E f (uniformAt f (2 * (i / 2)) w) (uniformAt f (2 * (i / 2) + 1) w)
  normalScale f (if i % 2 = 0 then z.1 else z.2) mu sigma

/-- The draws a command performs when it is not refused (R28). -/
def drawsOf : Instr → Nat
  | .seed _ => 0
  | .nextu32 => 1
  | .nextuf => 1
  | .unifb n _ _ => (batchLength n).toNat
  | .bmxf _ _ => 0
  | .normb n _ _ => 2 * (((batchLength n).toNat + 1) / 2)

/-- The data beats a command emits when it is not refused: `COUNT` (R72). -/
def dataBeatsOf : Instr → Nat
  | .seed _ => 0
  | .nextu32 => 1
  | .nextuf => 1
  | .unifb n _ _ => (batchLength n).toNat
  | .bmxf _ _ => 2
  | .normb n _ _ => (batchLength n).toNat

/-- The commands that read `S` (R164). -/
def isDrawing : Instr → Bool
  | .seed _ => false
  | .nextu32 => true
  | .nextuf => true
  | .unifb _ _ _ => true
  | .bmxf _ _ => false
  | .normb _ _ _ => true

/-- Whether a command carries a negative batch length (R162): `N[31] = 1`. -/
def hasNegativeLength : Instr → Bool
  | .seed _ => false
  | .nextu32 => false
  | .nextuf => false
  | .unifb n _ _ => n.msb
  | .bmxf _ _ => false
  | .normb n _ _ => n.msb

/-- The status a word is answered with, the refusals in R166's order. -/
def statusFor (f : Flen) (seeded : Bool) (w : CmdWord) : Status :=
  match decode f w with
  | .error _ => .illegalCommand
  | .ok i =>
    if isDrawing i && !seeded then .notSeeded
    else if hasNegativeLength i then .invalidArgument
    else .ok

/-- The answer of a refusal and nothing else (R167): one completion beat with the status, `DOM = 0`, `COUNT = 0`. -/
def refusedWith (e : Status) (s : State) : Host.Outcome State Fault Refusal :=
  .next { s with pending := s.pending ++ [.completion e false 0] }

/-- The draws a word performs when it is not refused; an illegal word performs none (R28). -/
def wordDraws (f : Flen) (w : CmdWord) : Nat :=
  match decode f w with
  | .ok i => drawsOf i
  | .error _ => 0

/-! ## What data beats carry (R8, R73) -/

/-- The quiet NaN encodings of a format in a data field: exponent all ones, top fraction bit 1, and nothing above the
encoding. -/
def isQuietNaN (f : Flen) (d : U64) : Bool :=
  d.toNat / 2 ^ (f.fracBits - 1) % 2 ^ (f.expBits + 1) == 2 ^ (f.expBits + 1) - 1 && d.toNat < 2 ^ (f.signBit + 1)

/-- A data field that carries a value: some quiet NaN for a NaN, the value's encoding otherwise. -/
def Represents (f : Flen) (v : Flt) (d : U64) : Prop :=
  if v = .nan then isQuietNaN f d = true else ∀ c, d = packF f c v

/-- Two data fields that agree up to the choice of NaN (R95). -/
def SameUpToNaN (f : Flen) (d e : U64) : Prop := d = e ∨ (isQuietNaN f d = true ∧ isQuietNaN f e = true)

/-- Two beats that agree up to the choice of NaN. -/
def BeatsAgree (f : Flen) : Beat → Beat → Prop
  | .data d, .data e => SameUpToNaN f d e
  | .completion a b c, .completion a' b' c' => a = a' ∧ b = b' ∧ c = c'
  | .data _, .completion _ _ _ => False
  | .completion _ _ _, .data _ => False

/-- The beats a response added. -/
def newBeats (s t : State) : List Beat := t.pending.drop s.pending.length

/-- The values of the data beats of a list of beats, in order. -/
def dataValues (bs : List Beat) : List U64 :=
  bs.filterMap fun b =>
    match b with
    | .data d => some d
    | .completion _ _ _ => none

/-- R114's encoding of `k / 2^24`, written without a floating-point operation. -/
def u24Encoding (f : Flen) (k : U24) : U64 :=
  if k = 0 then 0
  else
    let m := k.toNat.log2
    BitVec.ofNat 64 ((f.bias - 24 + m) * 2 ^ f.fracBits + (k.toNat - 2 ^ m) * 2 ^ (f.fracBits - m))

/-! ## Numbers of a format -/

/-- A finite magnitude with the format's spacing, whatever its size. -/
def hasSpacing (f : Flen) (m : Nat) : Prop := m % 2 ^ f.quantumExp m = 0

/-- A value that is neither a NaN nor an infinity. -/
def isFinite : Flt → Bool
  | .nan => false
  | .inf _ => false
  | .fin _ _ => true

/-- The sign of a value; false for a NaN. -/
def signOf : Flt → Bool
  | .nan => false
  | .inf neg => neg
  | .fin neg _ => neg

/-! ## Configurations -/

/-- Two configurations `(FLEN, LN, COS, SIN)` that are the same (R9): the same format, and equal functions on it, whatever
their names. -/
def SameConfig (c c' : Config) : Prop :=
  c.flen = c'.flen ∧ c.elem.ln c.flen = c'.elem.ln c.flen ∧ c.elem.cos c.flen = c'.elem.cos c.flen ∧
    c.elem.sin c.flen = c'.elem.sin c.flen

/-! ## The invariant of a run -/

/-- A list of beats that is the rest of one response: data beats, at most as many as `COUNT` says, then the
completion beat; a refusal has `DOM = 0` and `COUNT = 0` (R50, R71, R72, R167). Or nothing is left. -/
def responseOk (bs : List Beat) : Bool :=
  match bs.reverse with
  | [] => true
  | .completion status dom count :: ds =>
    ds.all (fun b => !b.isCompletion) && decide (ds.length ≤ count.toNat)
      && (status == .ok || (!dom && count == 0))
  | .data _ :: _ => false

/-- `SEEDED = 1` exactly while `S` holds a value (R21), the beats in flight are the rest of one response, and nothing
is waited for when none is in flight. -/
def State.inv (s : State) : Bool :=
  s.SEEDED == s.S.isSome && responseOk s.pending && (!s.pending.isEmpty || s.wait == 0)

/-! ## The transaction-level view (R9, R202) -/

/-- A state with the ports' timing left out: the beats delivered and in flight as one response stream. -/
def State.atomic (s : State) : State :=
  { s with
    pending := s.delivered ++ s.pending
    delivered := []
    held := none
    wait := 0
    latencyDraws := 0
    inputs := [] }

/-- The fold of `Exec` over a sequence of command words (R202). -/
def execAll : List CmdWord → State → Host.Outcome State Fault Refusal
  | [], s => .next s
  | w :: ws, s =>
    match runWord w s with
    | .next t => execAll ws t
    | .fault r => .fault r
    | .refused r => .refused r

/-- A sequence of commands, one after another (R49). -/
def runInstrs : List Instr → State → Host.Outcome State Fault Refusal
  | [], s => .next s
  | i :: is, s =>
    match exec i s with
    | .next t => runInstrs is t
    | .fault r => .fault r
    | .refused r => .refused r

/-- The command word an edge accepts (R41). -/
def acceptedAt (p : Pins) (s : State) : Option CmdWord :=
  if cmdReady p s && p.cmdValid then some p.cmdData else none

/-- The command words accepted in the next `k` edges, in acceptance order. -/
def acceptedWords : Nat → State → List CmdWord
  | 0, _ => []
  | k + 1, s =>
    match step s with
    | .next t => (acceptedAt s.pins s.popPins).toList ++ acceptedWords k t
    | .fault _ => []
    | .refused _ => []

/-- At each of the next `k` edges the host meets its obligation to hold a word it keeps presented (R41). -/
def hostKeepsWord : Nat → State → Prop
  | 0, _ => True
  | k + 1, s => holdBroken s.pins s = false ∧ ∀ t, step s = .next t → hostKeepsWord k t

/-- No reset at the next `k` edges. -/
def noReset (k : Nat) (s : State) : Prop := ∀ p ∈ s.inputs.take k, p.rst = false

/-! ## The named properties (R132, R133) -/

/-- `LN_NAN`, `LN_ZERO`, `LN_ONE`, `LN_INF`, `LN_SIGN` (R132), on numbers of the format. -/
structure LnProperties (E : ElemFns) (f : Flen) : Prop where
  lnNan : ∀ x, (x = .nan ∨ x = .inf true ∨ ∃ m, m ≠ 0 ∧ x = .fin true m) → E.ln f x = .nan
  lnZero : ∀ neg, E.ln f (.fin neg 0) = .inf true
  lnOne : E.ln f f.one = .fin false 0
  lnInf : E.ln f (.inf false) = .inf false
  lnSignBelow : ∀ m, 0 < m → m < f.oneMag →
    ∃ k, k ≠ 0 ∧ E.ln f (.fin false m) = .fin true k ∧ (Flt.fin true k).representable f = true
  lnSignAbove : ∀ m, f.oneMag < m →
    ∃ k, k ≠ 0 ∧ E.ln f (.fin false m) = .fin false k ∧ (Flt.fin false k).representable f = true

/-- `CS_NAN`, `CS_ZERO`, `CS_RANGE` (R133). -/
structure CosSinProperties (E : ElemFns) (f : Flen) : Prop where
  csNan : ∀ x, (x = .nan ∨ ∃ neg, x = .inf neg) → E.cos f x = .nan ∧ E.sin f x = .nan
  csZero : ∀ neg, E.cos f (.fin neg 0) = f.one ∧ E.sin f (.fin neg 0) = .fin neg 0
  csRange : ∀ neg m, (∃ a k, k ≤ f.oneMag ∧ E.cos f (.fin neg m) = .fin a k ∧ (Flt.fin a k).representable f = true) ∧
    ∃ a k, k ≤ f.oneMag ∧ E.sin f (.fin neg m) = .fin a k ∧ (Flt.fin a k).representable f = true

end Sys2Proof.Machine
end

