-- ==== Sys2Proof/Certificates/Slice0/Obligations.lean ====
section
/-! DEFINITION. The statements for the provers. Each docstring names the rule of spec/ it says. -/

open Sys2Proof Sys2Proof.Machine

/-! ## Encoding (30_encoding.md) -/

/-- Decoding the encoding of a well-formed command gives it back, for both formats and every operand value (R61, R62, R69). -/
def Obligations.DecodeEncodeRoundTrip : Prop :=
  ∀ (f : Flen) (i : Instr), i.wellFormed f = true → decode f (encode i) = .ok i

/-- A word that decodes is the encoding of the command it decodes to, and that command is well formed (R60, R69). -/
def Obligations.EncodeDecodeRoundTrip : Prop :=
  ∀ (f : Flen) (w : CmdWord) (i : Instr), decode f w = .ok i → encode i = w ∧ i.wellFormed f = true

/-- A word spells the command of a row exactly when `(w & mask) = match`, with the masks and matches of R63's table for
both formats; no two rows match one word (R63). -/
def Obligations.MaskAndMatchTable : Prop :=
  (∀ (f : Flen) (w : CmdWord) (o : Opcode),
    (∃ i, decode f w = .ok i ∧ i.opcode = o) ↔ w &&& o.mask f = o.matchWord) ∧
  (∀ f, Opcode.seed.mask f = 0xFFFFFFFFFFFFFFFF0000000000000000FFFFFFFFFFFFFFFF#192) ∧
  (∀ f, Opcode.nextu32.mask f = 0xFFFFFFFFFFFFFFFFFFFFFFFFFFFFFFFFFFFFFFFFFFFFFFFF#192) ∧
  (∀ f, Opcode.nextuf.mask f = 0xFFFFFFFFFFFFFFFFFFFFFFFFFFFFFFFFFFFFFFFFFFFFFFFF#192) ∧
  Opcode.unifb.mask .binary64 = 0x0000000000000000000000000000000000000000FFFFFFFF#192 ∧
  Opcode.unifb.mask .binary32 = 0xFFFFFFFF00000000FFFFFFFF0000000000000000FFFFFFFF#192 ∧
  Opcode.bmxf.mask .binary64 = 0x00000000000000000000000000000000FFFFFFFFFFFFFFFF#192 ∧
  Opcode.bmxf.mask .binary32 = 0xFFFFFFFF00000000FFFFFFFF00000000FFFFFFFFFFFFFFFF#192 ∧
  Opcode.normb.mask .binary64 = 0x0000000000000000000000000000000000000000FFFFFFFF#192 ∧
  Opcode.normb.mask .binary32 = 0xFFFFFFFF00000000FFFFFFFF0000000000000000FFFFFFFF#192 ∧
  Opcode.seed.matchWord = 1#192 ∧ Opcode.nextu32.matchWord = 2#192 ∧ Opcode.nextuf.matchWord = 3#192 ∧
  Opcode.unifb.matchWord = 4#192 ∧ Opcode.bmxf.matchWord = 5#192 ∧ Opcode.normb.matchWord = 6#192 ∧
  (∀ (f : Flen) (w : CmdWord) (o o' : Opcode),
    w &&& o.mask f = o.matchWord → w &&& o'.mask f = o'.matchWord → o = o')

/-- `OP = 0x00` and `0x07` to `0xFF` are reserved: such a word, the all-zeros word among them, is answered
`IllegalCommand`, emits no data beat and changes no state (R67). -/
def Obligations.ReservedOpcodesIllegal : Prop :=
  (∀ (f : Flen) (w : CmdWord),
    decode f w = .error (.reservedOpcode w.op) ↔ w.op.toNat = 0 ∨ 7 ≤ w.op.toNat) ∧
  (∀ (w : CmdWord) (s : State),
    w.op.toNat = 0 ∨ 7 ≤ w.op.toNat → runWord w s = refusedWith .illegalCommand s) ∧
  (∀ s : State, runWord 0 s = refusedWith .illegalCommand s)

/-- A word is illegal exactly when its opcode is reserved or a field is not zero that must be zero for its opcode: `RSV`
in every command; `N` in SEED, NEXTU32, NEXTUF, BMXF; `A` in NEXTU32, NEXTUF; `B` in SEED, NEXTU32, NEXTUF; the upper
halves of float operands with `FLEN = 32` (R62, R68). An illegal word is answered `IllegalCommand` with no other effect
(R68, R163). -/
def Obligations.IllegalWordsExactly : Prop :=
  ∀ (w : CmdWord) (s : State),
    let illegal : Prop :=
      w.op.toNat = 0 ∨ 7 ≤ w.op.toNat ∨ w.rsv ≠ 0 ∨
      (w.op.toNat ∈ [1, 2, 3, 5] ∧ w.n ≠ 0) ∨ (w.op.toNat ∈ [2, 3] ∧ w.a ≠ 0) ∨ (w.op.toNat ∈ [1, 2, 3] ∧ w.b ≠ 0) ∨
      (s.cfg.flen = .binary32 ∧ w.op.toNat ∈ [4, 5, 6] ∧ (w.a.extractLsb' 32 32 ≠ 0 ∨ w.b.extractLsb' 32 32 ≠ 0))
    ((∃ e, decode s.cfg.flen w = .error e) ↔ illegal) ∧ (illegal → runWord w s = refusedWith .illegalCommand s)

/-- Words written out in 30_encoding.md, section 7, decode to the commands they are given for. -/
def Obligations.WorkedWordsDecode : Prop :=
  decode .binary64 0x0000000000000000000000000000002A0000000000000001#192 = .ok (.seed 42) ∧
  decode .binary64 2#192 = .ok .nextu32 ∧
  decode .binary64 3#192 = .ok .nextuf ∧
  decode .binary64 0x3FF0000000000000BFF00000000000000000000300000004#192 =
    .ok (.unifb 3 0xBFF0000000000000#64 0x3FF0000000000000#64) ∧
  decode .binary64 0x3FD00000000000003FE00000000000000000000000000005#192 =
    .ok (.bmxf 0x3FE0000000000000#64 0x3FD0000000000000#64) ∧
  decode .binary64 0x3FF000000000000000000000000000000000000300000006#192 =
    .ok (.normb 3 0 0x3FF0000000000000#64)

/-- Little-endian bytes (R44): the stored bytes of a word, followed by any bytes, decode to what the word decodes to and
leave the bytes after it; the first byte is the opcode, byte `k` of a word or of a response beat holds bits `[8k+7 : 8k]`;
fewer than 24 bytes are no word (R45). That the 65 bits of a beat take 9 bytes whose last seven bits are zeros is the model's
choice, and `truncated` is its name for what is no word (log 17). -/
def Obligations.StoredBytesDecode : Prop :=
  (∀ (f : Flen) (w : CmdWord) (rest : List Byte),
    decodeBytes f (bytesOfWord w ++ rest) = (decode f w).map (fun i => (i, rest))) ∧
  (∀ w : CmdWord, (bytesOfWord w).length = 24 ∧ (bytesOfWord w)[0]? = some w.op ∧
    ∀ k j : Nat, k < 24 → j < 8 → ((bytesOfWord w)[k]?.map (fun b => b.getLsbD j)) = some (w.getLsbD (8 * k + j))) ∧
  (∀ r : RspWord, (bytesOfBeat r).length = 9 ∧
    ∀ k j : Nat, k < 9 → j < 8 → ((bytesOfBeat r)[k]?.map (fun b => b.getLsbD j)) = some (r.getLsbD (8 * k + j))) ∧
  (∀ (f : Flen) (bs : List Byte), bs.length < 24 → decodeBytes f bs = .error .truncated)

/-- The layout of the two kinds of beat: `DONE` at bit 64; `DATA` in bits 63 to 0; `STATUS`, `DOM`, `COUNT` at bits
3 to 0, 4 and 39 to 8, zeros at bits 7 to 5 and 63 to 40; codes 4 to 15 are never produced; no two beats have the same bits
(R70, R71, R161). -/
def Obligations.BeatLayout : Prop :=
  (∀ v : U64, (Beat.data v).bits.getLsbD 64 = false ∧ (Beat.data v).bits.extractLsb' 0 64 = v) ∧
  (∀ (status : Status) (dom : Bool) (count : U32),
    let b := (Beat.completion status dom count).bits
    b.getLsbD 64 = true ∧ b.extractLsb' 0 4 = status.code ∧ b.getLsbD 4 = dom ∧ b.extractLsb' 5 3 = 0 ∧
      b.extractLsb' 8 32 = count ∧ b.extractLsb' 40 24 = 0) ∧
  (∀ status : Status, status.code.toNat ≤ 3) ∧
  Status.ok.code = 0 ∧ Status.invalidArgument.code = 1 ∧ Status.illegalCommand.code = 2 ∧ Status.notSeeded.code = 3 ∧
  (∀ b c : Beat, b.bits = c.bits → b = c)

/-- Every response is data beats and then exactly one completion beat, whose `COUNT` is the number of data beats: the
command's own number with status `OK`, none with another status, where `DOM` is 0 too (R72). -/
def Obligations.CountIsDataBeats : Prop :=
  ∀ (w : CmdWord) (s t : State), runWord w s = .next t →
    ∃ (ds : List U64) (status : Status) (dom : Bool) (count : U32),
      t.pending = s.pending ++ ds.map Beat.data ++ [.completion status dom count] ∧ count.toNat = ds.length ∧
      (status = .ok → ∃ i, decode s.cfg.flen w = .ok i ∧ ds.length = dataBeatsOf i) ∧
      (status ≠ .ok → ds = [] ∧ dom = false)

/-! ## The generator (40_generator.md) -/

/-- The state update and the output as integer arithmetic: logical shifts, the left shift and the product reduced modulo
2^64; bits 63 to 32 are the same whether the product is reduced modulo 2^64 first or not. A draw leaves the updated state, not
the product, and its result is computed from the updated state (R90, R91). -/
def Obligations.NextAndOutArithmetic : Prop :=
  ∀ s : U64,
    (let t1 := s.toNat ^^^ (s.toNat / 2 ^ 12)
     let t2 := t1 ^^^ (t1 * 2 ^ 25 % 2 ^ 64)
     (nextWord s).toNat = t2 ^^^ (t2 / 2 ^ 27)) ∧
    (outWord s).toNat = s.toNat * 2685821657736338717 % 2 ^ 64 / 2 ^ 32 ∧
    (outWord s).toNat = s.toNat * 2685821657736338717 / 2 ^ 32 % 2 ^ 32 ∧
    drawU32 s = (outWord (nextWord s), nextWord s)

/-- Zero is a fixed point: from `S = 0` every draw returns 0 and leaves `S = 0`, and the block does not refuse, replace or
report it (R92). -/
def Obligations.ZeroStateIsFixedPoint : Prop :=
  nextWord 0 = 0 ∧ outWord 0 = 0 ∧ (∀ k : Nat, nextIter k 0 = 0 ∧ drawAt k 0 = 0) ∧
  ∀ s : State, s.SEEDED = true → s.S = some 0 →
    exec .nextu32 s = .next { s with pending := s.pending ++ [.data 0, .completion .ok false 1] }

/-- `Next` is a bijection on the 2^64 words, and 0 is the only one it maps to 0; after any number of draws two different
words stay different and a non-zero word stays non-zero (R96). -/
def Obligations.NextIsBijection : Prop :=
  Function.Bijective nextWord ∧ (∀ w : U64, nextWord w = 0 ↔ w = 0) ∧
  ∀ k : Nat, Function.Injective (nextIter k) ∧ ∀ w : U64, nextIter k w = 0 ↔ w = 0

/-- After any commands but `SEED`, illegal and refused ones among them, the state word is `Next^k` of the word before them,
`k` the sum of the draws of R28: 1 for NEXTU32 and NEXTUF, `n` for UNIFB, `2 * ceil(n / 2)` for NORMB, 0 for BMXF and for
a refused command; no matter which commands performed the draws. -/
def Obligations.StateIsNextPowerOfDraws : Prop :=
  ∀ (ws : List CmdWord) (s t : State) (v : U64), s.SEEDED = true → s.S = some v →
    (∀ w ∈ ws, ∀ x, decode s.cfg.flen w ≠ .ok (.seed x)) → execAll ws s = .next t →
    t.S = some (nextIter (ws.map (wordDraws s.cfg.flen)).sum v) ∧ t.SEEDED = true

/-- From a state whose word is not zero every step leaves one, unless it accepts `SEED 0` (R32). -/
def Obligations.NonZeroWordStaysNonZero : Prop :=
  ∀ s t : State, s.S ≠ some 0 → (∀ w, acceptedAt s.pins s.popPins = some w → decode s.cfg.flen w ≠ .ok (.seed 0)) →
    step s = .next t → t.S ≠ some 0

/-- `SEED` (R93): in every state it stores the seed unmodified and sets `SEEDED`, with one completion beat and nothing else
changed; with a non-zero must-be-zero field it is `IllegalCommand`, and nothing is stored. -/
def Obligations.SeedCommand : Prop :=
  ∀ s : State,
    (∀ seed : U64, exec (.seed seed) s =
      .next { s with S := some seed, SEEDED := true, pending := s.pending ++ [.completion .ok false 0] }) ∧
    (∀ w : CmdWord, w.op = 0x01 →
      runWord w s =
        if w.rsv = 0 ∧ w.n = 0 ∧ w.b = 0 then exec (.seed w.a) s else refusedWith .illegalCommand s)

/-- `NEXTU32` (R94): one draw from the updated state, in the low half of one data beat, and nothing else changed; `NotSeeded`
while `SEEDED = 0`, `IllegalCommand` with a non-zero must-be-zero field, with no draw. -/
def Obligations.Nextu32Command : Prop :=
  ∀ s : State,
    (∀ x : U64, s.SEEDED = true → s.S = some x → exec .nextu32 s =
      .next { s with
        S := some (nextWord x)
        pending := s.pending ++ [.data ((0 : BitVec 32) ++ outWord (nextWord x)), .completion .ok false 1] }) ∧
    (s.SEEDED = false → exec .nextu32 s = refusedWith .notSeeded s) ∧
    (∀ w : CmdWord, w.op = 0x02 →
      runWord w s =
        if w.rsv = 0 ∧ w.n = 0 ∧ w.a = 0 ∧ w.b = 0 then exec .nextu32 s else refusedWith .illegalCommand s)

/-! ## The uniform float mapper (41_uniform.md) -/

/-- `NEXTUF` (R116): one draw, one data beat with the encoding of `k / 2^24`, `k` the top 24 bits of the draw, and nothing
else changed (but the model's own counter of NaN choices); `NotSeeded` while `SEEDED = 0`, `IllegalCommand` with a non-zero
must-be-zero field, with no draw. -/
def Obligations.NextufCommand : Prop :=
  ∀ s : State,
    (∀ x : U64, s.SEEDED = true → s.S = some x → ∃ choices : Nat, exec .nextuf s =
      .next { s with
        S := some (nextWord x)
        pending := s.pending ++
          [.data (u24Encoding s.cfg.flen ((outWord (nextWord x)).extractLsb' 8 24)), .completion .ok false 1]
        nanDraws := choices }) ∧
    (s.SEEDED = false → exec .nextuf s = refusedWith .notSeeded s) ∧
    (∀ w : CmdWord, w.op = 0x03 →
      runWord w s =
        if w.rsv = 0 ∧ w.n = 0 ∧ w.a = 0 ∧ w.b = 0 then exec .nextuf s else refusedWith .illegalCommand s)

/-- `U24toF` (R114): the value is exactly `k / 2^24`, it is a number of the format, and its encoding is the one written
without any floating-point operation; zero is all bits zero. -/
def Obligations.U24toFExact : Prop :=
  ∀ (f : Flen) (k : U24),
    (∃ m, u24toF f k = .fin false m ∧ m * 2 ^ 24 = k.toNat * f.oneMag) ∧ (u24toF f k).representable f = true ∧
    (∀ c, packF f c (u24toF f k) = u24Encoding f k) ∧ u24Encoding f 0 = 0

/-- Range and granularity of `UniformFloat` (R122): every result is `k / 2^24` for the numerator `k` of its draw, each
numerator is reached, and distinct numerators give distinct values, so exactly 2^24 of them; each value is `+0` or a normal
number, `0 <= v < 1`; it is `+0` exactly when the draw is below 0x100; the smallest non-zero is 2^-24 and the largest
1 - 2^-24. -/
def Obligations.UniformFloatRange : Prop :=
  ∀ f : Flen,
    Function.Injective (u24toF f) ∧
    (∀ r : U32, ∃ m, floatOfDraw f r = .fin false m ∧ m < f.oneMag ∧ (m = 0 ∨ 2 ^ f.fracBits ≤ m) ∧
      (∃ k : U24, k.toNat = r.toNat / 256 ∧ floatOfDraw f r = u24toF f k ∧ m * 2 ^ 24 = k.toNat * f.oneMag) ∧
      (m = 0 ↔ r.toNat < 256) ∧ (m ≠ 0 → f.oneMag ≤ m * 2 ^ 24) ∧ m * 2 ^ 24 ≤ (2 ^ 24 - 1) * f.oneMag) ∧
    (∀ k : U24, ∃ r : U32, floatOfDraw f r = u24toF f k)

/-- Each operation is the exact result rounded once to nearest, ties to even (R111): the rounded magnitude has the format's
spacing, no number with that spacing is nearer, and on a tie its significand is even; sums and products of finite numbers
are that rounding of the exact sum and product, those with infinities the exact ones; sums and products commute; the
document's `x * y + z` is two operations, each rounded. -/
def Obligations.RoundsToNearestEven : Prop :=
  (∀ (f : Flen) (num den : Nat), 0 < den →
    hasSpacing f (roundMag f num den) ∧
    ∀ k : Nat, hasSpacing f k →
      |(num : Int) - roundMag f num den * den| ≤ |(num : Int) - k * den| ∧
      (k ≠ roundMag f num den → |(num : Int) - roundMag f num den * den| = |(num : Int) - k * den| →
        roundMag f num den / 2 ^ f.quantumExp (num / den) % 2 = 0)) ∧
  (∀ (f : Flen) (neg : Bool) (num den : Nat), roundToF f neg num den =
    if roundMag f num den < f.overflowMag then .fin neg (roundMag f num den) else .inf neg) ∧
  (∀ (f : Flen) (a b : Bool) (m k : Nat), fmul f (.fin a m) (.fin b k) = roundToF f (a != b) (m * k) f.oneMag) ∧
  (∀ (f : Flen) (a b : Bool) (m k : Nat), signedMag a m + signedMag b k ≠ 0 →
    fadd f (.fin a m) (.fin b k) =
      roundToF f (decide (signedMag a m + signedMag b k < 0)) (signedMag a m + signedMag b k).natAbs 1) ∧
  (∀ (f : Flen) (a b : Bool) (m k : Nat), fsub f (.fin a m) (.fin b k) = fadd f (.fin a m) (.fin (!b) k)) ∧
  (∀ (f : Flen) (a b : Bool) (m : Nat), fadd f (.inf a) (.inf a) = .inf a ∧ fadd f (.inf a) (.fin b m) = .inf a ∧
    fmul f (.inf a) (.inf b) = .inf (a != b) ∧ (m ≠ 0 → fmul f (.inf a) (.fin b m) = .inf (a != b))) ∧
  (∀ (f : Flen) (x y : Flt), fadd f x y = fadd f y x ∧ fmul f x y = fmul f y x) ∧
  (∀ (f : Flen) (u low high : Flt), affineMap f u low high = fadd f (fmul f u (fsub f high low)) low) ∧
  (∀ (f : Flen) (z mu sigma : Flt), normalScale f z mu sigma = fadd f (fmul f z sigma) mu)

/-- NaNs (R112): a NaN operand gives a NaN; `inf - inf` and `0 * inf` give a NaN, either sign of each; a signalling NaN
encoding is the same operand as a quiet one; a NaN result is packed as a quiet NaN, and every quiet NaN can be the one. -/
def Obligations.NanRules : Prop :=
  ∀ f : Flen,
    (∀ x, fadd f .nan x = .nan ∧ fadd f x .nan = .nan ∧ fsub f .nan x = .nan ∧ fsub f x .nan = .nan ∧
      fmul f .nan x = .nan ∧ fmul f x .nan = .nan) ∧
    (fsqrt f .nan = .nan ∧ ∀ c : Config, c.elem.ln f .nan = .nan ∧ c.elem.cos f .nan = .nan ∧ c.elem.sin f .nan = .nan) ∧
    (∀ a : Bool, fadd f (.inf a) (.inf !a) = .nan ∧ fsub f (.inf a) (.inf a) = .nan) ∧
    (∀ a b : Bool, fmul f (.fin a 0) (.inf b) = .nan ∧ fmul f (.inf a) (.fin b 0) = .nan) ∧
    (∀ x : U64, unpackF f x = .nan ↔
      x.toNat / 2 ^ f.fracBits % 2 ^ f.expBits = 2 ^ f.expBits - 1 ∧ x.toNat % 2 ^ f.fracBits ≠ 0) ∧
    (∀ c, isQuietNaN f (packF f c .nan) = true) ∧
    (∀ d, isQuietNaN f d = true → ∃ c, packF f c .nan = d)

/-- The other special cases (R113): overflow to the infinity of the sign, gradual underflow, subnormal operands at their
value, the signs of zero sums and of products, `x + 0 = x` and `x * 1.0 = x`. -/
def Obligations.ArithmeticSpecialCases : Prop :=
  ∀ f : Flen,
    (∀ (neg : Bool) (num den : Nat), f.overflowMag ≤ roundMag f num den → roundToF f neg num den = .inf neg) ∧
    (∀ num den : Nat, num / den < 2 ^ f.fracBits → roundMag f num den = nearestEven num den) ∧
    (∀ (neg : Bool) (k : Nat), k < 2 ^ f.fracBits → unpackF f (encoding f neg k) = .fin neg k) ∧
    (∀ (a : Bool) (m : Nat), fsub f (.fin a m) (.fin a m) = .fin false 0 ∧
      (m ≠ 0 → fadd f (.fin a m) (.fin (!a) m) = .fin false 0)) ∧
    fadd f (.fin false 0) (.fin false 0) = .fin false 0 ∧ fadd f (.fin true 0) (.fin true 0) = .fin true 0 ∧
    fadd f (.fin false 0) (.fin true 0) = .fin false 0 ∧
    (∀ (x : Flt) (b : Bool), x.representable f = true → x ≠ .fin false 0 → x ≠ .fin true 0 →
      fadd f x (.fin b 0) = x) ∧
    (∀ x y : Flt, fmul f x y ≠ .nan → signOf (fmul f x y) = (signOf x != signOf y)) ∧
    (∀ x : Flt, x.representable f = true → fmul f x f.one = x)

/-- `fsqrt` (R131): the special values, and for a finite `x > 0` a number of the format such that none is nearer to the real
root (`r` nearer than `k` means that the root lies on `r`'s side of their midpoint). -/
def Obligations.SquareRootCorrectlyRounded : Prop :=
  ∀ f : Flen,
    (∀ neg : Bool, fsqrt f (.fin neg 0) = .fin neg 0) ∧ fsqrt f (.inf false) = .inf false ∧
    fsqrt f (.inf true) = .nan ∧ fsqrt f .nan = .nan ∧ (∀ m : Nat, m ≠ 0 → fsqrt f (.fin true m) = .nan) ∧
    (∀ m : Nat, m ≠ 0 → (Flt.fin false m).representable f = true →
      ∃ r, fsqrt f (.fin false m) = .fin false r ∧ (Flt.fin false r).representable f = true ∧
        ∀ k : Nat, hasSpacing f k →
          (r < k → 4 * (m * f.oneMag) ≤ (r + k) ^ 2) ∧ (k < r → (r + k) ^ 2 ≤ 4 * (m * f.oneMag)))

/-- Every operation on numbers of the format gives a number of the format; every operand field is one (R65, R110, R111). -/
def Obligations.ArithmeticStaysInFormat : Prop :=
  ∀ f : Flen,
    (∀ x : U64, (unpackF f x).representable f = true) ∧
    (∀ x y : Flt, x.representable f = true → y.representable f = true →
      (fadd f x y).representable f = true ∧ (fsub f x y).representable f = true ∧ (fmul f x y).representable f = true) ∧
    (∀ x : Flt, x.representable f = true → (fsqrt f x).representable f = true) ∧
    f.one.representable f = true ∧ f.minusTwo.representable f = true ∧ f.twoPi.representable f = true

/-- Packing and unpacking (R73): `packF(unpackF(X)) = X` for every operand field of the format that is no NaN encoding, and
unpacking a packed number of the format gives it back. -/
def Obligations.PackUnpackRoundTrip : Prop :=
  (∀ (f : Flen) (x : U64) (c : Bool × Nat), floatFieldOk f x = true → unpackF f x ≠ .nan →
    packF f c (unpackF f x) = x) ∧
  (∀ (f : Flen) (v : Flt) (c : Bool × Nat), v.representable f = true → unpackF f (packF f c v) = v)

/-- With `low = 0`, `high = 1` the affine map is the identity on what `UniformFloat` returns, bit for bit; with `low = high`
finite it gives `low`, `-0` giving `+0` (R117). -/
def Obligations.AffineMapDefaults : Prop :=
  ∀ (f : Flen) (k : U24),
    affineMap f (u24toF f k) (.fin false 0) f.one = u24toF f k ∧
    ∀ (a : Bool) (m : Nat), (Flt.fin a m).representable f = true →
      affineMap f (u24toF f k) (.fin a m) (.fin a m) = if m = 0 then .fin false 0 else .fin a m

/-- What holds of a uniform result (R121): for finite `low <= high` whose difference does not overflow, every result `v` has
`low <= v <= fadd(fmul(1 - 2^-24, d), low)`; it can equal `high`: the worked counterexample; and where all intermediate
results are exact it lies in `[low, high)`. -/
def Obligations.AffineMapBounds : Prop :=
  (∀ (f : Flen) (a b : U64) (k : U24),
    isFinite (unpackF f a) = true → isFinite (unpackF f b) = true → (unpackF f a).le (unpackF f b) = true →
    isFinite (fsub f (unpackF f b) (unpackF f a)) = true →
    (unpackF f a).le (affineMap f (u24toF f k) (unpackF f a) (unpackF f b)) = true ∧
    (affineMap f (u24toF f k) (unpackF f a) (unpackF f b)).le
      (fadd f (fmul f (u24toF f 0xFFFFFF#24) (fsub f (unpackF f b) (unpackF f a))) (unpackF f a)) = true) ∧
  affineMap .binary64 (u24toF .binary64 0xFFFFFF#24) (unpackF .binary64 0x3FF0000000000000#64)
    (unpackF .binary64 0x3FF0000000000001#64) = unpackF .binary64 0x3FF0000000000001#64 ∧
  (∀ (f : Flen) (k : U24) (a b c : Bool) (ma mb d p v : Nat),
    signedMag a ma < signedMag b mb →
    fsub f (.fin b mb) (.fin a ma) = .fin false d → (d : Int) = signedMag b mb - signedMag a ma →
    fmul f (u24toF f k) (.fin false d) = .fin false p → p * 2 ^ 24 = k.toNat * d →
    fadd f (.fin false p) (.fin a ma) = .fin c v → signedMag c v = p + signedMag a ma →
    affineMap f (u24toF f k) (.fin a ma) (.fin b mb) = .fin c v ∧
      signedMag a ma ≤ signedMag c v ∧ signedMag c v < signedMag b mb)

/-- `UNIFB` (R118): with `n >= 0` it performs `n` draws and emits `n` data beats, beat `i` carrying
`fadd(fmul(u, fsub(high, low)), low)` for the uniform float `u` of draw `i`, then `complete(OK, 0, n)`, and changes nothing
else (but the model's own counter of NaN choices); `n = 0` emits nothing and leaves `S`; the refusals change nothing. The
clauses on `exec` hold of every term; with `FLEN = 32` a term whose float operand fields have upper halves is one that no word
spells, and the model's choice (log 19). -/
def Obligations.UnifbCommand : Prop :=
  ∀ (s : State) (n : U32) (low high : U64),
    let f := s.cfg.flen
    (∀ x : U64, s.SEEDED = true → s.S = some x → n.msb = false →
      ∃ (ds : List U64) (choices : Nat),
        exec (.unifb n low high) s =
          .next { s with
            S := some (nextIter n.toNat x)
            pending := s.pending ++ ds.map Beat.data ++ [.completion .ok false n]
            nanDraws := choices } ∧
        ds.length = n.toNat ∧
        ∀ (i : Nat) (d : U64), ds[i]? = some d →
          Represents f
            (fadd f (fmul f (u24toF f ((drawAt i x).extractLsb' 8 24)) (fsub f (unpackF f high) (unpackF f low)))
              (unpackF f low)) d) ∧
    (s.SEEDED = false → exec (.unifb n low high) s = refusedWith .notSeeded s) ∧
    (s.SEEDED = true → n.msb = true → exec (.unifb n low high) s = refusedWith .invalidArgument s) ∧
    (∀ w : CmdWord, w.op = 0x04 →
      runWord w s =
        if w.rsv = 0 ∧ (f = .binary64 ∨ (w.a.extractLsb' 32 32 = 0 ∧ w.b.extractLsb' 32 32 = 0)) then
          exec (.unifb w.n w.a w.b) s
        else refusedWith .illegalCommand s)

/-- A uniform batch can be split anywhere (R119): `UNIFB n1` then `UNIFB n2` emits the values of `UNIFB (n1 + n2)`, in the
same order (NaN choices apart), and leaves the same `S`. -/
def Obligations.UnifbSplitsAnywhere : Prop :=
  ∀ (s : State) (x : U64) (n1 n2 : U32) (low high : U64), s.SEEDED = true → s.S = some x →
    n1.toNat + n2.toNat < 2 ^ 31 →
    ∃ t1 t2 u : State, exec (.unifb n1 low high) s = .next t1 ∧ exec (.unifb n2 low high) t1 = .next t2 ∧
      exec (.unifb (n1 + n2) low high) s = .next u ∧ t2.S = u.S ∧
      List.Forall₂ (SameUpToNaN s.cfg.flen) (dataValues (newBeats s t2)) (dataValues (newBeats s u))

/-- `UNIFB n, 0.0, 1.0` emits the same values as `n` successive `NEXTUF` commands and leaves the same `S` (R119). -/
def Obligations.UnifbDefaultsAreNextufs : Prop :=
  ∀ (s : State) (x : U64) (n : U32), s.SEEDED = true → s.S = some x → n.msb = false →
    let one : U64 := match s.cfg.flen with
      | .binary64 => 0x3FF0000000000000#64
      | .binary32 => 0x000000003F800000#64
    ∃ t u : State, exec (.unifb n 0 one) s = .next t ∧ runInstrs (List.replicate n.toNat .nextuf) s = .next u ∧
      t.S = u.S ∧ dataValues (newBeats s t) = dataValues (newBeats s u) ∧ (dataValues (newBeats s t)).length = n.toNat

/-! ## The Gaussian sampler (42_gaussian.md) -/

/-- The `LN`, `COS` and `SIN` of every configuration have the named properties, in both formats (R6, R132, R133). -/
def Obligations.ElementaryNamedProperties : Prop :=
  ∀ (c : Config) (f : Flen), LnProperties c.elem f ∧ CosSinProperties c.elem f

/-- The constants of the transform (R130): the encodings of `PI_F` and `TWO_PI_F`; `PI_F` is the number of the format
nearest to the real number pi; `TWO_PI_F = fmul(2.0, PI_F)` is exact; for every `u2` of `UniformFloat` the other association
of `2*pi*u2` gives the same; and `fmul(-2.0, x)` is exact where it does not overflow (R130 says: for every finite `LN(u1)`;
log 7). -/
def Obligations.TransformConstants : Prop :=
  Flen.pi .binary64 = unpackF .binary64 0x400921FB54442D18#64 ∧ Flen.pi .binary32 = unpackF .binary32 0x40490FDB#64 ∧
  Flen.twoPi .binary64 = unpackF .binary64 0x401921FB54442D18#64 ∧
  Flen.twoPi .binary32 = unpackF .binary32 0x40C90FDB#64 ∧
  ∀ f : Flen,
    (∃ m, f.pi = .fin false m ∧ f.twoPi = .fin false (2 * m) ∧ f.twoPi = fmul f f.two f.pi ∧
      ∀ k : Nat, hasSpacing f k → |(m : ℝ) / f.oneMag - Real.pi| ≤ |(k : ℝ) / f.oneMag - Real.pi|) ∧
    (∀ (u2 : U24), fmul f f.two (fmul f f.pi (u24toF f u2)) = angle f (u24toF f u2)) ∧
    ∀ (neg : Bool) (m : Nat), (Flt.fin neg m).representable f = true → 2 * m < f.overflowMag →
      fmul f f.minusTwo (.fin neg m) = .fin (!neg) (2 * m)

/-- The corner cases of `Transform` (R135), from the named properties of R132 and R133 alone: for all elementary functions
that have them, those of every configuration among them. In the row `0 < u1 < 1` two premises are the model's own (log 7):
`fmul(-2.0, LN(u1))` is finite, which R132's properties do not give, and `fmul(TWO_PI_F, u2)` is finite, where R135 says that
`u2` is, since the product of a huge finite `u2` overflows (R113). What the arithmetic gives where either product is an
infinity is stated too: `r = +inf`, and outputs as for `u1 = 0`; and two NaNs. -/
def Obligations.TransformCornerCases : Prop :=
  ∀ (E : ElemFns) (f : Flen) (u2 : Flt), LnProperties E f → CosSinProperties E f →
    -- u1 = +0 or -0
    (∀ neg : Bool, radius E f (.fin neg 0) = .inf false ∧
      (∀ c k, E.cos f (angle f u2) = .fin c k →
        (transform E f (.fin neg 0) u2).1 = if k = 0 then .nan else .inf c) ∧
      (∀ c k, E.sin f (angle f u2) = .fin c k →
        (transform E f (.fin neg 0) u2).2 = if k = 0 then .nan else .inf c)) ∧
    transform E f (.fin false 0) (.fin false 0) = (.inf false, .nan) ∧
    -- u1 < 0 or NaN
    (∀ u1, (u1 = .nan ∨ u1 = .inf true ∨ ∃ m, m ≠ 0 ∧ u1 = .fin true m) → transform E f u1 u2 = (.nan, .nan)) ∧
    -- u1 = 1.0
    (radius E f f.one = .fin true 0 ∧
      (∀ c k, E.cos f (angle f u2) = .fin c k → (transform E f f.one u2).1 = .fin (!c) 0) ∧
      (∀ c k, E.sin f (angle f u2) = .fin c k → (transform E f f.one u2).2 = .fin (!c) 0)) ∧
    -- u1 > 1
    (∀ u1, (u1 = .inf false ∨ ∃ m, f.oneMag < m ∧ u1 = .fin false m) → transform E f u1 u2 = (.nan, .nan)) ∧
    -- 0 < u1 < 1
    (∀ m, 0 < m → m < f.oneMag →
      (isFinite (fmul f f.minusTwo (E.ln f (.fin false m))) = true →
        ∃ r, r ≠ 0 ∧ radius E f (.fin false m) = .fin false r ∧
          (isFinite (angle f u2) = true →
            let z := transform E f (.fin false m) u2
            isFinite z.1 = true ∧ isFinite z.2 = true ∧
              z.1.abs.le (.fin false r) = true ∧ z.2.abs.le (.fin false r) = true)) ∧
      (isFinite (fmul f f.minusTwo (E.ln f (.fin false m))) = false → radius E f (.fin false m) = .inf false)) ∧
    (∀ u1, radius E f u1 = .inf false →
      (∀ c k, E.cos f (angle f u2) = .fin c k → (transform E f u1 u2).1 = if k = 0 then .nan else .inf c) ∧
      (∀ c k, E.sin f (angle f u2) = .fin c k → (transform E f u1 u2).2 = if k = 0 then .nan else .inf c)) ∧
    -- an angle that is no finite number
    (∀ u1, isFinite (angle f u2) = false → transform E f u1 u2 = (.nan, .nan)) ∧
    -- u2 NaN or infinite
    (∀ u1, (u2 = .nan ∨ ∃ neg, u2 = .inf neg) → transform E f u1 u2 = (.nan, .nan)) ∧
    -- u2 = +0
    (∀ u1 r, radius E f u1 = .fin false r → r ≠ 0 → transform E f u1 (.fin false 0) = (.fin false r, .fin false 0))

/-- The bound on the standard normal values (R144): under every configuration with the named properties, for `u1` from the
generator and not zero, `|z1| <= r` and `|z2| <= r` where `r` is finite (log 7). -/
def Obligations.NormalValuesBoundedByRadius : Prop :=
  ∀ (E : ElemFns) (f : Flen) (k j : U24) (r : Nat), LnProperties E f → CosSinProperties E f → k ≠ 0 →
    radius E f (u24toF f k) = .fin false r →
    (transform E f (u24toF f k) (u24toF f j)).1.abs.le (.fin false r) = true ∧
    (transform E f (u24toF f k) (u24toF f j)).2.abs.le (.fin false r) = true

/-- `BMXF` (R137): in every state, seeded or not, it emits `z1` and `z2` of its operands, then `complete(OK, dom, 2)`, where
`dom` is 1 exactly when `u1 > 0` is false, and changes nothing else (but the model's own counter of NaN choices);
`IllegalCommand` is its only error. `LN`, `COS` and `SIN` are those of the instance's configuration, and `TWO_PI_F` is written
by its encoding (R130). The clause on `exec` holds of every term; with `FLEN = 32` a term whose operand fields have upper
halves is one that no word spells, and the model's choice (log 19). -/
def Obligations.BmxfCommand : Prop :=
  ∀ (s : State) (u1 u2 : U64),
    let f := s.cfg.flen
    let twoPi : Flt := match f with
      | .binary64 => unpackF .binary64 0x401921FB54442D18#64
      | .binary32 => unpackF .binary32 0x40C90FDB#64
    let r := fsqrt f (fmul f f.minusTwo (s.cfg.elem.ln f (unpackF f u1)))
    let a := fmul f twoPi (unpackF f u2)
    (∃ (d1 d2 : U64) (choices : Nat),
      exec (.bmxf u1 u2) s =
        .next { s with
          pending := s.pending ++ [.data d1, .data d2, .completion .ok (!(unpackF f u1).gtZero) 2]
          nanDraws := choices } ∧
      Represents f (fmul f r (s.cfg.elem.cos f a)) d1 ∧ Represents f (fmul f r (s.cfg.elem.sin f a)) d2) ∧
    (∀ w : CmdWord, w.op = 0x05 →
      runWord w s =
        if w.rsv = 0 ∧ w.n = 0 ∧ (f = .binary64 ∨ (w.a.extractLsb' 32 32 = 0 ∧ w.b.extractLsb' 32 32 = 0)) then
          exec (.bmxf w.a w.b) s
        else refusedWith .illegalCommand s)

/-- `NormalScale` is `fadd(fmul(z, sigma), mu)`, and with the defaults `mu = 0`, `sigma = 1` it returns `z`, except that `-0`
becomes `+0` (R138). -/
def Obligations.NormalScaleDefaults : Prop :=
  (∀ (f : Flen) (z mu sigma : Flt), normalScale f z mu sigma = fadd f (fmul f z sigma) mu) ∧
  ∀ (f : Flen) (z : Flt), z.representable f = true → z ≠ .nan →
    normalScale f z (.fin false 0) f.one = if z = .fin true 0 then .fin false 0 else z

/-- `sigma = +0` (R143): a finite `z` gives `mu` for every non-zero `mu`, and for a zero `mu` it gives `-0` only if both the
product and `mu` are `-0`; an infinite `z` gives a NaN. -/
def Obligations.SigmaZeroGivesMu : Prop :=
  ∀ (f : Flen) (a : Bool) (m : Nat) (mu : Flt), mu.representable f = true →
    (mu ≠ .fin false 0 → mu ≠ .fin true 0 → normalScale f (.fin a m) mu (.fin false 0) = mu) ∧
    (∀ b : Bool, normalScale f (.fin a m) (.fin b 0) (.fin false 0) = .fin (a && b) 0) ∧
    normalScale f (.inf a) mu (.fin false 0) = .nan

/-- `NORMB` (R139 to R142): with `n >= 0` it performs `2 * ceil(n / 2)` draws and emits `n` data beats. Beat `i` carries
`fadd(fmul(z, sigma), mu)` for `z` of pair `i / 2`, the cosine branch at even `i` and the sine branch at odd `i`; pair `j` has
`u1` of draw `2j` and `u2` of draw `2j + 1`. Then `complete(OK, dom, n)`, `dom` 1 exactly when some pair's `u1 > 0` is false.
Nothing else changes (but the model's own counter of NaN choices); the refusals change nothing. `LN`, `COS` and `SIN` are
those of the instance's configuration. The clauses on `exec` hold of every term; with `FLEN = 32` a term whose float operand
fields have upper halves is one that no word spells, and the model's choice (log 19). -/
def Obligations.NormbCommand : Prop :=
  ∀ (s : State) (n : U32) (mu sigma : U64),
    let f := s.cfg.flen
    (∀ x : U64, s.SEEDED = true → s.S = some x → n.msb = false →
      ∃ (ds : List U64) (dom : Bool) (choices : Nat),
        exec (.normb n mu sigma) s =
          .next { s with
            S := some (nextIter (2 * ((n.toNat + 1) / 2)) x)
            pending := s.pending ++ ds.map Beat.data ++ [.completion .ok dom n]
            nanDraws := choices } ∧
        ds.length = n.toNat ∧
        (dom = true ↔ ∃ j, j < (n.toNat + 1) / 2 ∧ (uniformAt f (2 * j) x).gtZero = false) ∧
        ∀ (i : Nat) (d : U64), ds[i]? = some d →
          let z := transform s.cfg.elem f (uniformAt f (2 * (i / 2)) x) (uniformAt f (2 * (i / 2) + 1) x)
          Represents f (fadd f (fmul f (if i % 2 = 0 then z.1 else z.2) (unpackF f sigma)) (unpackF f mu)) d) ∧
    (s.SEEDED = false → exec (.normb n mu sigma) s = refusedWith .notSeeded s) ∧
    (s.SEEDED = true → n.msb = true → exec (.normb n mu sigma) s = refusedWith .invalidArgument s) ∧
    (∀ w : CmdWord, w.op = 0x06 →
      runWord w s =
        if w.rsv = 0 ∧ (f = .binary64 ∨ (w.a.extractLsb' 32 32 = 0 ∧ w.b.extractLsb' 32 32 = 0)) then
          exec (.normb w.n w.a w.b) s
        else refusedWith .illegalCommand s)

/-- Cropping (R141): an odd `NORMB n` leaves the same `S` as `NORMB (n + 1)` and emits its first `n` values (NaN choices
apart): only the last value is dropped, and its draws are made. -/
def Obligations.NormbOddDropsLastOnly : Prop :=
  ∀ (s : State) (x : U64) (n : U32) (mu sigma : U64), s.SEEDED = true → s.S = some x → n.toNat % 2 = 1 →
    n.toNat + 1 < 2 ^ 31 →
    ∃ t u : State, exec (.normb n mu sigma) s = .next t ∧ exec (.normb (n + 1) mu sigma) s = .next u ∧ t.S = u.S ∧
      (dataValues (newBeats s t)).length = n.toNat ∧ (dataValues (newBeats s u)).length = n.toNat + 1 ∧
      List.Forall₂ (SameUpToNaN s.cfg.flen) (dataValues (newBeats s t)) ((dataValues (newBeats s u)).take n.toNat)

/-- A normal batch can be split at an even length (R142): `NORMB n1` then `NORMB n2` with `n1` even emits the values of
`NORMB (n1 + n2)` (NaN choices apart) and leaves the same `S`; with `n1` odd the draws are more by 2 or by 0. -/
def Obligations.NormbSplitsAtEvenLength : Prop :=
  (∀ (s : State) (x : U64) (n1 n2 : U32) (mu sigma : U64), s.SEEDED = true → s.S = some x → n1.toNat % 2 = 0 →
    n1.toNat + n2.toNat < 2 ^ 31 →
    ∃ t1 t2 u : State, exec (.normb n1 mu sigma) s = .next t1 ∧ exec (.normb n2 mu sigma) t1 = .next t2 ∧
      exec (.normb (n1 + n2) mu sigma) s = .next u ∧ t2.S = u.S ∧
      List.Forall₂ (SameUpToNaN s.cfg.flen) (dataValues (newBeats s t2)) (dataValues (newBeats s u))) ∧
  (∀ (n1 n2 : U32) (mu sigma : U64), n1.toNat % 2 = 1 → n1.toNat + n2.toNat < 2 ^ 31 →
    drawsOf (.normb n1 mu sigma) + drawsOf (.normb n2 mu sigma) =
      drawsOf (.normb (n1 + n2) mu sigma) + if n2.toNat % 2 = 1 then 2 else 0)

/-- The `DOM` bit of `NORMB` (R136): 1 exactly when some pair drew `u1 = +0`, that is, when the draw of index `2j` of some
pair `j` is below 0x100; the status is `OK` all the same. -/
def Obligations.NormbDomExactly : Prop :=
  ∀ (s t : State) (x : U64) (n : U32) (mu sigma : U64), s.SEEDED = true → s.S = some x → n.msb = false →
    exec (.normb n mu sigma) s = .next t →
    ∃ dom : Bool, t.pending.getLast? = some (.completion .ok dom n) ∧
      (dom = true ↔ ∃ j, j < (n.toNat + 1) / 2 ∧ (drawAt (2 * j) x).toNat < 256)

/-! ## Refusals (60_exceptions.md) -/

/-- `NotSeeded` is raised by NEXTU32, NEXTUF, UNIFB and NORMB when `SEEDED = 0`, also when they would perform no draw, and by
nothing else (R164). -/
def Obligations.NotSeededExactly : Prop :=
  ∀ (i : Instr) (s : State),
    (s.SEEDED = false →
      i = .nextu32 ∨ i = .nextuf ∨ (∃ n a b, i = .unifb n a b) ∨ (∃ n a b, i = .normb n a b) →
      exec i s = refusedWith .notSeeded s) ∧
    (∀ t dom count, exec i s = .next t → .completion .notSeeded dom count ∈ newBeats s t →
      s.SEEDED = false ∧ (i = .nextu32 ∨ i = .nextuf ∨ (∃ n a b, i = .unifb n a b) ∨ ∃ n a b, i = .normb n a b))

/-- `InvalidArgument` is raised by UNIFB and NORMB when `N[31] = 1` (and the block is seeded, R166), and by nothing else;
`n = 0` is no error (R162). -/
def Obligations.InvalidArgumentExactly : Prop :=
  ∀ (i : Instr) (s : State),
    (∀ n a b, s.SEEDED = true → n.getLsbD 31 = true → (i = .unifb n a b ∨ i = .normb n a b) →
      exec i s = refusedWith .invalidArgument s) ∧
    (∀ t dom count, exec i s = .next t → .completion .invalidArgument dom count ∈ newBeats s t →
      s.SEEDED = true ∧ ∃ n a b, n.getLsbD 31 = true ∧ (i = .unifb n a b ∨ i = .normb n a b))

/-- Every word is answered, with the one status R166's order gives: `IllegalCommand`, then `NotSeeded`, then
`InvalidArgument`, else `OK`; in every state whose `SEEDED` says whether `S` holds a value. -/
def Obligations.EveryWordAnsweredByPriority : Prop :=
  ∀ (w : CmdWord) (s : State), s.SEEDED = s.S.isSome →
    ∃ (t : State) (ds : List U64) (dom : Bool) (count : U32), runWord w s = .next t ∧
      t.pending = s.pending ++ ds.map Beat.data ++ [.completion (statusFor s.cfg.flen s.SEEDED w) dom count]

/-- Effect of a refusal (R167): one completion beat with the code, `DOM = 0` and `COUNT = 0`, and nothing else, in every
state. -/
def Obligations.RefusalHasNoEffect : Prop :=
  ∀ (w : CmdWord) (s : State), statusFor s.cfg.flen s.SEEDED w ≠ .ok →
    runWord w s = .next { s with
      pending := s.pending ++ [.completion (statusFor s.cfg.flen s.SEEDED w) false 0] }

/-! ## Reset, ports and runs (20_memory.md, 70_reset_and_hazards.md) -/

/-- After reset `SEEDED = 0`, `S` holds no value and no command is in flight (R30, R31, R191). At every edge with `rst = 1`,
in every state, the block is so, the beats not yet taken are withdrawn, and neither port transfers (R192). That the counters
`nanDraws` and `latencyDraws`, the source of choices and the record `delivered` of the beats taken stay as they are is the
model's choice (log 9, log 11, log 22). -/
def Obligations.ResetEdge : Prop :=
  (∀ (c : Config) (src : Nat), (State.resetOf c src).SEEDED = false ∧ (State.resetOf c src).S = none ∧
    (State.resetOf c src).pending = [] ∧ (State.resetOf c src).cfg = c) ∧
  (∀ s : State, s.pins.rst = true →
    cmdReady s.pins s = false ∧ rspValid s.pins s = false ∧
    ∃ t, step s = .next t ∧ t.SEEDED = false ∧ t.S = none ∧ t.pending = [] ∧ t.delivered = s.delivered ∧
      t.cfg = s.cfg ∧ t.inputs = s.inputs.tail ∧ t.nanDraws = s.nanDraws ∧ t.latencyDraws = s.latencyDraws ∧
      t.source = s.source)

/-- A step runs the accepted word (R41, R49, R69): when no command is in flight, no reset is asserted and the host presents
a word it has held, the step is `exec` of the command the word decodes to, on the state with this edge's pins consumed and
no word held, and then the first beat waits its latency (the model's own, log 3 and log 4); a word that decodes to none is
refused. -/
def Obligations.StepRunsAcceptedCommand : Prop :=
  ∀ s : State, s.pending = [] → s.pins.rst = false → s.pins.cmdValid = true →
    (∀ w, s.held = some w → s.pins.cmdData = w) →
    (∀ i, decode s.cfg.flen s.pins.cmdData = .ok i →
      step s = beginResponse (exec i { s with inputs := s.inputs.tail, held := none })) ∧
    (∀ e, decode s.cfg.flen s.pins.cmdData = .error e →
      step s = beginResponse (refusedWith .illegalCommand { s with inputs := s.inputs.tail, held := none })) ∧
    (∀ t : State, beginResponse (.next t) =
      .next { t with wait := Config.latency t.source t.latencyDraws, latencyDraws := t.latencyDraws + 1 })

/-- A beat presented is held until it is taken, and taken whole and in order (R42, R50): while `rsp_valid` is 1 and
`rsp_ready` is 0 the next edge shows the same beat; with `rsp_ready` 1 that beat, and no other, is delivered. -/
def Obligations.ResponseHeldUntilTaken : Prop :=
  ∀ s t : State, rspValid s.pins s = true → step s = .next t →
    (s.pins.rspReady = false → t.delivered = s.delivered ∧
      ∀ p : Pins, p.rst = false → rspValid p t = true ∧ rspData p t = rspData s.pins s) ∧
    (s.pins.rspReady = true → ∃ b rest, s.pending = b :: rest ∧ rspData s.pins s = some b.bits ∧
      t.delivered = s.delivered ++ [b] ∧ t.pending = rest)

/-- While a command is in flight the block accepts nothing, and no edge but a reset changes its state or its response
stream: back-pressure cannot change a value (R49's reference behaviour, R200). Two clauses are the model's choice: that `S` and
`SEEDED` do not change between the acceptance of a command and its completion beat, since here they change at the acceptance
edge (log 3), and that `cmd_ready` is 0 all that while (log 12). -/
def Obligations.BusyBlockKeepsState : Prop :=
  ∀ s t : State, s.pending ≠ [] → s.pins.rst = false → step s = .next t →
    cmdReady s.pins s = false ∧ t.S = s.S ∧ t.SEEDED = s.SEEDED ∧ t.cfg = s.cfg ∧ t.nanDraws = s.nanDraws ∧
      t.delivered ++ t.pending = s.delivered ++ s.pending

/-- From a state that meets the invariant a step stops only where the host changed `cmd_data` while it kept `cmd_valid` at 1
before the transfer, without a reset (93 U18, R41; the stop is the model's choice, log 10); nothing in the block is stuck. -/
def Obligations.StopsOnlyWhenHostBreaksHold : Prop :=
  ∀ s : State, s.inv = true →
    (∃ t, step s = .next t) ∨
    (step s = .fault .commandNotHeld ∧ s.pins.rst = false ∧ s.pins.cmdValid = true ∧
      ∃ w, s.held = some w ∧ s.pins.cmdData ≠ w)

/-- The invariant holds after reset, in every configuration. -/
def Obligations.InvariantAtReset : Prop := ∀ (c : Config) (src : Nat), (State.resetOf c src).inv = true

/-- Every step keeps the invariant: `SEEDED = 1` exactly while `S` holds a value (R21); the beats in flight are the rest of
one response, data beats at most as many as `COUNT`, then one completion beat, a refusal's with `DOM = 0` and `COUNT = 0`
(R50, R71, R72, R167). -/
def Obligations.InvariantKeptByStep : Prop := ∀ s t : State, s.inv = true → step s = .next t → t.inv = true

/-- A run without reset is the fold of `Exec` over the words accepted, in acceptance order (R49, R51, R202): the state and
the response stream, delivered and in flight, are those of running the accepted words one after another, whole. That this holds while
beats are still in flight, and not only when none is, is the model's choice (log 3). -/
def Obligations.RunIsFoldOfExec : Prop :=
  ∀ (k : Nat) (s t : State), noReset k s → Host.Core.run Sys2Proof.core k s = .next t →
    execAll (acceptedWords k s) s.atomic = .next t.atomic

/-- Liveness (R203): with `rst` staying 0 and the host taking beats again and again, whatever it does at the command port
meanwhile (it may present words, change them while `cmd_valid` is 0 and withdraw them; R41 only obliges it to hold a word it
keeps presented), every beat in flight, the completion beat among them, is delivered after finitely many edges, in order.
That `S` and `SEEDED` are meanwhile what they were at the start is the model's choice: a command's effect on them happens
whole at the edge that accepts it (log 3). -/
def Obligations.ResponseDeliveredInFiniteTime : Prop :=
  ∀ (s : State) (pins : Nat → Pins),
    (∀ k, (pins k).rst = false) → (∀ k, hostKeepsWord k { s with inputs := (List.range k).map pins }) →
    (∀ k, ∃ j, k ≤ j ∧ (pins j).rspReady = true) →
    ∃ (k : Nat) (t : State),
      Host.Core.run Sys2Proof.core k { s with inputs := (List.range k).map pins } = .next t ∧ t.pending = [] ∧
        t.delivered = s.delivered ++ s.pending ∧ t.S = s.S ∧ t.SEEDED = s.SEEDED

/-- Determinism (R95, R34): two instances with the same configuration `(FLEN, LN, COS, SIN)`, whatever they did before and
whatever their sources of free values, given the same seed and then the same words, go through the same `S` and `SEEDED` and
answer the same beats up to the choice of NaN. The integer part is unconditional: between any two instances, of whatever
configurations, the state word is a function of the seed and of the number of draws since, whichever commands made them. -/
def Obligations.SameSeedSameResponses : Prop :=
  (∀ (ws : List CmdWord) (seed : U64) (s s' a a' t t' : State), SameConfig s.cfg s'.cfg →
    exec (.seed seed) s = .next a → exec (.seed seed) s' = .next a' →
    execAll ws a = .next t → execAll ws a' = .next t' →
    t.S = t'.S ∧ t.SEEDED = t'.SEEDED ∧
      List.Forall₂ (BeatsAgree s.cfg.flen) (newBeats a t) (newBeats a' t')) ∧
  (∀ (ws ws' : List CmdWord) (seed : U64) (s s' a a' t t' : State),
    exec (.seed seed) s = .next a → exec (.seed seed) s' = .next a' →
    (∀ w ∈ ws, ∀ x, decode s.cfg.flen w ≠ .ok (.seed x)) → (∀ w ∈ ws', ∀ x, decode s'.cfg.flen w ≠ .ok (.seed x)) →
    (ws.map (wordDraws s.cfg.flen)).sum = (ws'.map (wordDraws s'.cfg.flen)).sum →
    execAll ws a = .next t → execAll ws' a' = .next t' → t.S = t'.S)

/-- Instances share no state (R34): a step of one instance is a step of its own state and leaves every other as it was,
whatever their configurations and sources of free values (log 21, log 22). -/
def Obligations.InstancesShareNothing : Prop :=
  ∀ (sys sys' : List State) (k : Nat) (s : State), sys[k]? = some s → stepInstance k sys = .next sys' →
    (∃ t, step s = .next t ∧ sys'[k]? = some t) ∧ sys'.length = sys.length ∧
      ∀ j, j ≠ k → sys'[j]? = sys[j]?

/-- A shared instance serves one whole command a grant, whichever requester gets it (R53, R196; the grant order is free,
log 20): either the granted requester had no word and only the grant is spent, or its next word ran on the block's state as
`runWord` says, its whole response went to that requester, and no other requester's words or beats changed. -/
def Obligations.SharedBlockServesWholeCommands : Prop :=
  ∀ q q' : Shared, grantNext q = .next q' →
    (q' = { q with grants := q.grants + 1 } ∧ ∀ w rest, q.queues[q.granted]? ≠ some (w :: rest)) ∨
    ∃ (w : CmdWord) (rest : List CmdWord) (t : State),
      q.queues[q.granted]? = some (w :: rest) ∧ runWord w q.block = .next t ∧
      q'.block.S = t.S ∧ q'.block.SEEDED = t.SEEDED ∧ q'.block.pending = q.block.pending ∧
      q'.queues[q.granted]? = some rest ∧
      q'.received[q.granted]? = q.received[q.granted]?.map (· ++ newBeats q.block t) ∧
      ∀ j, j ≠ q.granted → q'.queues[j]? = q.queues[j]? ∧ q'.received[j]? = q.received[j]?

/-- The configuration is fixed (R25): no step, resets included, changes `FLEN`, `LN`, `COS` or `SIN`; nor does one change
the source of free values, the model's own (log 22). -/
def Obligations.ConfigurationIsFixed : Prop := ∀ s t : State, step s = .next t → t.cfg = s.cfg ∧ t.source = s.source

/-- Pseudo-commands (R75): `UNIFB n` and `NORMB n` with trailing operands omitted are the commands with the defaults 0.0 and
1.0 written out, in both formats, whatever the other operands' text; the defaults' encodings are R75's; no operand is omitted
from the middle, and nothing else is a pseudo-command. -/
def Obligations.OmittedOperandsAreDefaults : Prop :=
  (∀ (f : Flen) (name n x : List Char), (name = "UNIFB".toList ∨ name = "NORMB".toList) →
    commandLine f name [n] = commandLine f name [n, "0.0".toList, "1.0".toList] ∧
    commandLine f name [n, x] = commandLine f name [n, x, "1.0".toList]) ∧
  (∀ (f : Flen) (name n x : List Char), (name = "UNIFB".toList ∨ name = "NORMB".toList) →
    commandLine f name [n, [], x] = .bad ∧ commandLine f name [] = .bad) ∧
  (∀ (f : Flen) (x : List Char), commandLine f "SEED".toList [] = .bad ∧ commandLine f "BMXF".toList [] = .bad ∧
    commandLine f "BMXF".toList [x] = .bad) ∧
  (∀ (f : Flen) (name : List Char) (ops : List (List Char)),
    name ∉ ["SEED".toList, "NEXTU32".toList, "NEXTUF".toList, "UNIFB".toList, "BMXF".toList, "NORMB".toList] →
    commandLine f name ops = .bad) ∧
  readFloat .binary64 "0.0".toList = some 0 ∧ readFloat .binary32 "0.0".toList = some 0 ∧
  readFloat .binary64 "1.0".toList = some 0x3FF0000000000000#64 ∧
  readFloat .binary32 "1.0".toList = some 0x000000003F800000#64
end

