-- ==== Sys2Proof/Laws/State.lean ====
section
/-! SUPPORT. What each update of State writes and what it leaves: one lemma per field per update. -/

namespace Sys2Proof.Machine

/-! ## setS -/

@[simp] theorem State.setS_S (s : State) (w : U64) : (s.setS w).S = some w := rfl
@[simp] theorem State.setS_SEEDED (s : State) (w : U64) : (s.setS w).SEEDED = s.SEEDED := rfl
@[simp] theorem State.setS_pending (s : State) (w : U64) : (s.setS w).pending = s.pending := rfl
@[simp] theorem State.setS_held (s : State) (w : U64) : (s.setS w).held = s.held := rfl
@[simp] theorem State.setS_cfg (s : State) (w : U64) : (s.setS w).cfg = s.cfg := rfl
@[simp] theorem State.setS_source (s : State) (w : U64) : (s.setS w).source = s.source := rfl
@[simp] theorem State.setS_wait (s : State) (w : U64) : (s.setS w).wait = s.wait := rfl
@[simp] theorem State.setS_latencyDraws (s : State) (w : U64) : (s.setS w).latencyDraws = s.latencyDraws := rfl
@[simp] theorem State.setS_nanDraws (s : State) (w : U64) : (s.setS w).nanDraws = s.nanDraws := rfl
@[simp] theorem State.setS_inputs (s : State) (w : U64) : (s.setS w).inputs = s.inputs := rfl
@[simp] theorem State.setS_delivered (s : State) (w : U64) : (s.setS w).delivered = s.delivered := rfl

/-! ## setSeeded -/

@[simp] theorem State.setSeeded_S (s : State) : (s.setSeeded).S = s.S := rfl
@[simp] theorem State.setSeeded_SEEDED (s : State) : (s.setSeeded).SEEDED = true := rfl
@[simp] theorem State.setSeeded_pending (s : State) : (s.setSeeded).pending = s.pending := rfl
@[simp] theorem State.setSeeded_held (s : State) : (s.setSeeded).held = s.held := rfl
@[simp] theorem State.setSeeded_cfg (s : State) : (s.setSeeded).cfg = s.cfg := rfl
@[simp] theorem State.setSeeded_source (s : State) : (s.setSeeded).source = s.source := rfl
@[simp] theorem State.setSeeded_wait (s : State) : (s.setSeeded).wait = s.wait := rfl
@[simp] theorem State.setSeeded_latencyDraws (s : State) : (s.setSeeded).latencyDraws = s.latencyDraws := rfl
@[simp] theorem State.setSeeded_nanDraws (s : State) : (s.setSeeded).nanDraws = s.nanDraws := rfl
@[simp] theorem State.setSeeded_inputs (s : State) : (s.setSeeded).inputs = s.inputs := rfl
@[simp] theorem State.setSeeded_delivered (s : State) : (s.setSeeded).delivered = s.delivered := rfl

/-! ## emit -/

@[simp] theorem State.emit_S (s : State) (ds : List U64) : (s.emit ds).S = s.S := rfl
@[simp] theorem State.emit_SEEDED (s : State) (ds : List U64) : (s.emit ds).SEEDED = s.SEEDED := rfl
@[simp] theorem State.emit_pending (s : State) (ds : List U64) : (s.emit ds).pending = s.pending ++ ds.map Beat.data := rfl
@[simp] theorem State.emit_held (s : State) (ds : List U64) : (s.emit ds).held = s.held := rfl
@[simp] theorem State.emit_cfg (s : State) (ds : List U64) : (s.emit ds).cfg = s.cfg := rfl
@[simp] theorem State.emit_source (s : State) (ds : List U64) : (s.emit ds).source = s.source := rfl
@[simp] theorem State.emit_wait (s : State) (ds : List U64) : (s.emit ds).wait = s.wait := rfl
@[simp] theorem State.emit_latencyDraws (s : State) (ds : List U64) : (s.emit ds).latencyDraws = s.latencyDraws := rfl
@[simp] theorem State.emit_nanDraws (s : State) (ds : List U64) : (s.emit ds).nanDraws = s.nanDraws := rfl
@[simp] theorem State.emit_inputs (s : State) (ds : List U64) : (s.emit ds).inputs = s.inputs := rfl
@[simp] theorem State.emit_delivered (s : State) (ds : List U64) : (s.emit ds).delivered = s.delivered := rfl

/-! ## emitFloats -/

@[simp] theorem State.emitFloats_S (s : State) (vs : List Flt) : (s.emitFloats vs).S = s.S := rfl
@[simp] theorem State.emitFloats_SEEDED (s : State) (vs : List Flt) : (s.emitFloats vs).SEEDED = s.SEEDED := rfl
@[simp] theorem State.emitFloats_pending (s : State) (vs : List Flt) : (s.emitFloats vs).pending = s.pending ++ (packAll s.source s.cfg.flen s.nanDraws vs).map Beat.data := rfl
@[simp] theorem State.emitFloats_held (s : State) (vs : List Flt) : (s.emitFloats vs).held = s.held := rfl
@[simp] theorem State.emitFloats_cfg (s : State) (vs : List Flt) : (s.emitFloats vs).cfg = s.cfg := rfl
@[simp] theorem State.emitFloats_source (s : State) (vs : List Flt) : (s.emitFloats vs).source = s.source := rfl
@[simp] theorem State.emitFloats_wait (s : State) (vs : List Flt) : (s.emitFloats vs).wait = s.wait := rfl
@[simp] theorem State.emitFloats_latencyDraws (s : State) (vs : List Flt) : (s.emitFloats vs).latencyDraws = s.latencyDraws := rfl
@[simp] theorem State.emitFloats_nanDraws (s : State) (vs : List Flt) : (s.emitFloats vs).nanDraws = s.nanDraws + vs.length := rfl
@[simp] theorem State.emitFloats_inputs (s : State) (vs : List Flt) : (s.emitFloats vs).inputs = s.inputs := rfl
@[simp] theorem State.emitFloats_delivered (s : State) (vs : List Flt) : (s.emitFloats vs).delivered = s.delivered := rfl

/-! ## complete -/

@[simp] theorem State.complete_S (s : State) (st : Status) (dom : Bool) (n : U32) : (s.complete st dom n).S = s.S := rfl
@[simp] theorem State.complete_SEEDED (s : State) (st : Status) (dom : Bool) (n : U32) : (s.complete st dom n).SEEDED = s.SEEDED := rfl
@[simp] theorem State.complete_pending (s : State) (st : Status) (dom : Bool) (n : U32) : (s.complete st dom n).pending = s.pending ++ [.completion st dom n] := rfl
@[simp] theorem State.complete_held (s : State) (st : Status) (dom : Bool) (n : U32) : (s.complete st dom n).held = s.held := rfl
@[simp] theorem State.complete_cfg (s : State) (st : Status) (dom : Bool) (n : U32) : (s.complete st dom n).cfg = s.cfg := rfl
@[simp] theorem State.complete_source (s : State) (st : Status) (dom : Bool) (n : U32) : (s.complete st dom n).source = s.source := rfl
@[simp] theorem State.complete_wait (s : State) (st : Status) (dom : Bool) (n : U32) : (s.complete st dom n).wait = s.wait := rfl
@[simp] theorem State.complete_latencyDraws (s : State) (st : Status) (dom : Bool) (n : U32) : (s.complete st dom n).latencyDraws = s.latencyDraws := rfl
@[simp] theorem State.complete_nanDraws (s : State) (st : Status) (dom : Bool) (n : U32) : (s.complete st dom n).nanDraws = s.nanDraws := rfl
@[simp] theorem State.complete_inputs (s : State) (st : Status) (dom : Bool) (n : U32) : (s.complete st dom n).inputs = s.inputs := rfl
@[simp] theorem State.complete_delivered (s : State) (st : Status) (dom : Bool) (n : U32) : (s.complete st dom n).delivered = s.delivered := rfl

/-! ## raise -/

@[simp] theorem State.raise_S (s : State) (e : Status) : (s.raise e).S = s.S := rfl
@[simp] theorem State.raise_SEEDED (s : State) (e : Status) : (s.raise e).SEEDED = s.SEEDED := rfl
@[simp] theorem State.raise_pending (s : State) (e : Status) : (s.raise e).pending = s.pending ++ [.completion e false 0] := rfl
@[simp] theorem State.raise_held (s : State) (e : Status) : (s.raise e).held = s.held := rfl
@[simp] theorem State.raise_cfg (s : State) (e : Status) : (s.raise e).cfg = s.cfg := rfl
@[simp] theorem State.raise_source (s : State) (e : Status) : (s.raise e).source = s.source := rfl
@[simp] theorem State.raise_wait (s : State) (e : Status) : (s.raise e).wait = s.wait := rfl
@[simp] theorem State.raise_latencyDraws (s : State) (e : Status) : (s.raise e).latencyDraws = s.latencyDraws := rfl
@[simp] theorem State.raise_nanDraws (s : State) (e : Status) : (s.raise e).nanDraws = s.nanDraws := rfl
@[simp] theorem State.raise_inputs (s : State) (e : Status) : (s.raise e).inputs = s.inputs := rfl
@[simp] theorem State.raise_delivered (s : State) (e : Status) : (s.raise e).delivered = s.delivered := rfl

/-! ## resetNow -/

@[simp] theorem State.resetNow_S (s : State) : (s.resetNow).S = none := rfl
@[simp] theorem State.resetNow_SEEDED (s : State) : (s.resetNow).SEEDED = false := rfl
@[simp] theorem State.resetNow_pending (s : State) : (s.resetNow).pending = [] := rfl
@[simp] theorem State.resetNow_held (s : State) : (s.resetNow).held = s.held := rfl
@[simp] theorem State.resetNow_cfg (s : State) : (s.resetNow).cfg = s.cfg := rfl
@[simp] theorem State.resetNow_source (s : State) : (s.resetNow).source = s.source := rfl
@[simp] theorem State.resetNow_wait (s : State) : (s.resetNow).wait = 0 := rfl
@[simp] theorem State.resetNow_latencyDraws (s : State) : (s.resetNow).latencyDraws = s.latencyDraws := rfl
@[simp] theorem State.resetNow_nanDraws (s : State) : (s.resetNow).nanDraws = s.nanDraws := rfl
@[simp] theorem State.resetNow_inputs (s : State) : (s.resetNow).inputs = s.inputs := rfl
@[simp] theorem State.resetNow_delivered (s : State) : (s.resetNow).delivered = s.delivered := rfl

/-! ## takeLatency -/

@[simp] theorem State.takeLatency_S (s : State) : (s.takeLatency).S = s.S := rfl
@[simp] theorem State.takeLatency_SEEDED (s : State) : (s.takeLatency).SEEDED = s.SEEDED := rfl
@[simp] theorem State.takeLatency_pending (s : State) : (s.takeLatency).pending = s.pending := rfl
@[simp] theorem State.takeLatency_held (s : State) : (s.takeLatency).held = s.held := rfl
@[simp] theorem State.takeLatency_cfg (s : State) : (s.takeLatency).cfg = s.cfg := rfl
@[simp] theorem State.takeLatency_source (s : State) : (s.takeLatency).source = s.source := rfl
@[simp] theorem State.takeLatency_wait (s : State) : (s.takeLatency).wait = Config.latency s.source s.latencyDraws := rfl
@[simp] theorem State.takeLatency_latencyDraws (s : State) : (s.takeLatency).latencyDraws = s.latencyDraws + 1 := rfl
@[simp] theorem State.takeLatency_nanDraws (s : State) : (s.takeLatency).nanDraws = s.nanDraws := rfl
@[simp] theorem State.takeLatency_inputs (s : State) : (s.takeLatency).inputs = s.inputs := rfl
@[simp] theorem State.takeLatency_delivered (s : State) : (s.takeLatency).delivered = s.delivered := rfl

/-! ## tick -/

@[simp] theorem State.tick_S (s : State) : (s.tick).S = s.S := rfl
@[simp] theorem State.tick_SEEDED (s : State) : (s.tick).SEEDED = s.SEEDED := rfl
@[simp] theorem State.tick_pending (s : State) : (s.tick).pending = s.pending := rfl
@[simp] theorem State.tick_held (s : State) : (s.tick).held = s.held := rfl
@[simp] theorem State.tick_cfg (s : State) : (s.tick).cfg = s.cfg := rfl
@[simp] theorem State.tick_source (s : State) : (s.tick).source = s.source := rfl
@[simp] theorem State.tick_wait (s : State) : (s.tick).wait = s.wait - 1 := rfl
@[simp] theorem State.tick_latencyDraws (s : State) : (s.tick).latencyDraws = s.latencyDraws := rfl
@[simp] theorem State.tick_nanDraws (s : State) : (s.tick).nanDraws = s.nanDraws := rfl
@[simp] theorem State.tick_inputs (s : State) : (s.tick).inputs = s.inputs := rfl
@[simp] theorem State.tick_delivered (s : State) : (s.tick).delivered = s.delivered := rfl

/-! ## popPins -/

@[simp] theorem State.popPins_S (s : State) : (s.popPins).S = s.S := rfl
@[simp] theorem State.popPins_SEEDED (s : State) : (s.popPins).SEEDED = s.SEEDED := rfl
@[simp] theorem State.popPins_pending (s : State) : (s.popPins).pending = s.pending := rfl
@[simp] theorem State.popPins_held (s : State) : (s.popPins).held = s.held := rfl
@[simp] theorem State.popPins_cfg (s : State) : (s.popPins).cfg = s.cfg := rfl
@[simp] theorem State.popPins_source (s : State) : (s.popPins).source = s.source := rfl
@[simp] theorem State.popPins_wait (s : State) : (s.popPins).wait = s.wait := rfl
@[simp] theorem State.popPins_latencyDraws (s : State) : (s.popPins).latencyDraws = s.latencyDraws := rfl
@[simp] theorem State.popPins_nanDraws (s : State) : (s.popPins).nanDraws = s.nanDraws := rfl
@[simp] theorem State.popPins_inputs (s : State) : (s.popPins).inputs = s.inputs.tail := rfl
@[simp] theorem State.popPins_delivered (s : State) : (s.popPins).delivered = s.delivered := rfl

/-! ## presentNext -/

@[simp] theorem State.presentNext_S (s : State) (w : CmdWord) : (s.presentNext w).S = s.S := rfl
@[simp] theorem State.presentNext_SEEDED (s : State) (w : CmdWord) : (s.presentNext w).SEEDED = s.SEEDED := rfl
@[simp] theorem State.presentNext_pending (s : State) (w : CmdWord) : (s.presentNext w).pending = [] := rfl
@[simp] theorem State.presentNext_held (s : State) (w : CmdWord) : (s.presentNext w).held = none := rfl
@[simp] theorem State.presentNext_cfg (s : State) (w : CmdWord) : (s.presentNext w).cfg = s.cfg := rfl
@[simp] theorem State.presentNext_source (s : State) (w : CmdWord) : (s.presentNext w).source = s.source := rfl
@[simp] theorem State.presentNext_wait (s : State) (w : CmdWord) : (s.presentNext w).wait = 0 := rfl
@[simp] theorem State.presentNext_latencyDraws (s : State) (w : CmdWord) : (s.presentNext w).latencyDraws = s.latencyDraws := rfl
@[simp] theorem State.presentNext_nanDraws (s : State) (w : CmdWord) : (s.presentNext w).nanDraws = s.nanDraws := rfl
@[simp] theorem State.presentNext_inputs (s : State) (w : CmdWord) : (s.presentNext w).inputs = Pins.present w :: s.inputs := rfl
@[simp] theorem State.presentNext_delivered (s : State) (w : CmdWord) : (s.presentNext w).delivered = s.delivered ++ s.pending := rfl

/-! ## atomic -/

@[simp] theorem State.atomic_S (s : State) : (s.atomic).S = s.S := rfl
@[simp] theorem State.atomic_SEEDED (s : State) : (s.atomic).SEEDED = s.SEEDED := rfl
@[simp] theorem State.atomic_pending (s : State) : (s.atomic).pending = s.delivered ++ s.pending := rfl
@[simp] theorem State.atomic_held (s : State) : (s.atomic).held = none := rfl
@[simp] theorem State.atomic_cfg (s : State) : (s.atomic).cfg = s.cfg := rfl
@[simp] theorem State.atomic_source (s : State) : (s.atomic).source = s.source := rfl
@[simp] theorem State.atomic_wait (s : State) : (s.atomic).wait = 0 := rfl
@[simp] theorem State.atomic_latencyDraws (s : State) : (s.atomic).latencyDraws = 0 := rfl
@[simp] theorem State.atomic_nanDraws (s : State) : (s.atomic).nanDraws = s.nanDraws := rfl
@[simp] theorem State.atomic_inputs (s : State) : (s.atomic).inputs = [] := rfl
@[simp] theorem State.atomic_delivered (s : State) : (s.atomic).delivered = [] := rfl

/-! ## takeBeat: the beats move from `pending` to `delivered`, one at a time -/

@[simp] theorem State.takeBeat_S (s : State) : s.takeBeat.S = s.S := by
  unfold State.takeBeat; split <;> rfl
@[simp] theorem State.takeBeat_SEEDED (s : State) : s.takeBeat.SEEDED = s.SEEDED := by
  unfold State.takeBeat; split <;> rfl
@[simp] theorem State.takeBeat_held (s : State) : s.takeBeat.held = s.held := by
  unfold State.takeBeat; split <;> rfl
@[simp] theorem State.takeBeat_cfg (s : State) : s.takeBeat.cfg = s.cfg := by
  unfold State.takeBeat; split <;> rfl
@[simp] theorem State.takeBeat_source (s : State) : s.takeBeat.source = s.source := by
  unfold State.takeBeat; split <;> rfl
@[simp] theorem State.takeBeat_nanDraws (s : State) : s.takeBeat.nanDraws = s.nanDraws := by
  unfold State.takeBeat; split <;> rfl
@[simp] theorem State.takeBeat_inputs (s : State) : s.takeBeat.inputs = s.inputs := by
  unfold State.takeBeat; split <;> rfl
@[simp] theorem State.takeBeat_pending (s : State) : s.takeBeat.pending = s.pending.tail := by
  unfold State.takeBeat; split <;> simp_all
@[simp] theorem State.takeBeat_delivered (s : State) :
    s.takeBeat.delivered = s.delivered ++ s.pending.take 1 := by
  unfold State.takeBeat; split <;> simp_all

theorem State.takeBeat_stream (s : State) :
    s.takeBeat.delivered ++ s.takeBeat.pending = s.delivered ++ s.pending := by
  cases h : s.pending <;> simp [h]

/-! ## A state is the list of its fields -/

theorem State.ext_fields {s t : State} (hS : s.S = t.S) (hE : s.SEEDED = t.SEEDED) (hp : s.pending = t.pending)
    (hh : s.held = t.held) (hc : s.cfg = t.cfg) (hu : s.source = t.source)
    (hw : s.wait = t.wait) (hl : s.latencyDraws = t.latencyDraws)
    (hn : s.nanDraws = t.nanDraws) (hi : s.inputs = t.inputs) (hd : s.delivered = t.delivered) : s = t := by
  cases s; cases t; simp_all

end Sys2Proof.Machine
end

