-- ==== Sys2Proof/Laws/Ops.lean ====
section
/-! SUPPORT. One lemma per shared operation: what it can answer, and when it goes on. -/

namespace Sys2Proof

theorem packAll_length (src : Nat) (f : Flen) (k : Nat) (vs : List Flt) : (packAll src f k vs).length = vs.length := by
  induction vs generalizing k with
  | nil => rfl
  | cons v vs ih => simp [packAll, ih]

theorem packAll_getElem? (src : Nat) (f : Flen) (k : Nat) (vs : List Flt) (i : Nat) :
    (packAll src f k vs)[i]? = vs[i]?.map (packF f (Config.nanChoice src (k + i))) := by
  induction vs generalizing k i with
  | nil => simp [packAll]
  | cons v vs ih =>
    cases i with
    | zero => simp [packAll]
    | succ i =>
      simp only [packAll, List.getElem?_cons_succ, ih]
      rw [Nat.add_right_comm, Nat.add_assoc]

theorem packAll_append (src : Nat) (f : Flen) (k : Nat) (vs us : List Flt) :
    packAll src f k (vs ++ us) = packAll src f k vs ++ packAll src f (k + vs.length) us := by
  induction vs generalizing k with
  | nil => simp [packAll]
  | cons v vs ih =>
    simp only [packAll, List.cons_append, List.length_cons, ih]
    rw [Nat.add_assoc, Nat.add_comm 1]

namespace Machine

/-- Everything the head of a drawing command can answer with a next state: one of its two refusals, or what its
continuation answers on the state word. -/
theorem drawing_next {n : Int} {s t : State} {k : U64 → Host.Outcome State Fault Refusal} (h : drawing n s k = .next t) :
    (s.SEEDED = false ∧ t = s.raise .notSeeded) ∨
    (s.SEEDED = true ∧ n < 0 ∧ t = s.raise .invalidArgument) ∨
    (∃ w, s.SEEDED = true ∧ 0 ≤ n ∧ s.S = some w ∧ k w = .next t) := by
  unfold drawing at h
  split_ifs at h with hs hn
  · exact .inr (.inl ⟨hs, hn, by simpa using h.symm⟩)
  · cases hS : s.S with
    | none => simp [hS] at h
    | some w => exact .inr (.inr ⟨w, hs, by omega, rfl, by simpa [hS] using h⟩)
  · exact .inl ⟨by simpa using hs, by simpa using h.symm⟩

/-- A seeded block with a count that is not negative goes on with its state word. -/
theorem drawing_run {n : Int} {s : State} {w : U64} (hs : s.SEEDED = true) (hn : 0 ≤ n) (hS : s.S = some w)
    (k : U64 → Host.Outcome State Fault Refusal) : drawing n s k = k w := by
  simp [drawing, hs, hS, Int.not_lt.2 hn]

theorem drawing_notSeeded {s : State} (hs : s.SEEDED = false) (n : Int) (k : U64 → Host.Outcome State Fault Refusal) :
    drawing n s k = .next (s.raise .notSeeded) := by
  simp [drawing, hs]

theorem drawing_negative {n : Int} {s : State} (hs : s.SEEDED = true) (hn : n < 0)
    (k : U64 → Host.Outcome State Fault Refusal) : drawing n s k = .next (s.raise .invalidArgument) := by
  simp [drawing, hs, hn]

/-- A batch length is negative exactly when `N[31] = 1` (R162). -/
theorem batchLength_neg (n : U32) : batchLength n < 0 ↔ n.msb = true := by
  unfold batchLength
  rw [BitVec.toInt_eq_msb_cond]
  have := n.isLt
  split_ifs with h
  · simp [h]; omega
  · simp [h]

theorem batchLength_toNat {n : U32} (h : 0 ≤ batchLength n) : (batchLength n).toNat = n.toNat := by
  unfold batchLength at *
  rw [BitVec.toInt_eq_msb_cond] at *
  have := n.isLt
  split_ifs at * with h'
  · omega
  · simp

/-- `DOM` of a list of operands given by index: 1 exactly when some operand is not greater than zero (R136). -/
theorem domOf_map_range (g : Nat → Flt) (n : Nat) :
    domOf ((List.range n).map g) = true ↔ ∃ j, j < n ∧ (g j).gtZero = false := by
  unfold domOf
  rw [List.any_map, List.any_eq_true]
  constructor
  · rintro ⟨j, hj, h⟩
    exact ⟨j, List.mem_range.1 hj, by simpa using h⟩
  · rintro ⟨j, hj, h⟩
    exact ⟨j, List.mem_range.2 hj, by simpa using h⟩

theorem domOf_nil : domOf [] = false := rfl

theorem domOf_cons (u : Flt) (us : List Flt) : domOf (u :: us) = (!u.gtZero || domOf us) := rfl

end Machine

end Sys2Proof
end

