-- ==== Sys2Proof/Laws/Batch.lean ====
section
/-! SUPPORT. What the two batch loops yield: how many values, from which draws, and the word they leave. -/

namespace Sys2Proof.Machine

/-! ## The stream -/

@[simp] theorem nextIter_zero (w : U64) : nextIter 0 w = w := rfl

theorem nextIter_succ (k : Nat) (w : U64) : nextIter (k + 1) w = nextIter k (nextWord w) := rfl

theorem nextIter_succ' (k : Nat) (w : U64) : nextIter (k + 1) w = nextWord (nextIter k w) :=
  Function.iterate_succ_apply' nextWord k w

theorem nextIter_add (a b : Nat) (w : U64) : nextIter (a + b) w = nextIter b (nextIter a w) := by
  unfold nextIter
  rw [Nat.add_comm, Function.iterate_add_apply]

theorem drawAt_add (a b : Nat) (w : U64) : drawAt (a + b) w = drawAt b (nextIter a w) := by
  unfold drawAt
  rw [Nat.add_assoc, nextIter_add]

theorem uniformAt_add (f : Flen) (a b : Nat) (w : U64) : uniformAt f (a + b) w = uniformAt f b (nextIter a w) := by
  unfold uniformAt
  rw [drawAt_add]

theorem uniformFloat_eq (f : Flen) (w : U64) : uniformFloat f w = (uniformAt f 0 w, nextIter 1 w) := rfl

/-! ## The uniform batch (R118) -/

theorem uniformBatch_word (f : Flen) (low high : Flt) (n : Nat) (w : U64) :
    (uniformBatch f low high n w).2 = nextIter n w := by
  induction n generalizing w with
  | zero => rfl
  | succ n ih => simp only [uniformBatch, ih, uniformFloat_eq, Nat.add_comm n 1, nextIter_add]

theorem uniformBatch_length (f : Flen) (low high : Flt) (n : Nat) (w : U64) :
    (uniformBatch f low high n w).1.length = n := by
  induction n generalizing w with
  | zero => rfl
  | succ n ih => simp only [uniformBatch, List.length_cons, ih]

/-- Value `i` of the batch comes from draw `i` and no other (R119). -/
theorem uniformBatch_getElem? (f : Flen) (low high : Flt) (n : Nat) (w : U64) {i : Nat} (hi : i < n) :
    (uniformBatch f low high n w).1[i]? = some (affineMap f (uniformAt f i w) low high) := by
  induction n generalizing w i with
  | zero => omega
  | succ n ih =>
    cases i with
    | zero => simp [uniformBatch, uniformFloat_eq]
    | succ i =>
      simp only [uniformBatch, List.getElem?_cons_succ, uniformFloat_eq]
      rw [ih _ (by omega), Nat.add_comm i 1, uniformAt_add]

theorem uniformBatch_add (f : Flen) (low high : Flt) (a b : Nat) (w : U64) :
    (uniformBatch f low high (a + b) w).1 =
      (uniformBatch f low high a w).1 ++ (uniformBatch f low high b (nextIter a w)).1 := by
  induction a generalizing w with
  | zero => simp [uniformBatch]
  | succ a ih =>
    rw [Nat.add_right_comm]
    simp only [uniformBatch, ih, uniformFloat_eq, List.cons_append, ← nextIter_add, Nat.add_comm 1 a]

/-! ## The normal batch (R139) -/

theorem normalBatch_word (E : ElemFns) (f : Flen) (mu sigma : Flt) (p left : Nat) (w : U64) :
    (normalBatch E f mu sigma p left w).word = nextIter (2 * p) w := by
  induction p generalizing left w with
  | zero => rfl
  | succ p ih =>
    simp only [normalBatch, ih, uniformFloat_eq, ← nextIter_add]
    congr 1
    omega

/-- The first operands of the transforms: the even draws (R139, R142). -/
theorem normalBatch_u1s (E : ElemFns) (f : Flen) (mu sigma : Flt) (p left : Nat) (w : U64) :
    (normalBatch E f mu sigma p left w).u1s = (List.range p).map (fun j => uniformAt f (2 * j) w) := by
  induction p generalizing left w with
  | zero => rfl
  | succ p ih =>
    simp only [normalBatch, ih, uniformFloat_eq, List.range_succ_eq_map, List.map_cons, List.map_map]
    refine congrArg₂ _ rfl (List.map_congr_left fun j _ => ?_)
    simp only [Function.comp_apply, ← nextIter_add, ← uniformAt_add]
    congr 1
    omega

theorem normalBatch_length (E : ElemFns) (f : Flen) (mu sigma : Flt) (p left : Nat) (w : U64)
    (h : p = pairCount left) : (normalBatch E f mu sigma p left w).values.length = left := by
  induction p generalizing left w with
  | zero =>
    simp only [pairCount] at h
    simp only [normalBatch, List.length_nil]
    omega
  | succ p ih =>
    simp only [pairCount] at *
    simp only [normalBatch, List.length_append, pairValues]
    rw [ih (left - 2) _ (by omega)]
    split_ifs <;> simp <;> omega

theorem normalAt_add_two (E : ElemFns) (f : Flen) (mu sigma : Flt) (i : Nat) (w : U64) :
    normalAt E f mu sigma (i + 2) w = normalAt E f mu sigma i (nextIter 2 w) := by
  have h1 : 2 * ((i + 2) / 2) = 2 + 2 * (i / 2) := by omega
  have h2 : (i + 2) % 2 = i % 2 := by omega
  simp only [normalAt, h1, h2, Nat.add_assoc, uniformAt_add]

theorem normalBatch_getElem? (E : ElemFns) (f : Flen) (mu sigma : Flt) (p left : Nat) (w : U64)
    (h : p = pairCount left) {i : Nat} (hi : i < left) :
    (normalBatch E f mu sigma p left w).values[i]? = some (normalAt E f mu sigma i w) := by
  induction p generalizing left w i with
  | zero => simp only [pairCount] at h; omega
  | succ p ih =>
    simp only [pairCount] at *
    have ih' := fun i (hi : i < left - 2) => ih (left - 2) (nextIter 2 w) (by omega) (i := i) hi
    simp only [normalBatch, uniformFloat_eq, ← nextIter_add, ← uniformAt_add]
    match i with
    | 0 => simp only [pairValues]; split_ifs <;> simp [normalAt]
    | 1 => simp [pairValues, show 2 ≤ left by omega, normalAt]
    | i + 2 =>
      rw [normalAt_add_two, ← ih' i (by omega)]
      simp [pairValues, show 2 ≤ left by omega]

end Sys2Proof.Machine
end

