-- ==== Sys2Proof/Laws/Encoding.lean ====
section
/-! SUPPORT. The fields of an assembled word, and the opcode map read both ways. -/

namespace Sys2Proof

/-! ## Fields of an assembled word (R61) -/

@[simp] theorem assemble_op (op : BitVec 8) (rsv : BitVec 24) (n : U32) (a b : U64) :
    (assemble op rsv n a b).op = op := by
  unfold assemble CmdWord.op
  exact BitVec.extractLsb'_append_eq_right

@[simp] theorem assemble_rsv (op : BitVec 8) (rsv : BitVec 24) (n : U32) (a b : U64) :
    (assemble op rsv n a b).rsv = rsv := by
  unfold assemble CmdWord.rsv
  rw [BitVec.extractLsb'_append_eq_of_le (by omega)]
  exact BitVec.extractLsb'_append_eq_right

@[simp] theorem assemble_n (op : BitVec 8) (rsv : BitVec 24) (n : U32) (a b : U64) :
    (assemble op rsv n a b).n = n := by
  unfold assemble CmdWord.n
  rw [BitVec.extractLsb'_append_eq_of_le (by omega), BitVec.extractLsb'_append_eq_of_le (by omega)]
  exact BitVec.extractLsb'_append_eq_right

@[simp] theorem assemble_a (op : BitVec 8) (rsv : BitVec 24) (n : U32) (a b : U64) :
    (assemble op rsv n a b).a = a := by
  unfold assemble CmdWord.a
  rw [BitVec.extractLsb'_append_eq_of_le (by omega), BitVec.extractLsb'_append_eq_of_le (by omega),
    BitVec.extractLsb'_append_eq_of_le (by omega)]
  exact BitVec.extractLsb'_append_eq_right

@[simp] theorem assemble_b (op : BitVec 8) (rsv : BitVec 24) (n : U32) (a b : U64) :
    (assemble op rsv n a b).b = b := by
  unfold assemble CmdWord.b
  rw [BitVec.extractLsb'_append_eq_of_le (by omega), BitVec.extractLsb'_append_eq_of_le (by omega),
    BitVec.extractLsb'_append_eq_of_le (by omega), BitVec.extractLsb'_append_eq_of_le (by omega)]
  simp

/-- A word is its five fields. -/
theorem assemble_fields (w : CmdWord) : assemble w.op w.rsv w.n w.a w.b = w := by
  unfold assemble CmdWord.op CmdWord.rsv CmdWord.n CmdWord.a CmdWord.b
  apply BitVec.eq_of_getLsbD_eq
  intro i hi
  simp only [BitVec.getLsbD_append, BitVec.getLsbD_extractLsb']
  by_cases h1 : i < 8
  · simp [h1]
  by_cases h2 : i - 8 < 24
  · have e : 8 + (i - 8) = i := by omega
    simp [h1, h2, e]
  by_cases h3 : i - 8 - 24 < 32
  · have e : 32 + (i - 8 - 24) = i := by omega
    simp [h1, h2, h3, e]
  by_cases h4 : i - 8 - 24 - 32 < 64
  · have e : 64 + (i - 8 - 24 - 32) = i := by omega
    simp [h1, h2, h3, h4, e]
  · have e : 128 + (i - 8 - 24 - 32 - 64) = i := by omega
    have e2 : i - 8 - 24 - 32 - 64 < 64 := by omega
    simp [h1, h2, h3, h4, e, e2]

/-- Two words are equal exactly when their fields are. -/
theorem assemble_inj {op op' : BitVec 8} {rsv rsv' : BitVec 24} {n n' : U32} {a a' b b' : U64} :
    assemble op rsv n a b = assemble op' rsv' n' a' b' ↔ op = op' ∧ rsv = rsv' ∧ n = n' ∧ a = a' ∧ b = b' := by
  refine ⟨fun h => ⟨?_, ?_, ?_, ?_, ?_⟩, by rintro ⟨rfl, rfl, rfl, rfl, rfl⟩; rfl⟩
  · simpa using congrArg CmdWord.op h
  · simpa using congrArg CmdWord.rsv h
  · simpa using congrArg CmdWord.n h
  · simpa using congrArg CmdWord.a h
  · simpa using congrArg CmdWord.b h

/-- Masking a word masks its fields. -/
theorem assemble_and (op op' : BitVec 8) (rsv rsv' : BitVec 24) (n n' : U32) (a a' b b' : U64) :
    assemble op rsv n a b &&& assemble op' rsv' n' a' b' =
      assemble (op &&& op') (rsv &&& rsv') (n &&& n') (a &&& a') (b &&& b') := by
  unfold assemble
  apply BitVec.eq_of_getLsbD_eq
  intro i hi
  simp only [BitVec.getLsbD_and, BitVec.getLsbD_append]
  split_ifs <;> rfl

/-! ## The opcode map (R62, R67) -/

theorem opcodeOfCode_code (o : Opcode) : opcodeOfCode o.code = some o := by cases o <;> rfl

theorem code_of_opcodeOfCode {c : BitVec 8} {o : Opcode} (h : opcodeOfCode c = some o) : c = o.code := by
  unfold opcodeOfCode at h
  split at h <;> simp at h <;> subst h <;> apply BitVec.eq_of_toNat_eq <;> simp_all [Opcode.code]

/-- The reserved codes are 0x00 and 0x07 to 0xFF. -/
theorem opcodeOfCode_none (c : BitVec 8) : opcodeOfCode c = none ↔ c.toNat = 0 ∨ 7 ≤ c.toNat := by
  unfold opcodeOfCode
  split <;> simp_all
  omega

end Sys2Proof
end

