-- ==== Sys2Proof/Laws/Exec.lean ====
section
/-! SUPPORT. What a command can do, said once: the fields no command writes, and what an answered command leaves in
each of the others. -/

namespace Sys2Proof.Machine

/-- The fields no command writes (R25; the ports' fields are the step's). -/
def KeepsPorts (s t : State) : Prop :=
  t.held = s.held ∧ t.cfg = s.cfg ∧ t.source = s.source ∧ t.wait = s.wait ∧ t.latencyDraws = s.latencyDraws ∧
    t.inputs = s.inputs ∧ t.delivered = s.delivered

theorem keepsPorts_raise (s : State) (e : Status) : KeepsPorts s (s.raise e) := ⟨rfl, rfl, rfl, rfl, rfl, rfl, rfl⟩

theorem execSeed_next (v : U64) (s : State) :
    execSeed v s = .next (((s.setS v).setSeeded).complete .ok false 0) := rfl

/-- Everything `NEXTU32` can answer. -/
theorem execNextu32_next {s t : State} (h : execNextu32 s = .next t) :
    (s.SEEDED = false ∧ t = s.raise .notSeeded) ∨
    (∃ w, s.SEEDED = true ∧ s.S = some w ∧
      t = ((s.setS (nextIter 1 w)).emit [(drawAt 0 w).setWidth 64]).complete .ok false 1) := by
  rcases drawing_next h with h | ⟨_, h, _⟩ | ⟨w, hs, _, hS, hk⟩
  · exact .inl h
  · omega
  · exact .inr ⟨w, hs, hS, by simpa [drawU32, nextIter, drawAt] using hk.symm⟩

/-- Everything `NEXTUF` can answer. -/
theorem execNextuf_next {s t : State} (h : execNextuf s = .next t) :
    (s.SEEDED = false ∧ t = s.raise .notSeeded) ∨
    (∃ w, s.SEEDED = true ∧ s.S = some w ∧
      t = ((s.setS (nextIter 1 w)).emitFloats [uniformAt s.cfg.flen 0 w]).complete .ok false 1) := by
  rcases drawing_next h with h | ⟨_, h, _⟩ | ⟨w, hs, _, hS, hk⟩
  · exact .inl h
  · omega
  · exact .inr ⟨w, hs, hS, by simpa [uniformFloat_eq] using hk.symm⟩

/-- Everything `UNIFB` can answer. -/
theorem execUnifb_next {n : U32} {low high : U64} {s t : State} (h : execUnifb n low high s = .next t) :
    (s.SEEDED = false ∧ t = s.raise .notSeeded) ∨
    (s.SEEDED = true ∧ batchLength n < 0 ∧ t = s.raise .invalidArgument) ∨
    (∃ w, s.SEEDED = true ∧ 0 ≤ batchLength n ∧ s.S = some w ∧
      t = ((s.setS (nextIter (batchLength n).toNat w)).emitFloats
        (uniformBatch s.cfg.flen (unpackF s.cfg.flen low) (unpackF s.cfg.flen high) (batchLength n).toNat w).1).complete
          .ok false n) := by
  rcases drawing_next h with h | h | ⟨w, hs, hn, hS, hk⟩
  · exact .inl h
  · exact .inr (.inl h)
  · refine .inr (.inr ⟨w, hs, hn, hS, ?_⟩)
    simp only [uniformBatch_word] at hk
    simpa using hk.symm

/-- What `BMXF` answers, always. -/
theorem runBmxf_next (E : ElemFns) (u1 u2 : U64) (s : State) :
    runBmxf E u1 u2 s =
      .next ((s.emitFloats [(transform E s.cfg.flen (unpackF s.cfg.flen u1) (unpackF s.cfg.flen u2)).1,
        (transform E s.cfg.flen (unpackF s.cfg.flen u1) (unpackF s.cfg.flen u2)).2]).complete .ok
          (domOf [unpackF s.cfg.flen u1]) 2) := rfl

/-- Everything `NORMB` can answer. -/
theorem runNormb_next {E : ElemFns} {n : U32} {mu sigma : U64} {s t : State} (h : runNormb E n mu sigma s = .next t) :
    (s.SEEDED = false ∧ t = s.raise .notSeeded) ∨
    (s.SEEDED = true ∧ batchLength n < 0 ∧ t = s.raise .invalidArgument) ∨
    (∃ w, s.SEEDED = true ∧ 0 ≤ batchLength n ∧ s.S = some w ∧
      t = ((s.setS (nextIter (2 * pairCount (batchLength n).toNat) w)).emitFloats
        (normalBatch E s.cfg.flen (unpackF s.cfg.flen mu) (unpackF s.cfg.flen sigma) (pairCount (batchLength n).toNat)
          (batchLength n).toNat w).values).complete .ok
          (domOf ((List.range (pairCount (batchLength n).toNat)).map (fun j => uniformAt s.cfg.flen (2 * j) w))) n) := by
  rcases drawing_next h with h | h | ⟨w, hs, hn, hS, hk⟩
  · exact .inl h
  · exact .inr (.inl h)
  · refine .inr (.inr ⟨w, hs, hn, hS, ?_⟩)
    simp only [normalBatch_word, normalBatch_u1s] at hk
    simpa using hk.symm

/-- No command writes the fields of the ports. -/
theorem exec_keepsPorts {i : Instr} {s t : State} (h : exec i s = .next t) : KeepsPorts s t := by
  cases i with
  | seed v =>
    cases h
    exact ⟨rfl, rfl, rfl, rfl, rfl, rfl, rfl⟩
  | nextu32 =>
    obtain ⟨_, rfl⟩ | ⟨w, _, _, rfl⟩ := execNextu32_next h
    · exact keepsPorts_raise s _
    · exact ⟨rfl, rfl, rfl, rfl, rfl, rfl, rfl⟩
  | nextuf =>
    obtain ⟨_, rfl⟩ | ⟨w, _, _, rfl⟩ := execNextuf_next h
    · exact keepsPorts_raise s _
    · exact ⟨rfl, rfl, rfl, rfl, rfl, rfl, rfl⟩
  | unifb n low high =>
    obtain ⟨_, rfl⟩ | ⟨_, _, rfl⟩ | ⟨w, _, _, _, rfl⟩ := execUnifb_next h
    · exact keepsPorts_raise s _
    · exact keepsPorts_raise s _
    · exact ⟨rfl, rfl, rfl, rfl, rfl, rfl, rfl⟩
  | bmxf u1 u2 =>
    cases h
    exact ⟨rfl, rfl, rfl, rfl, rfl, rfl, rfl⟩
  | normb n mu sigma =>
    obtain ⟨_, rfl⟩ | ⟨_, _, rfl⟩ | ⟨w, _, _, _, rfl⟩ := runNormb_next h
    · exact keepsPorts_raise s _
    · exact keepsPorts_raise s _
    · exact ⟨rfl, rfl, rfl, rfl, rfl, rfl, rfl⟩

/-- A command only adds beats. -/
theorem exec_extends {i : Instr} {s t : State} (h : exec i s = .next t) : ∃ bs, t.pending = s.pending ++ bs := by
  cases i with
  | seed v =>
    cases h
    exact ⟨_, rfl⟩
  | nextu32 =>
    obtain ⟨_, rfl⟩ | ⟨w, _, _, rfl⟩ := execNextu32_next h
    · exact ⟨_, rfl⟩
    · exact ⟨_, by simp only [State.complete_pending, State.emit_pending, List.append_assoc]; rfl⟩
  | nextuf =>
    obtain ⟨_, rfl⟩ | ⟨w, _, _, rfl⟩ := execNextuf_next h
    · exact ⟨_, rfl⟩
    · exact ⟨_, by simp only [State.complete_pending, State.emitFloats_pending, List.append_assoc]; rfl⟩
  | unifb n low high =>
    obtain ⟨_, rfl⟩ | ⟨_, _, rfl⟩ | ⟨w, _, _, _, rfl⟩ := execUnifb_next h
    · exact ⟨_, rfl⟩
    · exact ⟨_, rfl⟩
    · exact ⟨_, by simp only [State.complete_pending, State.emitFloats_pending, List.append_assoc]; rfl⟩
  | bmxf u1 u2 =>
    cases h
    exact ⟨_, by simp only [State.complete_pending, State.emitFloats_pending, List.append_assoc]; rfl⟩
  | normb n mu sigma =>
    obtain ⟨_, rfl⟩ | ⟨_, _, rfl⟩ | ⟨w, _, _, _, rfl⟩ := runNormb_next h
    · exact ⟨_, rfl⟩
    · exact ⟨_, rfl⟩
    · exact ⟨_, by simp only [State.complete_pending, State.emitFloats_pending, List.append_assoc]; rfl⟩

/-- An accepted word is answered by the command it spells or by the refusal of an illegal word. -/
theorem runWord_next {w : CmdWord} {s t : State} (h : runWord w s = .next t) :
    (∃ i, decode s.cfg.flen w = .ok i ∧ exec i s = .next t) ∨
    (∃ e, decode s.cfg.flen w = .error e ∧ t = s.raise .illegalCommand) := by
  unfold runWord at h
  split at h
  · exact .inl ⟨_, ‹_›, h⟩
  · exact .inr ⟨_, ‹_›, by simpa [refuseIllegal] using h.symm⟩

theorem runWord_keepsPorts {w : CmdWord} {s t : State} (h : runWord w s = .next t) : KeepsPorts s t := by
  obtain ⟨i, _, hi⟩ | ⟨e, _, rfl⟩ := runWord_next h
  · exact exec_keepsPorts hi
  · exact keepsPorts_raise s _

/-- A seeded `UNIFB` with a length that is not negative, in closed form. -/
theorem execUnifb_run {s : State} {n : U32} {x : U64} (low high : U64) (h1 : s.SEEDED = true) (h2 : s.S = some x)
    (hn : 0 ≤ batchLength n) :
    execUnifb n low high s =
      .next (((s.setS (nextIter (batchLength n).toNat x)).emitFloats
        (uniformBatch s.cfg.flen (unpackF s.cfg.flen low) (unpackF s.cfg.flen high) (batchLength n).toNat x).1).complete
          .ok false n) := by
  unfold execUnifb
  rw [drawing_run h1 hn h2]
  simp only [uniformBatch_word]

/-- A seeded `NORMB` with a length that is not negative, in closed form. -/
theorem runNormb_run {s : State} {n : U32} {x : U64} (E : ElemFns) (mu sigma : U64) (h1 : s.SEEDED = true)
    (h2 : s.S = some x) (hn : 0 ≤ batchLength n) :
    runNormb E n mu sigma s =
      .next (((s.setS (nextIter (2 * pairCount (batchLength n).toNat) x)).emitFloats
        (normalBatch E s.cfg.flen (unpackF s.cfg.flen mu) (unpackF s.cfg.flen sigma) (pairCount (batchLength n).toNat)
          (batchLength n).toNat x).values).complete .ok
          (domOf ((List.range (pairCount (batchLength n).toNat)).map (fun j => uniformAt s.cfg.flen (2 * j) x))) n) := by
  unfold runNormb
  rw [drawing_run h1 hn h2]
  simp only [normalBatch_word, normalBatch_u1s]

/-- A command reads `S`, `SEEDED`, the configuration, the source of choices and the counter of NaN choices, and nothing
else: two states that agree on these get the same new values and the same beats. -/
theorem exec_congr {i : Instr} {s s' t : State} (hS : s.S = s'.S) (hE : s.SEEDED = s'.SEEDED) (hc : s.cfg = s'.cfg)
    (hu : s.source = s'.source) (hn : s.nanDraws = s'.nanDraws) (h : exec i s = .next t) :
    ∃ bs, t.pending = s.pending ++ bs ∧ exec i s' =
      .next { s' with S := t.S, SEEDED := t.SEEDED, pending := s'.pending ++ bs, nanDraws := t.nanDraws } := by
  cases i with
  | seed v =>
    cases h
    refine ⟨[.completion .ok false 0], by simp, ?_⟩
    simp only [exec, execSeed_next]
    congr 1
    apply State.ext_fields <;> simp [hn]
  | nextu32 =>
    obtain ⟨h1, rfl⟩ | ⟨w, h1, h2, rfl⟩ := execNextu32_next h
    · refine ⟨_, rfl, ?_⟩
      simp only [exec, execNextu32]
      rw [drawing_notSeeded (by rw [← hE]; exact h1)]
      congr 1
      apply State.ext_fields <;> simp [*]
    · refine ⟨_, by simp only [State.complete_pending, State.emit_pending, State.setS_pending, List.append_assoc]; rfl, ?_⟩
      simp only [exec, execNextu32]
      rw [drawing_run (w := w) (by rw [← hE]; exact h1) (by decide) (by rw [← hS]; exact h2)]
      congr 1
      apply State.ext_fields <;> simp [*, drawU32, nextIter, drawAt]
  | nextuf =>
    obtain ⟨h1, rfl⟩ | ⟨w, h1, h2, rfl⟩ := execNextuf_next h
    · refine ⟨_, rfl, ?_⟩
      simp only [exec, execNextuf]
      rw [drawing_notSeeded (by rw [← hE]; exact h1)]
      congr 1
      apply State.ext_fields <;> simp [*]
    · refine ⟨_, by simp only [State.complete_pending, State.emitFloats_pending, State.setS_pending, List.append_assoc]; rfl, ?_⟩
      simp only [exec, execNextuf]
      rw [drawing_run (w := w) (by rw [← hE]; exact h1) (by decide) (by rw [← hS]; exact h2)]
      congr 1
      apply State.ext_fields <;> simp [← hE, ← hc, ← hu, ← hn, uniformFloat_eq]
  | unifb n low high =>
    obtain ⟨h1, rfl⟩ | ⟨h1, hneg, rfl⟩ | ⟨w, h1, hpos, h2, rfl⟩ := execUnifb_next h
    · refine ⟨_, rfl, ?_⟩
      simp only [exec, execUnifb]
      rw [drawing_notSeeded (by rw [← hE]; exact h1)]
      congr 1
      apply State.ext_fields <;> simp [hS, hE, hn]
    · refine ⟨_, rfl, ?_⟩
      simp only [exec, execUnifb]
      rw [drawing_negative (by rw [← hE]; exact h1) hneg]
      congr 1
      apply State.ext_fields <;> simp [hS, hE, hn]
    · refine ⟨_, by simp only [State.complete_pending, State.emitFloats_pending, State.setS_pending, List.append_assoc]; rfl, ?_⟩
      simp only [exec, execUnifb]
      rw [drawing_run (w := w) (by rw [← hE]; exact h1) hpos (by rw [← hS]; exact h2)]
      simp only [uniformBatch_word]
      congr 1
      apply State.ext_fields <;> simp [← hE, ← hc, ← hu, ← hn]
  | bmxf u1 u2 =>
    cases h
    refine ⟨_, by simp only [State.complete_pending, State.emitFloats_pending, List.append_assoc]; rfl, ?_⟩
    simp only [exec, execBmxf, runBmxf_next]
    congr 1
    apply State.ext_fields <;> simp [hS, hE, hc, hu, hn]
  | normb n mu sigma =>
    obtain ⟨h1, rfl⟩ | ⟨h1, hneg, rfl⟩ | ⟨w, h1, hpos, h2, rfl⟩ := runNormb_next h
    · refine ⟨_, rfl, ?_⟩
      simp only [exec, execNormb, runNormb]
      rw [drawing_notSeeded (by rw [← hE]; exact h1)]
      congr 1
      apply State.ext_fields <;> simp [hS, hE, hn]
    · refine ⟨_, rfl, ?_⟩
      simp only [exec, execNormb, runNormb]
      rw [drawing_negative (by rw [← hE]; exact h1) hneg]
      congr 1
      apply State.ext_fields <;> simp [hS, hE, hn]
    · refine ⟨_, by simp only [State.complete_pending, State.emitFloats_pending, State.setS_pending, List.append_assoc]; rfl, ?_⟩
      simp only [exec, execNormb, runNormb]
      rw [drawing_run (w := w) (by rw [← hE]; exact h1) hpos (by rw [← hS]; exact h2)]
      simp only [normalBatch_word, normalBatch_u1s]
      congr 1
      apply State.ext_fields <;> simp [← hE, ← hc, ← hu, ← hn]

theorem runWord_congr {w : CmdWord} {s s' t : State} (hS : s.S = s'.S) (hE : s.SEEDED = s'.SEEDED)
    (hc : s.cfg = s'.cfg) (hu : s.source = s'.source) (hn : s.nanDraws = s'.nanDraws) (h : runWord w s = .next t) :
    ∃ bs, t.pending = s.pending ++ bs ∧ runWord w s' =
      .next { s' with S := t.S, SEEDED := t.SEEDED, pending := s'.pending ++ bs, nanDraws := t.nanDraws } := by
  obtain ⟨i, hd, hi⟩ | ⟨e, hd, rfl⟩ := runWord_next h
  · obtain ⟨bs, h1, h2⟩ := exec_congr hS hE hc hu hn hi
    refine ⟨bs, h1, ?_⟩
    rw [hc] at hd
    unfold runWord
    rw [hd]
    exact h2
  · refine ⟨_, rfl, ?_⟩
    rw [hc] at hd
    unfold runWord
    rw [hd]
    simp only [refuseIllegal]
    congr 1
    apply State.ext_fields <;> simp [hS, hE, hn]

end Sys2Proof.Machine
end

