-- ==== Sys2Proof/Laws/Float.lean ====
section
/-! SUPPORT. What rounding can do: the nearest integer is between any two integers its argument is between, rounding is
monotonic, exact on numbers of the format, and gives only numbers of the format. -/

namespace Sys2Proof

/-! ## The nearest integer -/

theorem nearestEven_ge {k num den : Nat} (h : k * den ≤ num) (hd : 0 < den) : k ≤ nearestEven num den := by
  have hq : k ≤ num / den := (Nat.le_div_iff_mul_le hd).2 h
  simp only [nearestEven]
  split_ifs <;> omega

theorem nearestEven_le {k num den : Nat} (h : num ≤ k * den) (hd : 0 < den) : nearestEven num den ≤ k := by
  have hm : den * (num / den) + num % den = num := Nat.div_add_mod num den
  have hr : num % den < den := Nat.mod_lt _ hd
  have hq : num / den ≤ k := by
    calc num / den ≤ k * den / den := Nat.div_le_div_right h
      _ = k := Nat.mul_div_cancel k hd
  rcases Nat.lt_or_ge (num / den) k with hlt | hge
  · simp only [nearestEven]
    split_ifs <;> omega
  · have hk : num / den = k := Nat.le_antisymm hq hge
    have h0 : num % den = 0 := by
      rw [hk, Nat.mul_comm] at hm
      omega
    simp only [nearestEven, h0]
    split_ifs <;> omega

theorem nearestEven_exact (k : Nat) {den : Nat} (hd : 0 < den) : nearestEven (k * den) den = k :=
  Nat.le_antisymm (nearestEven_le (Nat.le_refl _) hd) (nearestEven_ge (Nat.le_refl _) hd)

theorem nearestEven_mono {a b den : Nat} (h : a ≤ b) : nearestEven a den ≤ nearestEven b den := by
  rcases Nat.eq_zero_or_pos den with rfl | hd
  · simp only [nearestEven, Nat.div_zero, Nat.mod_zero]
    split_ifs <;> omega
  have ha : den * (a / den) + a % den = a := Nat.div_add_mod a den
  have hb : den * (b / den) + b % den = b := Nat.div_add_mod b den
  have hr : a % den < den := Nat.mod_lt _ hd
  have hq : a / den ≤ b / den := Nat.div_le_div_right h
  rcases Nat.lt_or_ge (a / den) (b / den) with hlt | hge
  · simp only [nearestEven]
    split_ifs <;> omega
  · have he : a / den = b / den := Nat.le_antisymm hq hge
    have hm : a % den ≤ b % den := by
      rw [he] at ha
      omega
    simp only [nearestEven, he]
    split_ifs <;> omega

/-- The nearest integer is within half a denominator. -/
theorem nearestEven_half (num : Nat) {den : Nat} (hd : 0 < den) :
    2 * num ≤ (2 * nearestEven num den + 1) * den ∧ 2 * (nearestEven num den * den) ≤ 2 * num + den := by
  have hm : den * (num / den) + num % den = num := Nat.div_add_mod num den
  have hr : num % den < den := Nat.mod_lt _ hd
  simp only [nearestEven]
  generalize num / den = q at *
  generalize num % den = r at *
  have e1 : (2 * (q + 1) + 1) * den = 2 * (den * q) + 3 * den := by ring
  have e2 : (2 * q + 1) * den = 2 * (den * q) + den := by ring
  have e3 : 2 * ((q + 1) * den) = 2 * (den * q) + 2 * den := by ring
  have e4 : 2 * (q * den) = 2 * (den * q) := by ring
  split_ifs <;> simp only [e1, e2, e3, e4] <;> omega

/-! ## The spacing of a format -/

theorem Flen.quantumExp_mono (f : Flen) {a b : Nat} (h : a ≤ b) : f.quantumExp a ≤ f.quantumExp b := by
  unfold Flen.quantumExp
  rcases Nat.eq_zero_or_pos a with rfl | ha
  · simp
  · have : a.log2 ≤ b.log2 := (Nat.le_log2 (by omega)).2 (le_trans (Nat.log2_self_le (by omega)) h)
    omega

/-- Below `2 ^ (p + g)` the spacing is at most `2 ^ g`. -/
theorem Flen.quantumExp_le (f : Flen) {m g : Nat} (h : m < 2 ^ (f.fracBits + 1 + g)) : f.quantumExp m ≤ g := by
  unfold Flen.quantumExp
  rcases Nat.eq_zero_or_pos m with rfl | hm
  · simp
  · have : m.log2 < f.fracBits + 1 + g := (Nat.log2_lt (by omega)).2 h
    omega

/-- A value is below `2 ^ (p + g)` for its own spacing `2 ^ g`. -/
theorem Flen.lt_of_quantumExp (f : Flen) (t : Nat) : t < 2 ^ (f.fracBits + 1 + f.quantumExp t) := by
  rcases Nat.eq_zero_or_pos t with rfl | ht
  · exact Nat.two_pow_pos _
  · refine (Nat.log2_lt (by omega)).1 ?_
    unfold Flen.quantumExp
    omega

/-- Where the spacing exceeds one unit, the value is at least `2 ^ (p - 1)` spacings. -/
theorem Flen.le_of_quantumExp (f : Flen) {t : Nat} (h : 0 < f.quantumExp t) :
    2 ^ (f.fracBits + f.quantumExp t) ≤ t := by
  have ht : t ≠ 0 := by rintro rfl; simp [Flen.quantumExp] at h
  refine (Nat.le_log2 ht).1 ?_
  unfold Flen.quantumExp at *
  omega

theorem Flen.quantumExp_two_pow (f : Flen) (k : Nat) : 2 ^ f.quantumExp (2 ^ k) ∣ 2 ^ k := by
  apply Nat.pow_dvd_pow
  unfold Flen.quantumExp
  rw [Nat.log2_two_pow]
  omega

namespace Machine

theorem hasSpacing_zero (f : Flen) : hasSpacing f 0 := by simp [hasSpacing]

theorem hasSpacing_iff (f : Flen) (m : Nat) : hasSpacing f m ↔ 2 ^ f.quantumExp m ∣ m :=
  Iff.symm (Nat.dvd_iff_mod_eq_zero)

/-- A count of spacings up to `2 ^ p` is a number with the format's spacing. -/
theorem hasSpacing_mul_two_pow (f : Flen) {q g : Nat} (hq : q ≤ 2 ^ (f.fracBits + 1)) : hasSpacing f (q * 2 ^ g) := by
  rw [hasSpacing_iff]
  rcases Nat.lt_or_ge q (2 ^ (f.fracBits + 1)) with h | h
  · refine Dvd.dvd.mul_left (Nat.pow_dvd_pow 2 (f.quantumExp_le ?_)) q
    rw [Nat.pow_add]
    exact Nat.mul_lt_mul_of_pos_right h (Nat.two_pow_pos g)
  · rw [Nat.le_antisymm hq h, ← Nat.pow_add]
    exact f.quantumExp_two_pow _

theorem representable_fin (f : Flen) (neg : Bool) (m : Nat) :
    (Flt.fin neg m).representable f = true ↔ m < f.overflowMag ∧ hasSpacing f m := by
  simp [Flt.representable, hasSpacing]

end Machine

/-! ## Rounding a magnitude -/

open Machine

/-- The rounded magnitude is a count of at most `2 ^ p` spacings. -/
theorem roundMag_count (f : Flen) (num : Nat) {den : Nat} (hd : 0 < den) :
    nearestEven num (den * 2 ^ f.quantumExp (num / den)) ≤ 2 ^ (f.fracBits + 1) := by
  apply nearestEven_le _ (Nat.mul_pos hd (Nat.two_pow_pos _))
  have h1 : num < den * (num / den + 1) := by
    have := Nat.lt_mul_div_succ num hd
    simpa using this
  have h2 : num / den + 1 ≤ 2 ^ (f.fracBits + 1 + f.quantumExp (num / den)) := f.lt_of_quantumExp _
  calc num ≤ den * (num / den + 1) := h1.le
    _ ≤ den * 2 ^ (f.fracBits + 1 + f.quantumExp (num / den)) := Nat.mul_le_mul_left _ h2
    _ = 2 ^ (f.fracBits + 1) * (den * 2 ^ f.quantumExp (num / den)) := by rw [Nat.pow_add]; ring

theorem roundMag_hasSpacing (f : Flen) (num : Nat) {den : Nat} (hd : 0 < den) : hasSpacing f (roundMag f num den) :=
  hasSpacing_mul_two_pow f (roundMag_count f num hd)

/-- A number with the format's spacing that the exact value does not exceed is not exceeded by its rounding. -/
theorem roundMag_le (f : Flen) {k num den : Nat} (hk : hasSpacing f k) (h : num ≤ k * den) (hd : 0 < den) :
    roundMag f num den ≤ k := by
  unfold roundMag
  set g := f.quantumExp (num / den) with hg
  have hle : num / den ≤ k := Nat.div_le_of_le_mul (by rwa [Nat.mul_comm])
  have hdvd : 2 ^ g ∣ k := Dvd.dvd.trans (Nat.pow_dvd_pow 2 (f.quantumExp_mono hle)) ((hasSpacing_iff f k).1 hk)
  obtain ⟨c, rfl⟩ := hdvd
  rw [Nat.mul_comm (2 ^ g) c]
  refine Nat.mul_le_mul_right _ (nearestEven_le ?_ (Nat.mul_pos hd (Nat.two_pow_pos _)))
  calc num ≤ 2 ^ g * c * den := h
    _ = c * (den * 2 ^ g) := by ring

/-- A number with the format's spacing that is at most the exact value is at most its rounding. -/
theorem roundMag_ge (f : Flen) {k num den : Nat} (hk : hasSpacing f k) (h : k * den ≤ num) (hd : 0 < den) :
    k ≤ roundMag f num den := by
  unfold roundMag
  set g := f.quantumExp (num / den) with hg
  have hle : k ≤ num / den := (Nat.le_div_iff_mul_le hd).2 h
  have hpos : 0 < den * 2 ^ g := Nat.mul_pos hd (Nat.two_pow_pos _)
  rcases Nat.lt_or_ge (f.quantumExp k) g with hlt | hge
  · -- the exact value lies in a coarser binade: its least number separates the two
    have hb : 2 ^ (f.fracBits + g) ≤ num / den := by
      rw [hg]
      exact f.le_of_quantumExp (by omega)
    have hkb : k ≤ 2 ^ (f.fracBits + g) := by
      have h1 := f.lt_of_quantumExp k
      have h2 : 2 ^ (f.fracBits + 1 + f.quantumExp k) ≤ 2 ^ (f.fracBits + g) :=
        Nat.pow_le_pow_right (by omega) (by omega)
      omega
    refine hkb.trans ?_
    rw [Nat.pow_add]
    refine Nat.mul_le_mul_right _ (nearestEven_ge ?_ hpos)
    calc 2 ^ f.fracBits * (den * 2 ^ g) = 2 ^ (f.fracBits + g) * den := by rw [Nat.pow_add]; ring
      _ ≤ num / den * den := Nat.mul_le_mul_right _ hb
      _ ≤ num := Nat.div_mul_le_self num den
  · have hdvd : 2 ^ g ∣ k := Dvd.dvd.trans (Nat.pow_dvd_pow 2 hge) ((hasSpacing_iff f k).1 hk)
    obtain ⟨c, rfl⟩ := hdvd
    rw [Nat.mul_comm (2 ^ g) c]
    refine Nat.mul_le_mul_right _ (nearestEven_ge ?_ hpos)
    calc c * (den * 2 ^ g) = 2 ^ g * c * den := by ring
      _ ≤ num := h

/-- Rounding is exact on numbers with the format's spacing. -/
theorem roundMag_exact (f : Flen) {k den : Nat} (hk : hasSpacing f k) (hd : 0 < den) :
    roundMag f (k * den) den = k :=
  Nat.le_antisymm (roundMag_le f hk (Nat.le_refl _) hd) (roundMag_ge f hk (Nat.le_refl _) hd)

theorem roundMag_mono (f : Flen) {a b den : Nat} (h : a ≤ b) (hd : 0 < den) : roundMag f a den ≤ roundMag f b den := by
  have hs := roundMag_hasSpacing f b hd
  rcases Nat.lt_or_ge (f.quantumExp (a / den)) (f.quantumExp (b / den)) with hlt | hge
  · have hb : 2 ^ (f.fracBits + f.quantumExp (b / den)) ≤ b / den := f.le_of_quantumExp (by omega)
    have ha : a / den < 2 ^ (f.fracBits + f.quantumExp (b / den)) :=
      lt_of_lt_of_le (f.lt_of_quantumExp _) (Nat.pow_le_pow_right (by omega) (by omega))
    have hsp : hasSpacing f (2 ^ (f.fracBits + f.quantumExp (b / den))) := by
      rw [hasSpacing_iff]; exact f.quantumExp_two_pow _
    have ha' : a ≤ 2 ^ (f.fracBits + f.quantumExp (b / den)) * den := by
      have := Nat.lt_mul_div_succ a hd
      calc a ≤ den * (a / den + 1) := by simpa using this.le
        _ ≤ den * 2 ^ (f.fracBits + f.quantumExp (b / den)) := Nat.mul_le_mul_left _ ha
        _ = _ := Nat.mul_comm _ _
    have hb' : 2 ^ (f.fracBits + f.quantumExp (b / den)) * den ≤ b :=
      (Nat.mul_le_mul_right _ hb).trans (Nat.div_mul_le_self b den)
    exact (roundMag_le f hsp ha' hd).trans (roundMag_ge f hsp hb' hd)
  · have hq : f.quantumExp (a / den) = f.quantumExp (b / den) :=
      Nat.le_antisymm (f.quantumExp_mono (Nat.div_le_div_right h)) hge
    unfold roundMag
    rw [hq]
    exact Nat.mul_le_mul_right _ (nearestEven_mono h)

/-! ## Rounding to a value -/

/-- `roundToF` gives a number of the format. -/
theorem roundToF_representable (f : Flen) (neg : Bool) (num : Nat) {den : Nat} (hd : 0 < den) :
    (roundToF f neg num den).representable f = true := by
  unfold roundToF
  simp only
  split_ifs with h
  · exact (representable_fin f neg _).2 ⟨h, roundMag_hasSpacing f num hd⟩
  · rfl

/-- `roundToF` is exact on finite numbers of the format. -/
theorem roundToF_exact (f : Flen) (neg : Bool) {k den : Nat} (hk : (Flt.fin neg k).representable f = true)
    (hd : 0 < den) : roundToF f neg (k * den) den = .fin neg k := by
  obtain ⟨hlt, hsp⟩ := (representable_fin f neg k).1 hk
  unfold roundToF
  simp only [roundMag_exact f hsp hd, if_pos hlt]

theorem roundToF_ne_nan (f : Flen) (neg : Bool) (num den : Nat) : roundToF f neg num den ≠ .nan := by
  unfold roundToF
  simp only
  split_ifs <;> simp

theorem roundToF_sign (f : Flen) (neg : Bool) (num den : Nat) : signOf (roundToF f neg num den) = neg := by
  unfold roundToF
  simp only
  split_ifs <;> rfl

/-! ## The integer square root -/

theorem isqrtBits_spec (n : Nat) : ∀ k r, r * r ≤ n → n < (r + 2 ^ k) * (r + 2 ^ k) →
    isqrtBits n k r * isqrtBits n k r ≤ n ∧ n < (isqrtBits n k r + 1) * (isqrtBits n k r + 1)
  | 0, r, h1, h2 => ⟨h1, by simpa [isqrtBits] using h2⟩
  | k + 1, r, h1, h2 => by
    unfold isqrtBits
    split_ifs with h
    · exact isqrtBits_spec n k _ h (by rw [Nat.add_assoc, ← Nat.mul_two, ← Nat.pow_succ]; exact h2)
    · exact isqrtBits_spec n k _ h1 (Nat.not_le.1 h)

theorem isqrt_spec {n : Nat} (hn : n ≠ 0) : isqrt n * isqrt n ≤ n ∧ n < (isqrt n + 1) * (isqrt n + 1) := by
  unfold isqrt
  apply isqrtBits_spec n _ 0 (by omega)
  rw [Nat.zero_add, ← Nat.pow_add]
  exact (Nat.log2_lt hn).1 (by omega)

/-! ## The constants -/

theorem Flen.oneMag_pos (f : Flen) : 0 < f.oneMag := Nat.two_pow_pos _

theorem hasSpacing_two_pow (f : Flen) (k : Nat) : hasSpacing f (2 ^ k) :=
  (hasSpacing_iff f _).2 (f.quantumExp_two_pow k)

end Sys2Proof
end

