-- ==== Sys2Proof/Laws/Operands.lean ====
section
/-! SUPPORT. Packing and unpacking magnitudes and encodings: each undoes the other. -/

namespace Sys2Proof

open Machine

/-- The magnitude of an encoding that is no infinity and no NaN is a number of the format. -/
theorem magOfBits_representable (f : Flen) (e : Nat) (h : e / 2 ^ f.fracBits < f.expOnes) :
    magOfBits f e < f.overflowMag ∧ hasSpacing f (magOfBits f e) := by
  unfold magOfBits
  simp only
  have hlt : e % 2 ^ f.fracBits < 2 ^ f.fracBits := Nat.mod_lt _ (Nat.two_pow_pos _)
  split_ifs with h0
  · constructor
    · refine lt_of_lt_of_le hlt ?_
      unfold Flen.overflowMag
      apply Nat.pow_le_pow_right (by omega); cases f <;> decide
    · have := hasSpacing_mul_two_pow f (q := e % 2 ^ f.fracBits) (g := 0) (by rw [Nat.pow_succ]; omega)
      simpa using this
  · constructor
    · unfold Flen.overflowMag
      have : 2 ^ f.fracBits + e % 2 ^ f.fracBits < 2 ^ (f.fracBits+1) := by rw [Nat.pow_succ]; omega
      calc (2 ^ f.fracBits + e % 2 ^ f.fracBits) * 2 ^ (e/2 ^ f.fracBits - 1) < 2 ^ (f.fracBits+1) * 2 ^ (e/2 ^ f.fracBits - 1) := Nat.mul_lt_mul_of_pos_right this (Nat.two_pow_pos _)
        _ = 2 ^ (f.fracBits + 1 + (e/2 ^ f.fracBits - 1)) := by rw [← Nat.pow_add]
        _ ≤ 2 ^ (f.fracBits + f.expOnes - 1) := Nat.pow_le_pow_right (by omega) (by generalize e / 2 ^ f.fracBits = d at h h0; omega)
    · exact hasSpacing_mul_two_pow f (by rw [Nat.pow_succ]; omega)

/-- Packing a magnitude undoes unpacking one. -/
theorem bitsOfMag_magOfBits (f : Flen) (e : Nat) : bitsOfMag f (magOfBits f e) = e := by
  have hlt : e % 2 ^ f.fracBits < 2 ^ f.fracBits := Nat.mod_lt _ (Nat.two_pow_pos _)
  have hdm := Nat.div_add_mod e (2 ^ f.fracBits)
  unfold magOfBits bitsOfMag
  simp only
  by_cases h0 : e / 2 ^ f.fracBits = 0
  · rw [if_pos h0, if_pos hlt]; rw [h0] at hdm; omega
  rw [if_neg h0]
  split_ifs with h1
  · exfalso
    have : 2 ^ f.fracBits * 1 ≤ (2 ^ f.fracBits + e % 2 ^ f.fracBits) * 2 ^ (e/2 ^ f.fracBits-1) := Nat.mul_le_mul (by omega) (Nat.two_pow_pos _)
    rw [Nat.mul_one] at this
    exact absurd h1 (Nat.not_lt.2 this)
  · have hq : f.quantumExp ((2 ^ f.fracBits + e % 2 ^ f.fracBits) * 2 ^ (e/2 ^ f.fracBits-1)) = e/2 ^ f.fracBits-1 := by
      unfold Flen.quantumExp
      have : ((2 ^ f.fracBits + e % 2 ^ f.fracBits) * 2 ^ (e/2 ^ f.fracBits-1)).log2 = f.fracBits + (e/2 ^ f.fracBits-1) := by
        rw [Nat.log2_eq_iff (by positivity)]
        constructor
        · rw [Nat.pow_add]; exact Nat.mul_le_mul_right _ (by omega)
        · rw [Nat.add_right_comm, Nat.pow_add]; exact Nat.mul_lt_mul_of_pos_right (by rw [Nat.pow_succ]; omega) (Nat.two_pow_pos _)
      omega
    rw [hq, Nat.mul_div_cancel _ (Nat.two_pow_pos _)]
    have e1 : e/2 ^ f.fracBits - 1 + 1 = e/2 ^ f.fracBits := Nat.succ_pred_eq_of_ne_zero h0
    rw [e1, Nat.mul_comm]; omega

/-- Unpacking a magnitude undoes packing one, for a number of the format. -/
theorem magOfBits_bitsOfMag (f : Flen) (m : Nat) (h : hasSpacing f m) : magOfBits f (bitsOfMag f m) = m := by
  unfold bitsOfMag
  simp only
  split_ifs with h0
  · unfold magOfBits
    simp [Nat.div_eq_of_lt h0, Nat.mod_eq_of_lt h0]
  · set g := f.quantumExp m with hg
    have hm : m ≠ 0 := by rintro rfl; exact h0 (Nat.two_pow_pos _)
    have hlo : 2 ^ (f.fracBits + g) ≤ m := by
      rcases Nat.eq_zero_or_pos g with h1 | h1
      · rw [h1, Nat.add_zero]; omega
      · exact f.le_of_quantumExp (by omega)
    have hhi : m < 2 ^ (f.fracBits + 1 + g) := f.lt_of_quantumExp m
    obtain ⟨c, hc⟩ := (hasSpacing_iff f m).1 h
    rw [← hg] at hc
    have hdiv : m / 2 ^ g = c := by rw [hc, Nat.mul_div_cancel_left _ (Nat.two_pow_pos _)]
    rw [hdiv]
    have hc1 : 2 ^ f.fracBits ≤ c := by
      rw [hc, Nat.pow_add, Nat.mul_comm] at hlo
      exact Nat.le_of_mul_le_mul_left hlo (Nat.two_pow_pos _)
    have hc2 : c < 2 ^ f.fracBits + 2 ^ f.fracBits := by
      rw [hc, Nat.pow_add, Nat.mul_comm, Nat.pow_succ] at hhi
      have := Nat.lt_of_mul_lt_mul_right hhi
      omega
    unfold magOfBits
    have hmod : ((g+1) * 2 ^ f.fracBits + (c - 2 ^ f.fracBits)) % 2 ^ f.fracBits = c - 2 ^ f.fracBits := by
      rw [Nat.mul_comm, Nat.mul_add_mod, Nat.mod_eq_of_lt (by omega)]
    have hdv : ((g+1) * 2 ^ f.fracBits + (c - 2 ^ f.fracBits)) / 2 ^ f.fracBits = g+1 := by
      rw [Nat.mul_comm, Nat.mul_add_div (Nat.two_pow_pos _), Nat.div_eq_of_lt (by omega)]
    simp only [hmod, hdv]
    rw [if_neg (by omega)]
    have : 2 ^ f.fracBits + (c - 2 ^ f.fracBits) = c := by omega
    rw [this, hc]; simp [Nat.mul_comm]

/-- A finite magnitude packs below the encoding of the infinities. -/
theorem bitsOfMag_lt (f : Flen) (m : Nat) (h : m < f.overflowMag) :
    bitsOfMag f m < f.expOnes * 2 ^ f.fracBits := by
  unfold bitsOfMag
  simp only
  have he : 1 < f.expOnes := by cases f <;> decide
  split_ifs with h0
  · nlinarith [Nat.two_pow_pos f.fracBits]
  · set g := f.quantumExp m with hg
    have hhi : m < 2 ^ (f.fracBits + 1 + g) := f.lt_of_quantumExp m
    have hlo : 2 ^ (f.fracBits + g) ≤ m := by
      rcases Nat.eq_zero_or_pos g with h1 | h1
      · rw [h1, Nat.add_zero]; omega
      · exact f.le_of_quantumExp (by omega)
    have h1 : f.fracBits + g < f.fracBits + f.expOnes - 1 := by
      have : 2 ^ (f.fracBits + g) < 2 ^ (f.fracBits + f.expOnes - 1) := lt_of_le_of_lt hlo h
      exact (Nat.pow_lt_pow_iff_right (by omega)).1 this
    have h2 : m / 2 ^ g < 2 ^ (f.fracBits+1) := by
      rw [Nat.div_lt_iff_lt_mul (Nat.two_pow_pos _), ← Nat.pow_add]; exact hhi
    rw [Nat.pow_succ] at h2
    have h3 : (g+1+1) ≤ f.expOnes := by omega
    calc (g + 1) * 2 ^ f.fracBits + (m / 2 ^ g - 2 ^ f.fracBits) < (g+1) * 2 ^ f.fracBits + 2 ^ f.fracBits := by
            have := Nat.two_pow_pos f.fracBits
            generalize m / 2 ^ g = a at h2 ⊢
            generalize (g+1) * 2 ^ f.fracBits = b
            omega
      _ = (g+1+1) * 2 ^ f.fracBits := by ring
      _ ≤ _ := Nat.mul_le_mul_right _ h3

theorem two_pow_signBit (f : Flen) : 2 ^ f.signBit = 2 ^ f.expBits * 2 ^ f.fracBits := by rw [← Nat.pow_add]; rfl

theorem signBit_le (f : Flen) : f.signBit ≤ 63 := by cases f <;> decide

theorem expOnes_succ (f : Flen) : f.expOnes + 1 = 2 ^ f.expBits := by cases f <;> decide

/-- The bits of an encoding. -/
theorem encoding_toNat (f : Flen) (neg : Bool) (e : Nat) (h : e < 2 ^ f.signBit) :
    (encoding f neg e).toNat = (if neg then 2 ^ f.signBit else 0) + e := by
  unfold encoding
  rw [BitVec.toNat_ofNat, Nat.mod_eq_of_lt]
  have : 2 ^ f.signBit ≤ 2 ^ 63 := Nat.pow_le_pow_right (by omega) (signBit_le f)
  split_ifs <;> omega

/-- Unpacking the encoding of given fields. -/
theorem unpackF_encoding (f : Flen) (neg : Bool) (e : Nat) (h : e < 2 ^ f.signBit) :
    unpackF f (encoding f neg e) =
      if e / 2 ^ f.fracBits = f.expOnes then (if e % 2 ^ f.fracBits = 0 then .inf neg else .nan)
      else .fin neg (magOfBits f e) := by
  have h1 := encoding_toNat f neg e h
  have h2 : (encoding f neg e).toNat % 2 ^ f.signBit = e := by
    rw [h1]; split_ifs <;> simp [Nat.mod_eq_of_lt h]
  have h3 : (encoding f neg e).getLsbD f.signBit = neg := by
    rw [BitVec.getLsbD, Nat.testBit_eq_decide_div_mod_eq, h1]
    cases neg
    · simp [Nat.div_eq_of_lt h]
    · simp [Nat.add_div_left, Nat.div_eq_of_lt h]
  simp only [unpackF, h2, h3]

end Sys2Proof
end

