-- ==== Sys2Proof/Laws/PerInstr.lean ====
section
/-! SUPPORT. Family `OpcodeField`: the word of a command carries its opcode in `OP` and zeros in `RSV` (R61, R62). -/

namespace Sys2Proof.Laws.OpcodeField

/-- The encoding's `OP` is the code of the instruction's opcode, and its `RSV` is zero. -/
def Statement (i : Instr) : Prop := (encode i).op = i.opcode.code ∧ (encode i).rsv = 0

theorem seed (v : U64) : Statement (.seed v) := ⟨assemble_op .., assemble_rsv ..⟩
theorem nextu32 : Statement .nextu32 := ⟨assemble_op .., assemble_rsv ..⟩
theorem nextuf : Statement .nextuf := ⟨assemble_op .., assemble_rsv ..⟩
theorem unifb (n : U32) (low high : U64) : Statement (.unifb n low high) := ⟨assemble_op .., assemble_rsv ..⟩
theorem bmxf (u1 u2 : U64) : Statement (.bmxf u1 u2) := ⟨assemble_op .., assemble_rsv ..⟩
theorem normb (n : U32) (mu sigma : U64) : Statement (.normb n mu sigma) := ⟨assemble_op .., assemble_rsv ..⟩

end Sys2Proof.Laws.OpcodeField
end

