-- ==== Sys2Proof/Laws/Step.lean ====
section
/-! SUPPORT. What a clock edge can do, said once: reset, acceptance of a word, transfer of a beat, or nothing but time. -/

namespace Sys2Proof.Machine

theorem cmdReady_iff (p : Pins) (s : State) : cmdReady p s = true ↔ p.rst = false ∧ s.pending = [] := by
  simp [cmdReady]

theorem rspValid_iff (p : Pins) (s : State) :
    rspValid p s = true ↔ p.rst = false ∧ s.pending ≠ [] ∧ s.wait = 0 := by
  simp [rspValid, and_assoc]

/-- At most one of the two transfers can happen at an edge. -/
theorem not_both_transfers (p : Pins) (s : State) : ¬ (cmdReady p s = true ∧ rspValid p s = true) := by
  rw [cmdReady_iff, rspValid_iff]
  tauto

/-- The state with the word that stays presented noted. -/
def withHeld (p : Pins) (s : State) : State := { s with held := heldAfter p s }

theorem beginResponse_next {o : Host.Outcome State Fault Refusal} {t : State} (h : beginResponse o = .next t) :
    ∃ u, o = .next u ∧ t = u.takeLatency := by
  cases o with
  | next u => exact ⟨u, rfl, by simpa [beginResponse] using h.symm⟩
  | fault r => simp [beginResponse] at h
  | refused r => simp [beginResponse] at h

/-- Everything a clock edge can answer with a next state. -/
theorem clockEdge_next {p : Pins} {s t : State} (h : clockEdge p s = .next t) :
    (p.rst = true ∧ t = (withHeld p s).resetNow) ∨
    (p.rst = false ∧ holdBroken p s = false ∧ s.pending = [] ∧ p.cmdValid = true ∧
      ∃ u, runWord p.cmdData (withHeld p s) = .next u ∧ t = u.takeLatency) ∨
    (p.rst = false ∧ holdBroken p s = false ∧ s.pending ≠ [] ∧ s.wait = 0 ∧ p.rspReady = true ∧
      t = (withHeld p s).takeBeat) ∨
    (p.rst = false ∧ holdBroken p s = false ∧ acceptedAt p s = none ∧
      (rspValid p s = false ∨ p.rspReady = false) ∧ t = (withHeld p s).tick) := by
  unfold clockEdge at h
  simp only at h
  split_ifs at h with h1 h2 h3 h4
  · exact .inl ⟨h1, by simpa [withHeld] using h.symm⟩
  · simp only [Bool.and_eq_true, cmdReady_iff] at h3
    obtain ⟨u, hu, rfl⟩ := beginResponse_next h
    exact .inr (.inl ⟨by simpa using h1, by simpa using h2, h3.1.2, h3.2, u, hu, rfl⟩)
  · simp only [Bool.and_eq_true, rspValid_iff] at h4
    exact .inr (.inr (.inl ⟨h4.1.1, by simpa using h2, h4.1.2.1, h4.1.2.2, h4.2, by simpa [withHeld] using h.symm⟩))
  · refine .inr (.inr (.inr ⟨by simpa using h1, by simpa using h2, by simpa [acceptedAt] using h3, ?_,
      by simpa [withHeld] using h.symm⟩))
    simp only [Bool.and_eq_true, not_and_or, Bool.not_eq_true] at h4
    exact h4

/-- No edge changes the configuration or the source of free values, and none touches the script. -/
theorem clockEdge_keeps {p : Pins} {s t : State} (h : clockEdge p s = .next t) :
    t.inputs = s.inputs ∧ t.cfg = s.cfg ∧ t.source = s.source := by
  obtain ⟨_, rfl⟩ | ⟨_, _, _, _, u, hu, rfl⟩ | ⟨_, _, _, _, _, rfl⟩ | ⟨_, _, _, _, rfl⟩ := clockEdge_next h
  · exact ⟨rfl, rfl, rfl⟩
  · obtain ⟨_, hc, hs, _, _, hi, _⟩ := runWord_keepsPorts hu
    exact ⟨by simp [hi, withHeld], by simp [hc, withHeld], by simp [hs, withHeld]⟩
  · simp [withHeld]
  · exact ⟨rfl, rfl, rfl⟩

/-- A step uses up one edge's pins. -/
theorem step_keeps {s t : State} (h : step s = .next t) :
    t.inputs = s.inputs.tail ∧ t.cfg = s.cfg ∧ t.source = s.source :=
  clockEdge_keeps h

/-- A host that presents no word breaks no obligation. -/
theorem hostKeepsWord_of_no_command (k : Nat) (s : State) (h : ∀ p ∈ s.inputs, p.cmdValid = false) :
    hostKeepsWord k s := by
  induction k generalizing s with
  | zero => trivial
  | succ k ih =>
    refine ⟨?_, fun t ht => ih t ?_⟩
    · have hv : s.pins.cmdValid = false := by
        unfold State.pins
        cases hi : s.inputs with
        | nil => rfl
        | cons p ps => exact h p (by simp [hi])
      unfold holdBroken
      split <;> simp [hv]
    · rw [(step_keeps ht).1]
      exact fun p hp => h p (List.mem_of_mem_tail hp)

/-- An edge that resets nothing and whose host keeps its word never refuses, and faults only where a command does. -/
theorem clockEdge_accept {p : Pins} {s : State} (hr : p.rst = false) (hh : holdBroken p s = false)
    (hp : s.pending = []) (hv : p.cmdValid = true) :
    clockEdge p s = beginResponse (runWord p.cmdData { s with held := none }) := by
  have h1 : cmdReady p s = true := (cmdReady_iff p s).2 ⟨hr, hp⟩
  simp [clockEdge, hr, hh, h1, hv, heldAfter]

/-- Running the machine from a state with a word presented: the next step accepts that word and runs it. -/
theorem step_withFetchWord (s : State) (nbits w : Nat) :
    step (s.withFetchWord nbits w) =
      beginResponse (runWord (BitVec.ofNat 192 (w % 2 ^ nbits))
        { s with pending := [], wait := 0, held := none, delivered := s.delivered ++ s.pending }) :=
  clockEdge_accept rfl rfl rfl rfl

end Sys2Proof.Machine
end

