-- ==== Sys2Proof/Tests/Slice0.lean ====
section
/-! SUPPORT. Tests: ill-formed terms refused, words written out from 30_encoding.md decoded, vectors of
95_test_vectors.md, and for every statement with hypotheses a witness that meets them. -/

namespace Sys2Proof.Tests

open Sys2Proof Sys2Proof.Machine

/-! ## Helpers -/

/-- An unseeded, idle block. -/
def unseeded (f : Flen) : State := State.resetOf ⟨f, 0, 0, 0⟩ 0

/-- A seeded, idle block. -/
def seeded (f : Flen) (x : U64) : State := { unseeded f with S := some x, SEEDED := true }

def nextOf : Host.Outcome State Fault Refusal → Option State
  | .next t => some t
  | .fault _ => none
  | .refused _ => none

/-- What a command leaves in `S` and `SEEDED`, and the bits of its beats. -/
def answer (o : Host.Outcome State Fault Refusal) : Option (Option U64 × Bool × List RspWord) :=
  (nextOf o).map (fun t => (t.S, t.SEEDED, t.pending.map Beat.bits))

theorem exists_next {o : Host.Outcome State Fault Refusal} (h : (nextOf o).isSome = true) : ∃ t, o = .next t := by
  cases o with
  | next t => exact ⟨t, rfl⟩
  | fault r => simp [nextOf] at h
  | refused r => simp [nextOf] at h

/-- A data beat and a completion beat, as 95_test_vectors.md writes them. -/
def D (v : U64) : RspWord := (0 : BitVec 1) ++ v
def C (v : U64) : RspWord := (1 : BitVec 1) ++ v

/-! ## Well-formedness: each check refuses an ill-formed term (R65, R68) -/

theorem test_wf_unifb_low : (Instr.unifb 1 0x0000000100000000#64 0).wellFormed .binary32 = false := by decide
theorem test_wf_unifb_high : (Instr.unifb 1 0 0x8000000000000000#64).wellFormed .binary32 = false := by decide
theorem test_wf_bmxf_u1 : (Instr.bmxf 0x3FE0000000000000#64 0).wellFormed .binary32 = false := by decide
theorem test_wf_bmxf_u2 : (Instr.bmxf 0 0x3FD0000000000000#64).wellFormed .binary32 = false := by decide
theorem test_wf_normb_mu : (Instr.normb 1 0x0000000100000000#64 0).wellFormed .binary32 = false := by decide
theorem test_wf_normb_sigma : (Instr.normb 1 0 0x3FF0000000000000#64).wellFormed .binary32 = false := by decide
/-- The seed takes all 64 bits in both formats (R66). -/
theorem test_wf_seed : (Instr.seed 0xFFFFFFFFFFFFFFFF#64).wellFormed .binary32 = true := by decide

/-! ## Decoding: words written out from the table of 30_encoding.md, sections 1 and 7 -/

theorem test_decode_seed :
    decode .binary32 0x0000000000000000FEDCBA98765432100000000000000001#192 = .ok (.seed 0xFEDCBA9876543210#64) := by
  decide
theorem test_decode_nextu32 : decode .binary64 0x000000000000000000000000000000000000000000000002#192 = .ok .nextu32 := by
  decide
theorem test_decode_nextuf : decode .binary64 0x000000000000000000000000000000000000000000000003#192 = .ok .nextuf := by
  decide
theorem test_decode_unifb :
    decode .binary64 0x3FF0000000000000BFF00000000000000000000300000004#192 =
      .ok (.unifb 3 0xBFF0000000000000#64 0x3FF0000000000000#64) := by
  decide
theorem test_decode_unifb_binary32 :
    decode .binary32 0x000000003F80000000000000BF8000000000000300000004#192 =
      .ok (.unifb 3 0x00000000BF800000#64 0x000000003F800000#64) := by
  decide
theorem test_decode_bmxf :
    decode .binary64 0x3FD00000000000003FE00000000000000000000000000005#192 =
      .ok (.bmxf 0x3FE0000000000000#64 0x3FD0000000000000#64) := by
  decide
theorem test_decode_normb :
    decode .binary64 0xC00000000000000040240000000000000000000300000006#192 =
      .ok (.normb 3 0x4024000000000000#64 0xC000000000000000#64) := by
  decide
/-- `NORMB -2147483648`: `N = 0x80000000` (95, section 6). -/
theorem test_decode_normb_negative :
    decode .binary64 0x3FF000000000000000000000000000008000000000000006#192 =
      .ok (.normb 0x80000000#32 0 0x3FF0000000000000#64) := by
  decide

/-! The illegal words of 95_test_vectors.md, section 6. -/

theorem test_illegal_zero : decode .binary64 0#192 = .error (.reservedOpcode 0x00#8) := by decide
theorem test_illegal_07 : decode .binary64 7#192 = .error (.reservedOpcode 0x07#8) := by decide
theorem test_illegal_ff : decode .binary64 0xFF#192 = .error (.reservedOpcode 0xFF#8) := by decide
theorem test_illegal_rsv : decode .binary64 0x102#192 = .error (.nonZeroField .rsv) := by decide
theorem test_illegal_a : decode .binary64 0x10000000000000002#192 = .error (.nonZeroField .a) := by decide
theorem test_illegal_seed_n :
    decode .binary64 0x0000000000000000000000000000002A0000000100000001#192 = .error (.nonZeroField .n) := by decide
theorem test_illegal_seed_b :
    decode .binary64 0x0000000000000001000000000000002A0000000000000001#192 = .error (.nonZeroField .b) := by decide
theorem test_illegal_bmxf_n :
    decode .binary64 0x3FD00000000000003FE00000000000000000000100000005#192 = .error (.nonZeroField .n) := by decide
theorem test_illegal_binary32_a :
    decode .binary32 0x3FF0000000000000BFF00000000000000000000300000004#192 = .error (.nonZeroField .aHi) := by decide
theorem test_illegal_binary32_b :
    decode .binary32 0x3FF000003F80000000000000BF8000000000000300000004#192 = .error (.nonZeroField .bHi) := by decide

/-- The bytes of P1's first command (95, P1). -/
theorem test_bytes :
    decodeBytes .binary64 [0x01, 0, 0, 0, 0, 0, 0, 0, 0x2A, 0, 0, 0, 0, 0, 0, 0, 0, 0, 0, 0, 0, 0, 0, 0, 0x77] =
      .ok (.seed 42, [0x77]) := by
  decide
theorem test_bytes_truncated : decodeBytes .binary64 (List.replicate 23 0x02) = .error .truncated := by decide

/-! ## The generator: V-G1, V-G4, V-G5, V-G8 -/

theorem test_next_42 : drawU32 0x2A#64 = (0x56CE4AB7#32, 0x0000000054000020#64) := by decide
/-- The left shift and the product are truncated (V-G4). -/
theorem test_next_ones : drawU32 0xFFFFFFFFFFFFFFFF#64 = (0xF92CC9E5#32, 0xFFF0001FFE000000#64) := by decide
/-- The right shifts are logical (V-G5). -/
theorem test_next_top : drawU32 0x8000000000000000#64 = (0xF1053EAD#32, 0x8008001001000000#64) := by decide
/-- The draw of the hazard of R198 (V-G8). -/
theorem test_next_zero_draw : drawU32 0x98D76A164D99A710#64 = (0#32, 0x59071D96D81ECD35#64) := by decide

/-! ## The commands -/

/-- P1, command 1. -/
theorem test_seed : answer (exec (.seed 42) (unseeded .binary64)) = some (some 42, true, [C 0]) := by decide
/-- P1, command 2. -/
theorem test_nextu32 :
    answer (exec .nextu32 (seeded .binary64 42)) =
      some (some 0x54000020#64, true, [D 0x0000000056CE4AB7#64, C 0x100#64]) := by
  decide
/-- Refused while unseeded, with no draw (95, section 6). -/
theorem test_nextu32_not_seeded : answer (exec .nextu32 (unseeded .binary64)) = some (none, false, [C 3]) := by decide
/-- V-F2, draw 1, in both formats. -/
theorem test_nextuf_binary64 :
    answer (exec .nextuf (seeded .binary64 42)) =
      some (some 0x54000020#64, true, [D 0x3FD5B39280000000#64, C 0x100#64]) := by
  decide +kernel
theorem test_nextuf_binary32 :
    answer (exec .nextuf (seeded .binary32 42)) =
      some (some 0x54000020#64, true, [D 0x000000003EAD9C94#64, C 0x100#64]) := by
  decide +kernel
/-- V-U3: inexact operands, three roundings. -/
theorem test_unifb_binary64 :
    answer (exec (.unifb 3 0x3FB999999999999A#64 0x3FD3333333333333#64) (seeded .binary64 42)) =
      some (some 0x01FA08005045006E#64, true,
        [D 0x3FC57B0766666666#64, D 0x3FD069B226666666#64, D 0x3FD083855999999A#64, C 0x300#64]) := by
  decide +kernel
/-- V-U2 in binary32: the product and the sum each round. -/
theorem test_unifb_binary32 :
    answer (exec (.unifb 4 0x40200000#64 0x41200000#64) (seeded .binary32 42)) =
      some (some 0x405A97A0A712F12B#64, true,
        [D 0x40A16166#64, D 0x4105DEE6#64, D 0x4106D102#64, D 0x411948FE#64, C 0x400#64]) := by
  decide +kernel

/-- A function given by a table of encodings. -/
def table (rows : List (U64 × U64)) (f : Flen) (x : Flt) : Flt :=
  match rows.find? (fun r => decide (unpackF f r.1 = x)) with
  | some r => unpackF f r.2
  | none => .nan

/-- The reference configuration `CR` at the operands of V-BM1 and V-BM3, binary64. -/
def cr : ElemFns where
  ln := table [(0x3FE0000000000000#64, 0xBFE62E42FEFA39EF#64), (0x3FD5B39280000000#64, 0xBFF14DD6F132683E#64),
    (0x3FE948CD60000000#64, 0xBFCE2677B87B9F7F#64)]
  cos := table [(0x3FF921FB54442D18#64, 0x3C91A62633145C07#64), (0x4013A9050CD75EE5#64, 0x3FC9C3B2ED94C18B#64),
    (0x4017B9F3F89B2AC3#64, 0x3FEE0ADD147B22F7#64)]
  sin := table [(0x3FF921FB54442D18#64, 0x3FF0000000000000#64), (0x4013A9050CD75EE5#64, 0xBFEF58551B3F5CD1#64),
    (0x4017B9F3F89B2AC3#64, 0xBFD60A82B00B9DA2#64)]

/-- V-BM1, on an unseeded block. -/
theorem test_bmxf :
    answer (runBmxf cr 0x3FE0000000000000#64 0x3FD0000000000000#64 (unseeded .binary64)) =
      some (none, false, [D 0x3C94C7B6D3ECB0CC#64, D 0x3FF2D6ABE44AFC43#64, C 0x200#64]) := by
  decide +kernel
/-- V-BM8, row `1.0, 0.0`: fixed by the named properties, so by the machine's own functions. -/
theorem test_bmxf_one :
    answer (exec (.bmxf 0x3FF0000000000000#64 0) (seeded .binary64 42)) =
      some (some 42, true, [D 0x8000000000000000#64, D 0x8000000000000000#64, C 0x200#64]) := by
  decide +kernel
/-- V-N3: odd length, negative sigma; the fourth value is dropped and its draws are made. -/
theorem test_normb :
    answer (runNormb cr 3 0x4024000000000000#64 0xC000000000000000#64 (seeded .binary64 42)) =
      some (some 0x405A97A0A712F12B#64, true,
        [D 0x4022D0DCC35CFAA6#64, D 0x4029C330A1FF511B#64, D 0x40216C2828EC40B4#64, C 0x300#64]) := by
  decide +kernel
/-- V-N4: `NORMB -5` on a seeded block. -/
theorem test_normb_negative :
    answer (exec (.normb 0xFFFFFFFB#32 0 0x3FF0000000000000#64) (seeded .binary64 42)) =
      some (some 42, true, [C 1]) := by
  decide

/-! ## The ports -/

/-- P7: a reset edge loses the stream. -/
theorem test_reset_edge :
    (nextOf (clockEdge ⟨true, true, 2#192, true⟩ { seeded .binary64 42 with pending := [.completion .ok false 0] })).map
      (fun t => (t.S, t.SEEDED, t.pending)) = some (none, false, []) := by
  decide
/-- After reset the word of `SEED 42` is accepted at the next edge. -/
theorem test_step_seed :
    answer (step (State.reset.withFetchWord 192 0x2A0000000000000001)) = some (some 42, true, [C 0]) := by
  decide

/-! ## The assembler (R74, R75) -/

theorem test_asm_seed : asmLine .binary64 "SEED    0x98D76A164D99A710 ; V-G8".toList = .command (.seed 0x98D76A164D99A710#64) := by
  decide +kernel
theorem test_asm_unifb :
    asmLine .binary64 "UNIFB   3, 0.1, 0.3".toList =
      .command (.unifb 3 0x3FB999999999999A#64 0x3FD3333333333333#64) := by
  decide +kernel
theorem test_asm_normb_defaults :
    asmLine .binary32 "NORMB -2147483648".toList = .command (.normb 0x80000000#32 0 0x3F800000#64) := by
  decide +kernel
theorem test_asm_raw : asmLine .binary64 "BMXF bits:0x3FE0000000000000, 1e-3".toList =
    .command (.bmxf 0x3FE0000000000000#64 0x3F50624DD2F1A9FC#64) := by
  decide +kernel
theorem test_asm_middle : asmLine .binary64 "UNIFB 3, , 1.0".toList = .bad := by decide +kernel

/-! ## Witnesses: for each statement with hypotheses, inputs that meet them together -/

theorem witness_DecodeEncodeRoundTrip :
    (Instr.normb 0x80000000#32 0xFFFFFFFFFFFFFFFF#64 0xFFFFFFFFFFFFFFFF#64).wellFormed .binary64 = true ∧
      (Instr.unifb 0xFFFFFFFF#32 0xFFFFFFFF#64 0x80000000#64).wellFormed .binary32 = true := by
  decide

theorem witness_EncodeDecodeRoundTrip :
    decode .binary64 0xFFFFFFFFFFFFFFFFFFFFFFFFFFFFFFFFFFFFFFFF00000006#192 =
      .ok (.normb 0xFFFFFFFF#32 0xFFFFFFFFFFFFFFFF#64 0xFFFFFFFFFFFFFFFF#64) ∧
      decode .binary32 0x00000000FFFFFFFF00000000800000000000000000000005#192 =
        .ok (.bmxf 0x80000000#64 0xFFFFFFFF#64) := by
  decide

theorem witness_MaskAndMatchTable :
    0x0000000000000000FFFFFFFFFFFFFFFF0000000000000001#192 &&& Opcode.seed.mask .binary32 = Opcode.seed.matchWord := by
  decide

theorem witness_ReservedOpcodesIllegal :
    (CmdWord.op 0#192).toNat = 0 ∧ 7 ≤ (CmdWord.op 7#192).toNat ∧ 7 ≤ (CmdWord.op 0xFF#192).toNat := by
  decide

/-- One word for each way to be illegal. -/
theorem witness_IllegalWordsExactly :
    CmdWord.rsv 0x80000001#192 ≠ 0 ∧
      (CmdWord.op 0x8000000000000005#192).toNat ∈ [1, 2, 3, 5] ∧ CmdWord.n 0x8000000000000005#192 ≠ 0 ∧
      (CmdWord.op 0x10000000000000003#192).toNat ∈ [2, 3] ∧ CmdWord.a 0x10000000000000003#192 ≠ 0 ∧
      (CmdWord.op (1#192 <<< 191 ||| 1#192)).toNat ∈ [1, 2, 3] ∧ CmdWord.b (1#192 <<< 191 ||| 1#192) ≠ 0 ∧
      (seeded .binary32 1).cfg.flen = .binary32 ∧
      (CmdWord.op (1#192 <<< 96 ||| 4#192)).toNat ∈ [4, 5, 6] ∧
      (CmdWord.a (1#192 <<< 96 ||| 4#192)).extractLsb' 32 32 ≠ 0 ∧
      (CmdWord.op (1#192 <<< 191 ||| 6#192)).toNat ∈ [4, 5, 6] ∧
      (CmdWord.b (1#192 <<< 191 ||| 6#192)).extractLsb' 32 32 ≠ 0 := by
  decide

/-- The last bit of the last byte, and the longest list of bytes that is no word. -/
theorem witness_StoredBytesDecode : 23 < 24 ∧ 7 < 8 ∧ 8 < 9 ∧ (List.replicate 23 (0 : Byte)).length < 24 := by decide

theorem witness_BeatLayout : (Beat.data 0).bits = (Beat.data 0).bits := rfl

theorem witness_CountIsDataBeats :
    (∃ t, runWord 2#192 (seeded .binary64 1) = .next t ∧ t.pending.getLast? = some (.completion .ok false 1)) ∧
      ∃ t, runWord 2#192 (unseeded .binary64) = .next t ∧ t.pending = [.completion .notSeeded false 0] :=
  ⟨⟨_, rfl, rfl⟩, ⟨_, rfl, rfl⟩⟩

theorem witness_ZeroStateIsFixedPoint : (seeded .binary64 0).SEEDED = true ∧ (seeded .binary64 0).S = some 0 := by decide

/-- A drawing command, a refused one and an illegal word, none of them a `SEED`. -/
theorem witness_StateIsNextPowerOfDraws :
    (seeded .binary64 7).SEEDED = true ∧ (seeded .binary64 7).S = some 7 ∧
      (∀ w ∈ [2#192, 0xFFFFFFFF00000004#192, 0#192], ∀ x, decode (seeded .binary64 7).cfg.flen w ≠ .ok (.seed x)) ∧
      ∃ t, execAll [2#192, 0xFFFFFFFF00000004#192, 0#192] (seeded .binary64 7) = .next t := by
  refine ⟨rfl, rfl, ?_, exists_next (by decide +kernel)⟩
  intro w hw x
  simp only [List.mem_cons, List.not_mem_nil, or_false] at hw
  rcases hw with rfl | rfl | rfl
  · rw [show decode (seeded .binary64 7).cfg.flen 2#192 = .ok .nextu32 from by decide]; simp
  · rw [show decode (seeded .binary64 7).cfg.flen 0xFFFFFFFF00000004#192 = .ok (.unifb 0xFFFFFFFF#32 0 0) from by decide]
    simp
  · rw [show decode (seeded .binary64 7).cfg.flen 0#192 = .error (.reservedOpcode 0#8) from by decide]; simp

theorem witness_NonZeroWordStaysNonZero :
    let s := (seeded .binary64 1).presentNext 2#192
    s.S ≠ some 0 ∧ (∀ w, acceptedAt s.pins s.popPins = some w → decode s.cfg.flen w ≠ .ok (.seed 0)) ∧
      ∃ t, step s = .next t := by
  refine ⟨by decide, ?_, exists_next (by decide +kernel)⟩
  intro w hw
  have h : acceptedAt ((seeded .binary64 1).presentNext 2#192).pins ((seeded .binary64 1).presentNext 2#192).popPins =
      some 2#192 := by decide
  rw [h] at hw
  cases hw
  rw [show decode ((seeded .binary64 1).presentNext 2#192).cfg.flen 2#192 = .ok .nextu32 from by decide]
  simp

theorem witness_SeedCommand : (CmdWord.op 0x2A0000000000000001#192) = 0x01 := by decide

theorem witness_Nextu32Command :
    (seeded .binary64 1).SEEDED = true ∧ (seeded .binary64 1).S = some 1 ∧ (unseeded .binary64).SEEDED = false ∧
      (CmdWord.op 2#192) = 0x02 := by
  decide

theorem witness_NextufCommand :
    (seeded .binary32 1).SEEDED = true ∧ (seeded .binary32 1).S = some 1 ∧ (unseeded .binary32).SEEDED = false ∧
      (CmdWord.op 3#192) = 0x03 := by
  decide

/-- A draw below 0x100 and one above it; in both formats its magnitude is zero and not zero. -/
theorem witness_UniformFloatRange :
    floatOfDraw .binary32 0xFF#32 = .fin false 0 ∧ floatOfDraw .binary32 0x100#32 ≠ .fin false 0 := by
  decide +kernel

/-- One half lies on the tie between 0 and 1 unit. -/
theorem witness_RoundsToNearestEven :
    0 < 2 ∧ hasSpacing .binary64 1 ∧ 1 ≠ roundMag .binary64 1 2 ∧
      |((1 : Nat) : Int) - roundMag .binary64 1 2 * 2| = |((1 : Nat) : Int) - 1 * 2| ∧
      signedMag false 1 + signedMag true 2 ≠ 0 ∧ (1 : Nat) ≠ 0 := by
  unfold hasSpacing
  decide +kernel

theorem witness_NanRules :
    isQuietNaN .binary64 0xFFF8000000000000#64 = true ∧ isQuietNaN .binary32 0x7FC00000#64 = true ∧
      unpackF .binary32 0x7F800001#64 = .nan := by
  decide +kernel

theorem witness_ArithmeticSpecialCases :
    Flen.binary32.overflowMag ≤ roundMag .binary32 Flen.binary32.overflowMag 1 ∧ 3 / 2 < 2 ^ Flen.binary32.fracBits ∧
      2 ^ Flen.binary32.fracBits - 1 < 2 ^ Flen.binary32.fracBits ∧
      (Flt.fin true 1).representable .binary32 = true ∧ Flt.fin true 1 ≠ .fin false 0 ∧ Flt.fin true 1 ≠ .fin true 0 ∧
      fmul .binary32 (.inf true) (.fin true 1) ≠ .nan := by
  decide +kernel

/-- The least subnormal, and the spacing's own number 1. -/
theorem witness_SquareRootCorrectlyRounded :
    (Flt.fin false 1).representable .binary64 = true ∧ (1 : Nat) ≠ 0 ∧ hasSpacing .binary64 1 ∧
      (Flt.fin false (Flen.binary32.overflowMag - 2 ^ 253)).representable .binary32 = true := by
  unfold hasSpacing
  decide +kernel

theorem witness_ArithmeticStaysInFormat :
    (Flt.fin true 1).representable .binary64 = true ∧ (Flt.inf true).representable .binary64 = true := by
  decide +kernel

theorem witness_PackUnpackRoundTrip :
    floatFieldOk .binary32 0xFF800000#64 = true ∧ unpackF .binary32 0xFF800000#64 ≠ .nan ∧
      (Flt.fin true 0).representable .binary32 = true := by
  decide +kernel

theorem witness_AffineMapDefaults :
    (Flt.fin true 0).representable .binary64 = true ∧ (Flt.fin true 5).representable .binary64 = true := by
  decide +kernel

/-- `low = high`; `low = +0`, `high = -0`, where the difference is `-0`; and the exact case `low = -1`, `high = 1`, `u = 1/2`. -/
theorem witness_AffineMapBounds :
    (let a := unpackF .binary64 0x3FF0000000000000#64
     isFinite a = true ∧ a.le a = true ∧ isFinite (fsub .binary64 a a) = true) ∧
      (let a := unpackF .binary32 0#64
       let b := unpackF .binary32 0x80000000#64
       isFinite a = true ∧ isFinite b = true ∧ a.le b = true ∧ isFinite (fsub .binary32 b a) = true) ∧
      (let one := Flen.binary32.oneMag
       signedMag true one < signedMag false one ∧
         fsub .binary32 (.fin false one) (.fin true one) = .fin false (2 * one) ∧
         ((2 * one : Nat) : Int) = signedMag false one - signedMag true one ∧
         fmul .binary32 (u24toF .binary32 0x800000#24) (.fin false (2 * one)) = .fin false one ∧
         one * 2 ^ 24 = (0x800000#24).toNat * (2 * one) ∧
         fadd .binary32 (.fin false one) (.fin true one) = .fin false 0 ∧
         signedMag false 0 = (one : Int) + signedMag true one) := by
  decide +kernel

/-- The empty batch, the longest one, and the two ends of the negative lengths. -/
theorem witness_UnifbCommand :
    (seeded .binary64 1).SEEDED = true ∧ (seeded .binary64 1).S = some 1 ∧ (0#32).msb = false ∧
      (0x7FFFFFFF#32).msb = false ∧ (0x80000000#32).msb = true ∧ (0xFFFFFFFF#32).msb = true ∧
      (unseeded .binary64).SEEDED = false ∧ (CmdWord.op 4#192) = 0x04 := by
  decide

theorem witness_UnifbSplitsAnywhere :
    (seeded .binary64 1).SEEDED = true ∧ (seeded .binary64 1).S = some 1 ∧
      (0x7FFFFFFE#32).toNat + (1#32).toNat < 2 ^ 31 ∧ (0#32).toNat + (0x7FFFFFFF#32).toNat < 2 ^ 31 := by
  decide

theorem witness_UnifbDefaultsAreNextufs :
    (seeded .binary32 1).SEEDED = true ∧ (seeded .binary32 1).S = some 1 ∧ (0x7FFFFFFF#32).msb = false := by
  decide

/-- Elementary functions with the named properties and nothing else: `LN` is the negative of a magnitude below 1.0 and the
magnitude above, `COS` is 1.0 and `SIN` 1.0 but at zero. -/
def elemOfLn (big : Nat) : ElemFns where
  ln f x :=
    match x with
    | .nan => .nan
    | .inf neg => if neg then .nan else .inf false
    | .fin neg m =>
      if m = 0 then .inf true
      else if neg then .nan
      else if m = f.oneMag then .fin false 0
      else .fin (decide (m < f.oneMag)) big
  cos f x :=
    match x with
    | .nan => .nan
    | .inf _ => .nan
    | .fin _ _ => f.one
  sin f x :=
    match x with
    | .nan => .nan
    | .inf _ => .nan
    | .fin neg m => if m = 0 then .fin neg 0 else f.one

theorem one_representable (f : Flen) (neg : Bool) : (Flt.fin neg f.oneMag).representable f = true := by
  cases f <;> cases neg <;> decide +kernel

theorem elemOfLn_ln (f : Flen) {big : Nat} (hb : big ≠ 0) (hr : ∀ neg, (Flt.fin neg big).representable f = true) :
    LnProperties (elemOfLn big) f := by
  have h0 : f.oneMag ≠ 0 := Nat.pos_iff_ne_zero.1 f.oneMag_pos
  refine ⟨?_, fun neg => rfl, ?_, rfl, ?_, ?_⟩
  · rintro x (rfl | rfl | ⟨m, hm, rfl⟩)
    · rfl
    · rfl
    · simp [elemOfLn, hm]
  · simp [elemOfLn, Flen.one, h0]
  · intro m h1 h2
    refine ⟨big, hb, ?_, hr true⟩
    simp [elemOfLn, show m ≠ 0 by omega, show m ≠ f.oneMag by omega, h2]
  · intro m h1
    refine ⟨big, hb, ?_, hr false⟩
    simp [elemOfLn, show m ≠ 0 by omega, show m ≠ f.oneMag by omega, show ¬ m < f.oneMag by omega]

theorem elemOfLn_cosSin (f : Flen) (big : Nat) : CosSinProperties (elemOfLn big) f := by
  refine ⟨?_, fun neg => ⟨rfl, rfl⟩, fun neg m => ⟨⟨false, f.oneMag, Nat.le_refl _, rfl, one_representable f false⟩, ?_⟩⟩
  · rintro x (rfl | ⟨neg, rfl⟩) <;> exact ⟨rfl, rfl⟩
  · by_cases h : m = 0
    · exact ⟨neg, 0, Nat.zero_le _, by simp [elemOfLn, h], by cases f <;> cases neg <;> decide +kernel⟩
    · exact ⟨false, f.oneMag, Nat.le_refl _, by simp [elemOfLn, h, Flen.one], one_representable f false⟩

/-- `LN` is 1.0 in magnitude. -/
def plainElem : ElemFns := elemOfLn Flen.binary32.oneMag

theorem plainElem_ln : LnProperties plainElem .binary32 :=
  elemOfLn_ln _ (by decide) (one_representable .binary32)

theorem plainElem_cosSin : CosSinProperties plainElem .binary32 := elemOfLn_cosSin _ _

/-- The largest finite magnitude of binary32. -/
def maxMag : Nat := Flen.binary32.overflowMag - 2 ^ 253

/-- `LN` is the largest finite number in magnitude, so that `fmul(-2.0, LN(u1))` overflows. -/
def hugeElem : ElemFns := elemOfLn maxMag

theorem hugeElem_ln : LnProperties hugeElem .binary32 :=
  elemOfLn_ln _ (by decide +kernel) (by intro neg; cases neg <;> decide +kernel)

/-- A positive finite value's magnitude. -/
def posMag : Flt → Option Nat
  | .nan => none
  | .inf _ => none
  | .fin neg m => if neg || m == 0 then none else some m

theorem exists_posMag {x : Flt} (h : (posMag x).isSome = true) : ∃ r, x = .fin false r ∧ r ≠ 0 := by
  cases x with
  | nan => simp [posMag] at h
  | inf neg => simp [posMag] at h
  | fin neg m => cases neg <;> simp [posMag] at h ⊢; exact h

/-- One input for each clause of the corner cases. -/
theorem witness_TransformCornerCases :
    LnProperties plainElem .binary32 ∧ CosSinProperties plainElem .binary32 ∧
      -- both factors of the row u1 = 0: not zero, and zero
      plainElem.cos .binary32 (angle .binary32 (.fin false 0)) = .fin false Flen.binary32.oneMag ∧
      plainElem.sin .binary32 (angle .binary32 (.fin false 0)) = .fin false 0 ∧
      -- u1 < 0, u1 > 1
      (∃ m, m ≠ 0 ∧ Flt.fin true 1 = .fin true m) ∧
      (∃ m, Flen.binary32.oneMag < m ∧ Flt.fin false (Flen.binary32.oneMag + 1) = .fin false m) ∧
      -- 0 < u1 < 1 at its least value, with a finite angle
      (0 < 1 ∧ 1 < Flen.binary32.oneMag ∧
        isFinite (fmul .binary32 Flen.binary32.minusTwo (plainElem.ln .binary32 (.fin false 1))) = true ∧
        isFinite (angle .binary32 (.fin false 1)) = true) ∧
      -- the same with a product that overflows, and a finite u2 whose angle overflows
      (LnProperties hugeElem .binary32 ∧ CosSinProperties hugeElem .binary32 ∧
        isFinite (fmul .binary32 Flen.binary32.minusTwo (hugeElem.ln .binary32 (.fin false 1))) = false ∧
        radius hugeElem .binary32 (.fin false 1) = .inf false ∧ isFinite (angle .binary32 (.fin false maxMag)) = false) ∧
      -- u2 infinite
      (∃ neg, Flt.inf true = .inf neg) ∧
      -- u2 = +0 with a finite positive r
      (∃ r, radius plainElem .binary32 (.fin false 1) = .fin false r ∧ r ≠ 0) :=
  ⟨plainElem_ln, plainElem_cosSin, by decide +kernel, by decide +kernel, ⟨1, by decide, rfl⟩,
    ⟨_, Nat.lt_succ_self _, rfl⟩, by decide +kernel,
    ⟨hugeElem_ln, elemOfLn_cosSin _ _, by decide +kernel, by decide +kernel, by decide +kernel⟩, ⟨true, rfl⟩, exists_posMag (by decide +kernel)⟩

theorem witness_NormalValuesBoundedByRadius :
    LnProperties plainElem .binary32 ∧ CosSinProperties plainElem .binary32 ∧ (1#24 : U24) ≠ 0 ∧
      ∃ r, radius plainElem .binary32 (u24toF .binary32 1#24) = .fin false r :=
  ⟨plainElem_ln, plainElem_cosSin, by decide,
    (exists_posMag (x := radius plainElem .binary32 (u24toF .binary32 1#24)) (by decide +kernel)).imp fun _ h => h.1⟩

/-- The spacing's own number 1, and the largest magnitude whose double does not overflow. -/
theorem witness_TransformConstants :
    hasSpacing .binary32 1 ∧ (Flt.fin true (maxMag / 2)).representable .binary32 = true ∧
      2 * (maxMag / 2) < Flen.binary32.overflowMag := by
  unfold hasSpacing
  decide +kernel

theorem witness_BmxfCommand : (CmdWord.op 5#192) = 0x05 := by decide

theorem witness_NormalScaleDefaults :
    (Flt.fin true 0).representable .binary64 = true ∧ Flt.fin true 0 ≠ .nan ∧
      (Flt.inf true).representable .binary64 = true ∧ Flt.inf true ≠ .nan := by
  decide +kernel

theorem witness_SigmaZeroGivesMu :
    (Flt.fin true 1).representable .binary64 = true ∧ Flt.fin true 1 ≠ .fin false 0 ∧ Flt.fin true 1 ≠ .fin true 0 := by
  decide +kernel

theorem witness_NormbCommand :
    (seeded .binary64 1).SEEDED = true ∧ (seeded .binary64 1).S = some 1 ∧ (0#32).msb = false ∧
      (0x7FFFFFFF#32).msb = false ∧ (0x80000000#32).msb = true ∧ (unseeded .binary64).SEEDED = false ∧
      (CmdWord.op 6#192) = 0x06 := by
  decide

theorem witness_NormbOddDropsLastOnly :
    (seeded .binary64 1).SEEDED = true ∧ (seeded .binary64 1).S = some 1 ∧ (0x7FFFFFFD#32).toNat % 2 = 1 ∧
      (0x7FFFFFFD#32).toNat + 1 < 2 ^ 31 := by
  decide

theorem witness_NormbSplitsAtEvenLength :
    (seeded .binary64 1).SEEDED = true ∧ (seeded .binary64 1).S = some 1 ∧ (2#32).toNat % 2 = 0 ∧
      (2#32).toNat + (0x7FFFFFFD#32).toNat < 2 ^ 31 ∧ (1#32).toNat % 2 = 1 ∧
      (1#32).toNat + (0x7FFFFFFE#32).toNat < 2 ^ 31 := by
  decide

theorem witness_NormbDomExactly :
    (seeded .binary64 0).SEEDED = true ∧ (seeded .binary64 0).S = some 0 ∧ (1#32).msb = false ∧
      ∃ t, exec (.normb 1 0 0) (seeded .binary64 0) = .next t :=
  ⟨rfl, rfl, by decide, exists_next (by decide +kernel)⟩

theorem witness_NotSeededExactly :
    (unseeded .binary64).SEEDED = false ∧
      ∃ t, exec (.unifb 0 0 0) (unseeded .binary64) = .next t ∧
        .completion .notSeeded false 0 ∈ newBeats (unseeded .binary64) t :=
  ⟨rfl, _, rfl, by decide⟩

theorem witness_InvalidArgumentExactly :
    (seeded .binary64 1).SEEDED = true ∧ (0x80000000#32).getLsbD 31 = true ∧
      ∃ t, exec (.normb 0x80000000#32 0 0) (seeded .binary64 1) = .next t ∧
        .completion .invalidArgument false 0 ∈ newBeats (seeded .binary64 1) t :=
  ⟨rfl, by decide, _, rfl, by decide⟩

theorem witness_EveryWordAnsweredByPriority :
    (seeded .binary64 0).SEEDED = (seeded .binary64 0).S.isSome ∧
      (unseeded .binary64).SEEDED = (unseeded .binary64).S.isSome := by
  decide

/-- One word for each status that is a refusal. -/
theorem witness_RefusalHasNoEffect :
    statusFor .binary64 true 0#192 = .illegalCommand ∧ statusFor .binary64 false 2#192 = .notSeeded ∧
      statusFor .binary64 true 0x8000000000000004#192 = .invalidArgument := by
  decide

/-- In the middle of a response, with a word presented and a beat about to be taken. -/
theorem witness_ResetEdge :
    ({ seeded .binary64 1 with
      pending := [.data 0, .completion .ok false 1], inputs := [⟨true, true, 2#192, true⟩] } : State).pins.rst = true := by
  decide

theorem witness_StepRunsAcceptedCommand :
    let s := (seeded .binary64 1).presentNext 2#192
    let e := (seeded .binary64 1).presentNext 0#192
    s.pending = [] ∧ s.pins.rst = false ∧ s.pins.cmdValid = true ∧ (∀ w, s.held = some w → s.pins.cmdData = w) ∧
      decode s.cfg.flen s.pins.cmdData = .ok .nextu32 ∧
      decode e.cfg.flen e.pins.cmdData = .error (.reservedOpcode 0#8) := by
  refine ⟨rfl, rfl, rfl, fun w h => ?_, by decide, by decide⟩
  simp at h

/-- A beat presented, left and taken. -/
theorem witness_ResponseHeldUntilTaken :
    (∀ p ∈ [Pins.idle, Pins.take],
      let s : State := { seeded .binary64 1 with pending := [.data 5, .completion .ok false 1], inputs := [p] }
      rspValid s.pins s = true ∧ (nextOf (step s)).isSome = true) ∧
      Pins.idle.rspReady = false ∧ Pins.take.rspReady = true ∧ Pins.idle.rst = false := by
  refine ⟨?_, rfl, rfl, rfl⟩
  intro p hp
  simp only [List.mem_cons, List.not_mem_nil, or_false] at hp
  rcases hp with rfl | rfl <;> exact ⟨rfl, rfl⟩

theorem witness_BusyBlockKeepsState :
    let s : State := { seeded .binary64 1 with pending := [.completion .ok false 0], inputs := [⟨false, true, 2#192, true⟩] }
    s.pending ≠ [] ∧ s.pins.rst = false ∧ ∃ t, step s = .next t :=
  ⟨by decide, rfl, _, rfl⟩

/-- Both outcomes: the host holds its word, and the host changes it. -/
theorem witness_StopsOnlyWhenHostBreaksHold :
    (seeded .binary64 1).inv = true ∧
      (let s : State := { seeded .binary64 1 with held := some 2#192, inputs := [Pins.present 3#192] }
       s.inv = true ∧ s.pins.cmdData ≠ 2#192) := by
  decide

theorem witness_InvariantKeptByStep :
    let s := (seeded .binary64 1).presentNext 2#192
    s.inv = true ∧ ∃ t, step s = .next t :=
  ⟨by decide, _, rfl⟩

/-- The last beat of one command is taken, and the next command's word is accepted at the edge after it. -/
theorem witness_RunIsFoldOfExec :
    let s : State :=
      { seeded .binary64 1 with pending := [.completion .ok false 0], inputs := [Pins.take, Pins.present 2#192] }
    noReset 2 s ∧ ∃ t, Host.Core.run Sys2Proof.core 2 s = .next t := by
  refine ⟨?_, exists_next (by decide +kernel)⟩
  unfold noReset
  decide

/-- A host that has withdrawn a word it presented, changes `cmd_data` at every edge and takes every beat. -/
theorem witness_ResponseDeliveredInFiniteTime :
    let pins : Nat → Pins := fun k => ⟨false, false, BitVec.ofNat 192 k, true⟩
    let s : State := { seeded .binary64 1 with
      pending := [.data 0, .completion .ok false 1], wait := 3, held := some 2#192 }
    (∀ k, (pins k).rst = false) ∧ (∀ k, hostKeepsWord k { s with inputs := (List.range k).map pins }) ∧
      ∀ k, ∃ j, k ≤ j ∧ (pins j).rspReady = true := by
  refine ⟨fun _ => rfl, fun k => hostKeepsWord_of_no_command k _ ?_, fun k => ⟨k, Nat.le_refl _, rfl⟩⟩
  intro p hp
  obtain ⟨j, _, rfl⟩ := List.mem_map.1 hp
  rfl

/-- Two instances with other sources of free values; and two with other configurations, one draw each. -/
theorem witness_SameSeedSameResponses :
    (let s := seeded .binary64 1
     let s' : State := { unseeded .binary64 with source := 1 }
     SameConfig s.cfg s'.cfg ∧
      ∃ a a' t t', exec (.seed 42) s = .next a ∧ exec (.seed 42) s' = .next a' ∧
        execAll [2#192, 3#192] a = .next t ∧ execAll [2#192, 3#192] a' = .next t') ∧
      (let s := seeded .binary64 1
       let s' := State.resetOf ⟨.binary32, 1, 2, 3⟩ 1
       (∀ w ∈ [2#192], ∀ x, decode s.cfg.flen w ≠ .ok (.seed x)) ∧
        (∀ w ∈ [3#192], ∀ x, decode s'.cfg.flen w ≠ .ok (.seed x)) ∧
        ([2#192].map (wordDraws s.cfg.flen)).sum = ([3#192].map (wordDraws s'.cfg.flen)).sum ∧
        ∃ a a' t t', exec (.seed 42) s = .next a ∧ exec (.seed 42) s' = .next a' ∧
          execAll [2#192] a = .next t ∧ execAll [3#192] a' = .next t') := by
  refine ⟨⟨⟨rfl, rfl, rfl, rfl⟩, _, _, _, _, rfl, rfl, rfl, rfl⟩, ?_, ?_, by decide, _, _, _, _, rfl, rfl, rfl, rfl⟩
  · intro w hw x
    rw [List.mem_singleton.1 hw, show decode (seeded .binary64 1).cfg.flen 2#192 = .ok .nextu32 from by decide]
    simp
  · intro w hw x
    rw [List.mem_singleton.1 hw, show decode (State.resetOf ⟨.binary32, 1, 2, 3⟩ 1).cfg.flen 3#192 = .ok .nextuf from
      by decide]
    simp

theorem witness_InstancesShareNothing :
    [seeded .binary64 1, seeded .binary64 2][1]? = some (seeded .binary64 2) ∧
      (∃ sys, stepInstance 1 [seeded .binary64 1, seeded .binary64 2] = .next sys) ∧ (0 : Nat) ≠ 1 :=
  ⟨rfl, ⟨_, rfl⟩, by decide⟩

/-- Two requesters with a word each, whichever the grant goes to: it has a word, and its command completes. -/
theorem witness_SharedBlockServesWholeCommands :
    ∃ q', grantNext ⟨seeded .binary64 1, [[2#192], [2#192]], [[], []], 0⟩ = .next q' := by
  have hk : Shared.granted ⟨seeded .binary64 1, [[2#192], [2#192]], [[], []], 0⟩ = 0 ∨
      Shared.granted ⟨seeded .binary64 1, [[2#192], [2#192]], [[], []], 0⟩ = 1 := by
    have : Shared.granted ⟨seeded .binary64 1, [[2#192], [2#192]], [[], []], 0⟩ < 2 := Nat.mod_lt _ (by decide)
    omega
  unfold grantNext
  rcases hk with h | h <;> rw [h] <;> exact ⟨_, rfl⟩

theorem witness_ConfigurationIsFixed : ∃ t, step (seeded .binary32 1) = .next t := ⟨_, rfl⟩

theorem witness_OmittedOperandsAreDefaults : "UNIFB".toList = "UNIFB".toList ∧ "NORMB".toList = "NORMB".toList ∧
    "unifb".toList ∉ ["SEED".toList, "NEXTU32".toList, "NEXTUF".toList, "UNIFB".toList, "BMXF".toList, "NORMB".toList] := by
  decide

end Sys2Proof.Tests
end

section
/-! PROOFS. What commands do to the state word (R28): each advances it by its own draws, and draws add up. -/

namespace Sys2Proof.Machine

/-! ## The draws of a command that is refused for its length (R162): none -/

theorem drawsOf_unifb_of_neg {n : U32} (low high : U64) (h : batchLength n < 0) : drawsOf (.unifb n low high) = 0 :=
  Int.toNat_of_nonpos h.le

theorem drawsOf_normb_of_neg {n : U32} (mu sigma : U64) (h : batchLength n < 0) : drawsOf (.normb n mu sigma) = 0 := by
  simp [drawsOf, Int.toNat_of_nonpos h.le]

theorem wordDraws_of_ok {f : Flen} {w : CmdWord} {i : Instr} (h : decode f w = .ok i) : wordDraws f w = drawsOf i := by
  simp [wordDraws, h]

theorem wordDraws_of_error {f : Flen} {w : CmdWord} {e : Illegal} (h : decode f w = .error e) : wordDraws f w = 0 := by
  simp [wordDraws, h]

/-! ## One command, one word, many words -/

/-- A seeded block (R21) whose state word is `v`. -/
def HoldsWord (s : State) (v : U64) : Prop := s.S = some v ∧ s.SEEDED = true

/-- A refusal draws nothing (R167). -/
theorem HoldsWord.raise {s : State} {v : U64} (h : HoldsWord s v) (e : Status) : HoldsWord (s.raise e) v := h

/-- Every command but `SEED` advances the word by its draws, and by none when it is refused. -/
theorem exec_advancesWord {i : Instr} {s t : State} {v : U64} (hv : HoldsWord s v) (hi : ∀ x, i ≠ .seed x)
    (h : exec i s = .next t) : HoldsWord t (nextIter (drawsOf i) v) := by
  have ⟨hS, hE⟩ := hv
  cases i with
  | seed x => exact absurd rfl (hi x)
  | nextu32 =>
    obtain ⟨hE', _⟩ | ⟨w, _, hw, rfl⟩ := execNextu32_next h
    · simp [hE] at hE'
    · obtain rfl : v = w := by simpa [hS] using hw
      exact ⟨rfl, hE⟩
  | nextuf =>
    obtain ⟨hE', _⟩ | ⟨w, _, hw, rfl⟩ := execNextuf_next h
    · simp [hE] at hE'
    · obtain rfl : v = w := by simpa [hS] using hw
      exact ⟨rfl, hE⟩
  | unifb n low high =>
    obtain ⟨hE', _⟩ | ⟨_, hneg, rfl⟩ | ⟨w, _, _, hw, rfl⟩ := execUnifb_next h
    · simp [hE] at hE'
    · rw [drawsOf_unifb_of_neg low high hneg]
      exact hv.raise _
    · obtain rfl : v = w := by simpa [hS] using hw
      exact ⟨rfl, hE⟩
  | bmxf u1 u2 =>
    cases h
    exact hv
  | normb n mu sigma =>
    obtain ⟨hE', _⟩ | ⟨_, hneg, rfl⟩ | ⟨w, _, _, hw, rfl⟩ := runNormb_next h
    · simp [hE] at hE'
    · rw [drawsOf_normb_of_neg mu sigma hneg]
      exact hv.raise _
    · obtain rfl : v = w := by simpa [hS] using hw
      exact ⟨rfl, hE⟩

/-- Every word that spells no `SEED`, an illegal one included, advances the state word by its draws. -/
theorem runWord_advancesWord {w : CmdWord} {s t : State} {v : U64} (hv : HoldsWord s v)
    (hw : ∀ x, decode s.cfg.flen w ≠ .ok (.seed x)) (h : runWord w s = .next t) :
    HoldsWord t (nextIter (wordDraws s.cfg.flen w) v) := by
  obtain ⟨i, hd, hi⟩ | ⟨e, hd, rfl⟩ := runWord_next h
  · rw [wordDraws_of_ok hd]
    exact exec_advancesWord hv (fun x hx => hw x (hx ▸ hd)) hi
  · rw [wordDraws_of_error hd]
    exact hv.raise _

/-- A fold of commands goes on with the state its first word leaves. -/
theorem execAll_cons_next {w : CmdWord} {ws : List CmdWord} {s t : State} (h : execAll (w :: ws) s = .next t) :
    ∃ u, runWord w s = .next u ∧ execAll ws u = .next t := by
  simp only [execAll] at h
  split at h
  · exact ⟨_, ‹_›, h⟩
  all_goals cases h

/-- Draws add up along a list of words, since no word changes the format the next one is decoded for. -/
theorem execAll_advancesWord {ws : List CmdWord} {s t : State} {v : U64} (hv : HoldsWord s v)
    (hws : ∀ w ∈ ws, ∀ x, decode s.cfg.flen w ≠ .ok (.seed x)) (h : execAll ws s = .next t) :
    HoldsWord t (nextIter (ws.map (wordDraws s.cfg.flen)).sum v) := by
  induction ws generalizing s v with
  | nil =>
    cases h
    exact hv
  | cons w ws ih =>
    obtain ⟨u, hw, hrest⟩ := execAll_cons_next h
    obtain ⟨_, hcfg, _⟩ := runWord_keepsPorts hw
    have hu := runWord_advancesWord hv (hws w List.mem_cons_self) hw
    have ht := ih hu (by rw [hcfg]; exact fun w' hw' => hws w' (List.mem_cons_of_mem w hw')) hrest
    rwa [hcfg, ← nextIter_add, ← List.sum_cons, ← List.map_cons] at ht

/-- Settles O13, by induction on the list of words: each advances the state word by its own draws. -/
theorem stateIsNextPowerOfDraws : Obligations.StateIsNextPowerOfDraws :=
  fun _ _ _ _ hE hS hws h => execAll_advancesWord ⟨hS, hE⟩ hws h

end Sys2Proof.Machine
end

section
/-! PROOFS. Which words spell which command and which spell none (R63, R67, R68): `decode` read through R62's columns. -/

namespace Sys2Proof

/-! ## The opcode map -/

theorem opcodeOfCode_eq_some (c : BitVec 8) (o : Opcode) : opcodeOfCode c = some o ↔ c = o.code :=
  ⟨code_of_opcodeOfCode, fun h => h ▸ opcodeOfCode_code o⟩

theorem Opcode.code_injective {o o' : Opcode} (h : o.code = o'.code) : o = o' := by
  simpa [opcodeOfCode_code] using congrArg opcodeOfCode h

@[simp] theorem Opcode.instr_opcode (w : CmdWord) (o : Opcode) : (o.instr w).opcode = o := by cases o <;> rfl

/-! ## What a word decodes to (R69) -/

/-- R62's row of an opcode, met by a word: the row's code in `OP`, zero in every must-be-zero field. -/
def Opcode.RowMet (f : Flen) (w : CmdWord) (o : Opcode) : Prop :=
  w.op = o.code ∧ ∀ z ∈ o.zeroFields f, w.isZero z = true

theorem decode_of_opcodeOfCode_none {f : Flen} {w : CmdWord} (h : opcodeOfCode w.op = none) :
    decode f w = .error (.reservedOpcode w.op) := by
  simp [decode, h]

/-- A word with a defined opcode decodes to that opcode's command, or is rejected for a field that is not zero. -/
theorem decode_of_op {f : Flen} {w : CmdWord} {o : Opcode} (h : w.op = o.code) :
    (o.RowMet f w ∧ decode f w = .ok (o.instr w)) ∨
    (¬ o.RowMet f w ∧ ∃ z, decode f w = .error (.nonZeroField z)) := by
  have ho : opcodeOfCode w.op = some o := (opcodeOfCode_eq_some _ _).2 h
  cases hz : (o.zeroFields f).find? (fun z => !w.isZero z) with
  | none => exact .inl ⟨⟨h, by simpa using hz⟩, by simp [decode, ho, hz]⟩
  | some z =>
    have hm : z ∈ o.zeroFields f := List.mem_of_find?_eq_some hz
    have hn : w.isZero z = false := by simpa using List.find?_some hz
    exact .inr ⟨fun hr => by simp [hr.2 z hm] at hn, z, by simp [decode, ho, hz]⟩

/-- A word spells a command of an opcode exactly when it meets the opcode's row. -/
theorem decode_ok_opcode_iff (f : Flen) (w : CmdWord) (o : Opcode) :
    (∃ i, decode f w = .ok i ∧ i.opcode = o) ↔ o.RowMet f w := by
  constructor
  · rintro ⟨i, hd, rfl⟩
    cases hop : opcodeOfCode w.op with
    | none => simp [decode_of_opcodeOfCode_none hop] at hd
    | some o =>
      obtain ⟨hr, hok⟩ | ⟨_, z, he⟩ := decode_of_op (f := f) (code_of_opcodeOfCode hop)
      · obtain rfl : o.instr w = i := by simpa [hok] using hd
        simpa using hr
      · simp [he] at hd
  · intro hr
    obtain ⟨_, hok⟩ | ⟨hn, _⟩ := decode_of_op (f := f) hr.1
    · exact ⟨_, hok, o.instr_opcode w⟩
    · exact absurd hr hn

/-- A word is rejected for its opcode exactly when the opcode is reserved. -/
theorem decode_reservedOpcode_iff (f : Flen) (w : CmdWord) :
    decode f w = .error (.reservedOpcode w.op) ↔ opcodeOfCode w.op = none := by
  refine ⟨fun he => ?_, decode_of_opcodeOfCode_none⟩
  cases hop : opcodeOfCode w.op with
  | none => rfl
  | some o => obtain ⟨_, h⟩ | ⟨_, z, h⟩ := decode_of_op (f := f) (code_of_opcodeOfCode hop) <;> simp [h] at he

/-- A word with a defined opcode is illegal exactly when it does not meet the opcode's row. -/
theorem decode_error_iff_of_op {f : Flen} {w : CmdWord} {o : Opcode} (h : w.op = o.code) :
    (∃ e, decode f w = .error e) ↔ ¬ o.RowMet f w := by
  obtain ⟨hr, hok⟩ | ⟨hn, z, he⟩ := decode_of_op (f := f) h
  · simp [hr, hok]
  · simp [hn, he]

/-! ## The must-be-zero fields (R62) -/

@[simp] theorem CmdWord.isZero_rsv (w : CmdWord) : w.isZero .rsv = true ↔ w.rsv = 0 := beq_iff_eq
@[simp] theorem CmdWord.isZero_n (w : CmdWord) : w.isZero .n = true ↔ w.n = 0 := beq_iff_eq
@[simp] theorem CmdWord.isZero_a (w : CmdWord) : w.isZero .a = true ↔ w.a = 0 := beq_iff_eq
@[simp] theorem CmdWord.isZero_b (w : CmdWord) : w.isZero .b = true ↔ w.b = 0 := beq_iff_eq
@[simp] theorem CmdWord.isZero_aHi (w : CmdWord) : w.isZero .aHi = true ↔ w.a.extractLsb' 32 32 = 0 := beq_iff_eq
@[simp] theorem CmdWord.isZero_bHi (w : CmdWord) : w.isZero .bHi = true ↔ w.b.extractLsb' 32 32 = 0 := beq_iff_eq

theorem floatFieldOk_iff (f : Flen) (x : U64) :
    floatFieldOk f x = true ↔ (f = .binary32 → x.extractLsb' 32 32 = 0) := by
  cases f <;> simp [floatFieldOk]

/-- The upper halves that must be zero are those of the two float operands (R65). -/
theorem floatHalves_isZero (f : Flen) (w : CmdWord) :
    (∀ z ∈ floatHalves f, w.isZero z = true) ↔ floatFieldOk f w.a = true ∧ floatFieldOk f w.b = true := by
  cases f <;> simp [floatHalves, floatFieldOk_iff]

/-! ## The mask of a row (R63) -/

/-- Masking with the upper half of a field keeps that half. -/
theorem and_upperMask (x : U64) : x &&& floatMask .binary32 = x.extractLsb' 32 32 ++ (0 : U32) := by
  have hx : x.extractLsb' 32 32 ++ x.extractLsb' 0 32 = x := BitVec.extractLsb'_append_extractLsb' (w := 32) (len := 32)
  calc x &&& floatMask .binary32
      = (x.extractLsb' 32 32 ++ x.extractLsb' 0 32) &&& (BitVec.allOnes 32 ++ (0 : U32)) := by rw [hx]; rfl
    _ = x.extractLsb' 32 32 ++ (0 : U32) := by rw [BitVec.and_append, BitVec.and_allOnes]; simp

theorem and_floatMask_eq_zero (f : Flen) (x : U64) : x &&& floatMask f = 0 ↔ floatFieldOk f x = true := by
  cases f with
  | binary64 => simp [floatMask, floatFieldOk]
  | binary32 =>
    rw [and_upperMask, floatFieldOk_iff]
    refine ⟨fun h _ => ?_, fun h => by rw [h rfl]; rfl⟩
    rw [← BitVec.extractLsb'_append_eq_left (a := x.extractLsb' 32 32) (b := (0 : U32)), h]
    rfl

theorem and_neg_one {n : Nat} (x : BitVec n) : x &&& -1 = x := by
  rw [show (-1 : BitVec n) = BitVec.allOnes n from BitVec.neg_one_eq_allOnes, BitVec.and_allOnes]

theorem Opcode.matchWord_eq_assemble (o : Opcode) : o.matchWord = assemble o.code 0 0 0 0 := by cases o <;> rfl

/-- `(w & mask) = match` says that the word meets the row: field by field, the mask keeps what the row asks to be zero. -/
theorem and_mask_eq_matchWord_iff (f : Flen) (w : CmdWord) (o : Opcode) :
    w &&& o.mask f = o.matchWord ↔ o.RowMet f w := by
  rw [Opcode.matchWord_eq_assemble, Opcode.RowMet]
  conv_lhs => rw [← assemble_fields w]
  cases o <;>
    simp only [Opcode.mask, Opcode.zeroFields, assemble_and, assemble_inj, and_neg_one, and_floatMask_eq_zero,
      List.forall_mem_cons, floatHalves_isZero] <;>
    simp

/-- A word meets one row at most. -/
theorem Opcode.RowMet.unique {f : Flen} {w : CmdWord} {o o' : Opcode} (h : o.RowMet f w) (h' : o'.RowMet f w) : o = o' :=
  Opcode.code_injective (h.1.symm.trans h'.1)

/-! ## Which words are illegal (R67, R68) -/

/-- The illegal words of a format, field by field: a reserved opcode, or a field that is not zero and must be. -/
def IllegalWord (f : Flen) (w : CmdWord) : Prop :=
  w.op.toNat = 0 ∨ 7 ≤ w.op.toNat ∨ w.rsv ≠ 0 ∨
  (w.op.toNat ∈ [1, 2, 3, 5] ∧ w.n ≠ 0) ∨ (w.op.toNat ∈ [2, 3] ∧ w.a ≠ 0) ∨ (w.op.toNat ∈ [1, 2, 3] ∧ w.b ≠ 0) ∨
  (f = .binary32 ∧ w.op.toNat ∈ [4, 5, 6] ∧ (w.a.extractLsb' 32 32 ≠ 0 ∨ w.b.extractLsb' 32 32 ≠ 0))

/-- Under a defined opcode, the fields that make a word illegal are those of the opcode's row. -/
theorem not_rowMet_iff_illegalWord {f : Flen} {w : CmdWord} {o : Opcode} (h : w.op = o.code) :
    ¬ o.RowMet f w ↔ IllegalWord f w := by
  unfold Opcode.RowMet IllegalWord
  cases o <;>
    simp [h, Opcode.code, Opcode.zeroFields, floatHalves_isZero, floatFieldOk_iff] <;>
    tauto

theorem decode_error_iff_illegalWord (f : Flen) (w : CmdWord) : (∃ e, decode f w = .error e) ↔ IllegalWord f w := by
  cases hop : opcodeOfCode w.op with
  | none =>
    have hres := (opcodeOfCode_none w.op).1 hop
    exact ⟨fun _ => hres.imp_right .inl, fun _ => ⟨_, decode_of_opcodeOfCode_none hop⟩⟩
  | some o =>
    have ho := code_of_opcodeOfCode hop
    rw [decode_error_iff_of_op ho, not_rowMet_iff_illegalWord ho]

namespace Machine

/-- An illegal word is answered by the refusal alone (R163, R167). -/
theorem runWord_of_decode_error {w : CmdWord} {s : State} {e : Illegal} (h : decode s.cfg.flen w = .error e) :
    runWord w s = refusedWith .illegalCommand s := by
  simp only [runWord, h]
  rfl

theorem runWord_of_reservedOpcode {w : CmdWord} (h : w.op.toNat = 0 ∨ 7 ≤ w.op.toNat) (s : State) :
    runWord w s = refusedWith .illegalCommand s :=
  runWord_of_decode_error (decode_of_opcodeOfCode_none ((opcodeOfCode_none _).2 h))

/-- Settles O3: a word matches under a row's mask exactly when it meets the row, and so exactly when it decodes to it. -/
theorem maskAndMatchTable : Obligations.MaskAndMatchTable := by
  refine ⟨fun f w o => (decode_ok_opcode_iff f w o).trans (and_mask_eq_matchWord_iff f w o).symm,
    fun _ => rfl, fun _ => rfl, fun _ => rfl, rfl, rfl, rfl, rfl, rfl, rfl, rfl, rfl, rfl, rfl, rfl, rfl,
    fun f w o o' h h' => ?_⟩
  exact ((and_mask_eq_matchWord_iff f w o).1 h).unique ((and_mask_eq_matchWord_iff f w o').1 h')

/-- Settles O4: the opcode map has no opcode for exactly these codes. -/
theorem reservedOpcodesIllegal : Obligations.ReservedOpcodesIllegal :=
  ⟨fun f w => (decode_reservedOpcode_iff f w).trans (opcodeOfCode_none w.op),
    fun _ s h => runWord_of_reservedOpcode h s, runWord_of_reservedOpcode (.inl rfl)⟩

/-- Settles O5: a word with a defined opcode is illegal exactly when it does not meet that opcode's row. -/
theorem illegalWordsExactly : Obligations.IllegalWordsExactly := fun w s =>
  have h := decode_error_iff_illegalWord s.cfg.flen w
  ⟨h, fun hi => (h.2 hi).elim fun _ he => runWord_of_decode_error he⟩

end Machine

end Sys2Proof
end

section
/-! PROOFS. The shape of a response (R72): data beats, then one completion beat that counts them. -/

namespace Sys2Proof.Machine

/-- What a command with `n` data values of its own leaves between two states: data beats and then one completion beat that
counts them, `n` of them with status `OK`, none of them and `DOM = 0` with another status. -/
def Responds (n : Nat) (s t : State) : Prop :=
  ∃ (ds : List U64) (status : Status) (dom : Bool) (count : U32),
    t.pending = s.pending ++ ds.map Beat.data ++ [.completion status dom count] ∧ count.toNat = ds.length ∧
    (status = .ok → ds.length = n) ∧ (status ≠ .ok → ds = [] ∧ dom = false)

theorem responds_raise (n : Nat) (s : State) {e : Status} (he : e ≠ .ok) : Responds n s (s.raise e) :=
  ⟨[], e, false, 0, by simp, rfl, fun h => absurd h he, fun _ => ⟨rfl, rfl⟩⟩

theorem responds_of_emitted {n : Nat} {s t : State} (ds : List U64) {dom : Bool} {count : U32}
    (ht : t.pending = s.pending ++ ds.map Beat.data ++ [.completion .ok dom count]) (hn : ds.length = n)
    (hc : count.toNat = n) : Responds n s t :=
  ⟨ds, .ok, dom, count, ht, hc.trans hn.symm, fun _ => hn, fun h => absurd rfl h⟩

theorem responds_emitFloats {n : Nat} {s u : State} {vs : List Flt} {dom : Bool} {count : U32}
    (hu : u.pending = s.pending) (hn : vs.length = n) (hc : count.toNat = n) :
    Responds n s ((u.emitFloats vs).complete .ok dom count) :=
  responds_of_emitted (packAll u.source u.cfg.flen u.nanDraws vs)
    (by rw [State.complete_pending, State.emitFloats_pending, hu]) (by rw [packAll_length, hn]) hc

/-- Every answered command is a response with the command's own number of data beats. -/
theorem exec_responds {i : Instr} {s t : State} (h : exec i s = .next t) : Responds (dataBeatsOf i) s t := by
  cases i with
  | seed v =>
    cases h
    exact responds_of_emitted (dom := false) (count := 0) [] (by simp) rfl rfl
  | nextu32 =>
    obtain ⟨_, rfl⟩ | ⟨w, _, _, rfl⟩ := execNextu32_next h
    · exact responds_raise _ s nofun
    · exact responds_of_emitted [_] rfl rfl rfl
  | nextuf =>
    obtain ⟨_, rfl⟩ | ⟨w, _, _, rfl⟩ := execNextuf_next h
    · exact responds_raise _ s nofun
    · exact responds_emitFloats rfl rfl rfl
  | unifb n low high =>
    obtain ⟨_, rfl⟩ | ⟨_, _, rfl⟩ | ⟨w, _, hn, _, rfl⟩ := execUnifb_next h
    · exact responds_raise _ s nofun
    · exact responds_raise _ s nofun
    · exact responds_emitFloats rfl (uniformBatch_length ..) (batchLength_toNat hn).symm
  | bmxf u1 u2 =>
    cases h
    exact responds_emitFloats rfl rfl rfl
  | normb n mu sigma =>
    obtain ⟨_, rfl⟩ | ⟨_, _, rfl⟩ | ⟨w, _, hn, _, rfl⟩ := runNormb_next h
    · exact responds_raise _ s nofun
    · exact responds_raise _ s nofun
    · exact responds_emitFloats rfl (normalBatch_length (h := rfl) ..) (batchLength_toNat hn).symm

/-- Settles O9: an answered word is a command's response or the refusal of an illegal word. -/
theorem countIsDataBeats : Obligations.CountIsDataBeats := by
  intro w s t h
  obtain ⟨i, hd, hi⟩ | ⟨e, _, rfl⟩ := runWord_next h
  · obtain ⟨ds, status, dom, count, hp, hc, hok, hno⟩ := exec_responds hi
    exact ⟨ds, status, dom, count, hp, hc, fun hs => ⟨i, hd, hok hs⟩, hno⟩
  · exact ⟨[], .illegalCommand, false, 0, by simp, rfl, nofun, fun _ => ⟨rfl, rfl⟩⟩

end Sys2Proof.Machine
end

section
/-! PROOFS. The pseudo-commands (R75): what the assembler reads of an omitted operand and of its default written out. -/

namespace Sys2Proof

/-! ## The default operands' text and encodings -/

theorem readDecimal_zero (f : Flen) : readDecimal f "0.0".toList = some (ofDecimal f false (10 * 0) (-1)) := rfl
theorem readDecimal_one (f : Flen) : readDecimal f "1.0".toList = some (ofDecimal f false (10 * 1) (-1)) := rfl

/-- `10 k` tenths are `k` exactly, where `k` is a number of the format. -/
theorem ofDecimal_tenths {f : Flen} {k m : Nat} (hm : m = k * f.oneMag) (h : (Flt.fin false m).representable f = true) :
    ofDecimal f false (10 * k) (-1) = .fin false m := by
  have he : 10 * k * 10 ^ (-1 : Int).toNat * f.oneMag = m * 10 := by rw [hm, show (-1 : Int).toNat = 0 from rfl]; ring
  rw [ofDecimal, he]
  exact roundToF_exact f false h (by decide)

theorem zero_representable (f : Flen) : (Flt.fin false 0).representable f = true :=
  (Machine.representable_fin f false 0).2 ⟨Nat.two_pow_pos _, Nat.zero_mod _⟩

theorem one_representable (f : Flen) : f.one.representable f = true :=
  (Machine.representable_fin f false _).2
    ⟨Nat.pow_lt_pow_right (by decide) (by cases f <;> decide), hasSpacing_two_pow f _⟩

/-- What is neither a raw encoding nor a name is read as a decimal literal. -/
theorem readFloat_decimal {f : Flen} {t : List Char} {v : Flt}
    (hbits : dropPrefix ['b', 'i', 't', 's', ':', '0', 'x'] t = none)
    (hnames : t ∉ [['i', 'n', 'f'], ['-', 'i', 'n', 'f'], ['n', 'a', 'n']]) (h : readDecimal f t = some v) :
    readFloat f t = some (packF f (Config.asmNan f) v) := by
  simp only [List.mem_cons, List.not_mem_nil, or_false, not_or] at hnames
  obtain ⟨hinf, hneginf, hnan⟩ := hnames
  simp [readFloat, hbits, hinf, hneginf, hnan, h]

/-- `0.0` written out is the first operand omitted. -/
theorem readFloat_zero (f : Flen) : readFloat f "0.0".toList = some (defaultZero f) := by
  refine readFloat_decimal rfl (by decide) ?_
  rw [readDecimal_zero, ofDecimal_tenths (Nat.zero_mul _).symm (zero_representable f)]

/-- `1.0` written out is the second operand omitted. -/
theorem readFloat_one (f : Flen) : readFloat f "1.0".toList = some (defaultOne f) := by
  refine readFloat_decimal rfl (by decide) ?_
  rw [readDecimal_one, ofDecimal_tenths (Nat.one_mul _).symm (one_representable f), Flen.one]

/-- An operand left out between two commas is no float literal. -/
theorem readFloat_nil (f : Flen) : readFloat f [] = none := rfl

/-- 1.0 has the bias as its exponent field and no fraction. -/
theorem bitsOfMag_oneMag (f : Flen) : bitsOfMag f f.oneMag = f.bias * 2 ^ f.fracBits := by
  have h : magOfBits f (f.bias * 2 ^ f.fracBits) = f.oneMag := by
    have hb : f.bias ≠ 0 := by cases f <;> decide
    have he : f.fracBits + (f.bias - 1) = f.unitExp := by unfold Flen.unitExp; omega
    simp [magOfBits, hb, ← Nat.pow_add, he, Flen.oneMag]
  rw [← h, bitsOfMag_magOfBits]

theorem defaultZero_eq (f : Flen) : defaultZero f = 0 := by cases f <;> rfl

theorem defaultOne_eq (f : Flen) : defaultOne f = encoding f false (f.bias * 2 ^ f.fracBits) :=
  congrArg (encoding f false) (bitsOfMag_oneMag f)

/-! ## Lines with operands omitted -/

theorem commandLine_unifb (f : Flen) (ops : List (List Char)) :
    commandLine f "UNIFB".toList ops = batchOperands f .unifb ops := rfl

theorem commandLine_normb (f : Flen) (ops : List (List Char)) :
    commandLine f "NORMB".toList ops = batchOperands f .normb ops := rfl

/-- Both batch commands read their operands alike. -/
theorem commandLine_batch (f : Flen) {name : List Char} (h : name = "UNIFB".toList ∨ name = "NORMB".toList) :
    ∃ mk, ∀ ops, commandLine f name ops = batchOperands f mk ops := by
  obtain rfl | rfl := h
  · exact ⟨.unifb, commandLine_unifb f⟩
  · exact ⟨.normb, commandLine_normb f⟩

section
variable (f : Flen) (mk : U32 → U64 → U64 → Instr) (n x : List Char)

theorem batchOperands_omit_both :
    batchOperands f mk [n] = batchOperands f mk [n, "0.0".toList, "1.0".toList] := by
  simp only [batchOperands, readFloat_zero, readFloat_one, Option.map_eq_bind, Option.bind_some, Function.comp_def]

theorem batchOperands_omit_last : batchOperands f mk [n, x] = batchOperands f mk [n, x, "1.0".toList] := by
  simp only [batchOperands, readFloat_one, Option.map_eq_bind, Option.bind_some, Function.comp_def]

theorem batchOperands_omit_middle : batchOperands f mk [n, [], x] = .bad := by
  simp only [batchOperands, readFloat_nil, Option.bind_none, Option.bind_fun_none]
  rfl

end

theorem commandLine_unknown (f : Flen) {name : List Char} (ops : List (List Char))
    (h : name ∉ ["SEED".toList, "NEXTU32".toList, "NEXTUF".toList, "UNIFB".toList, "BMXF".toList, "NORMB".toList]) :
    commandLine f name ops = .bad := by
  simp only [List.mem_cons, List.not_mem_nil, or_false, not_or] at h
  obtain ⟨hSeed, hNextu32, hNextuf, hUnifb, hBmxf, hNormb⟩ := h
  calc commandLine f name ops
      = _ := if_neg hSeed
    _ = _ := if_neg hNextu32
    _ = _ := if_neg hNextuf
    _ = _ := if_neg hUnifb
    _ = _ := if_neg hBmxf
    _ = .bad := if_neg hNormb

/-- Settles O59: the defaults written out are read as the operands the omission stands for. -/
theorem omittedOperandsAreDefaults : Obligations.OmittedOperandsAreDefaults := by
  refine ⟨fun f name n x h => ?_, fun f name n x h => ?_, fun f x => ⟨rfl, rfl, rfl⟩,
    fun f name ops h => commandLine_unknown f ops h, ?_, ?_, ?_, ?_⟩
  · obtain ⟨mk, hmk⟩ := commandLine_batch f h
    simp only [hmk]
    exact ⟨batchOperands_omit_both f mk n, batchOperands_omit_last f mk n x⟩
  · obtain ⟨mk, hmk⟩ := commandLine_batch f h
    simp only [hmk]
    exact ⟨batchOperands_omit_middle f mk n x, rfl⟩
  · rw [readFloat_zero, defaultZero_eq]
  · rw [readFloat_zero, defaultZero_eq]
  · rw [readFloat_one, defaultOne_eq]; rfl
  · rw [readFloat_one, defaultOne_eq]; rfl

end Sys2Proof
end

section
/-! PROOFS. Two blocks side by side (R95): what keeps them in step, each shared operation once and each command from
these, so that the fold over a list of words does. -/

namespace Sys2Proof

/-! ## Encodings of a value under two NaN choices (R8, R73) -/

theorem isQuietNaN_iff (f : Flen) (d : U64) : Machine.isQuietNaN f d = true ↔
    d.toNat / 2 ^ (f.fracBits - 1) % 2 ^ (f.expBits + 1) = 2 ^ (f.expBits + 1) - 1 ∧ d.toNat < 2 ^ (f.signBit + 1) := by
  simp [Machine.isQuietNaN]

/-- Every NaN choice is packed as a quiet NaN of the format: the payload stays below the top fraction bit. -/
theorem isQuietNaN_quietNaN (f : Flen) (c : Bool × Nat) : Machine.isQuietNaN f (quietNaN f c) = true := by
  have hpay : c.2 % 2 ^ (f.fracBits - 1) < 2 ^ (f.fracBits - 1) := Nat.mod_lt _ (Nat.two_pow_pos _)
  rw [isQuietNaN_iff, quietNaN]
  generalize c.2 % 2 ^ (f.fracBits - 1) = payload at hpay ⊢
  have hlt : f.expOnes * 2 ^ f.fracBits + 2 ^ (f.fracBits - 1) + payload < 2 ^ f.signBit := by
    cases f <;> simp only [Flen.signBit, Flen.expOnes, Flen.expBits, Flen.fracBits] at hpay ⊢ <;> omega
  rw [encoding_toNat f c.1 _ hlt]
  cases f <;> simp only [Flen.signBit, Flen.expOnes, Flen.expBits, Flen.fracBits] at hpay ⊢ <;> split_ifs <;> omega

namespace Machine

theorem sameUpToNaN_packF (f : Flen) (c c' : Bool × Nat) (v : Flt) : SameUpToNaN f (packF f c v) (packF f c' v) := by
  cases v with
  | nan => exact .inr ⟨isQuietNaN_quietNaN f c, isQuietNaN_quietNaN f c'⟩
  | inf neg => exact .inl rfl
  | fin neg m => exact .inl rfl

/-- The same values packed with the choices of two sources, wherever each of these stands. -/
theorem sameUpToNaN_packAll (f : Flen) (src src' k k' : Nat) (vs : List Flt) :
    List.Forall₂ (SameUpToNaN f) (packAll src f k vs) (packAll src' f k' vs) := by
  induction vs generalizing k k' with
  | nil => exact .nil
  | cons v vs ih => exact .cons (sameUpToNaN_packF f _ _ v) (ih _ _)

/-! ## Commands under two sets of elementary functions -/

/-- Under the same configuration `Transform` is the same function of its operands, whatever the names. -/
theorem SameConfig.transform_eq {c c' : Config} (h : SameConfig c c') :
    transform c.elem c.flen = transform c'.elem c'.flen := by
  obtain ⟨hf, hln, hcos, hsin⟩ := h
  funext u1 u2
  simp only [transform, radius, ← hf, hln, hcos, hsin]

/-- A normal batch reads the elementary functions through `Transform` alone. -/
theorem normalBatch_congr {E E' : ElemFns} {f : Flen} (h : transform E f = transform E' f) (mu sigma : Flt)
    (p left : Nat) (w : U64) : normalBatch E f mu sigma p left w = normalBatch E' f mu sigma p left w := by
  induction p generalizing left w with
  | zero => rfl
  | succ p ih => simp only [normalBatch, h, ih]

/-! ## Two states in step -/

/-- Two states of format `f` that have the same configuration, word and flag, and have answered the same beats up to the
choice of NaN since their streams were `p` and `p'`. -/
structure InStep (f : Flen) (p p' : List Beat) (s s' : State) : Prop where
  flen : s.cfg.flen = f
  config : SameConfig s.cfg s'.cfg
  word : s.S = s'.S
  seeded : s.SEEDED = s'.SEEDED
  beats : ∃ bs bs', s.pending = p ++ bs ∧ s'.pending = p' ++ bs' ∧ List.Forall₂ (BeatsAgree f) bs bs'

/-- Where both of two outcomes are next states, these are in step. -/
def BothInStep (f : Flen) (p p' : List Beat) (o o' : Host.Outcome State Fault Refusal) : Prop :=
  ∀ t t', o = .next t → o' = .next t' → InStep f p p' t t'

section
variable {f : Flen} {p p' : List Beat} {s s' : State}

theorem InStep.flen' (h : InStep f p p' s s') : s'.cfg.flen = f := h.config.1.symm.trans h.flen

theorem InStep.bothNext (h : InStep f p p' s s') : BothInStep f p p' (.next s) (.next s') := by
  rintro _ _ ⟨⟩ ⟨⟩
  exact h

/-- The beats each has answered since agree. -/
theorem InStep.beatsAgree (h : InStep f p p' s s') :
    List.Forall₂ (BeatsAgree f) (s.pending.drop p.length) (s'.pending.drop p'.length) := by
  obtain ⟨bs, bs', hp, hp', hbs⟩ := h.beats
  rwa [hp, hp', List.drop_left, List.drop_left]

/-! ## The shared operations keep two states in step -/

/-- Beats that agree, appended to both streams. -/
theorem InStep.append_beats (h : InStep f p p' s s') {ds ds' : List Beat} (hds : List.Forall₂ (BeatsAgree f) ds ds') :
    ∃ bs bs', s.pending ++ ds = p ++ bs ∧ s'.pending ++ ds' = p' ++ bs' ∧ List.Forall₂ (BeatsAgree f) bs bs' := by
  obtain ⟨bs, bs', hp, hp', hbs⟩ := h.beats
  exact ⟨bs ++ ds, bs' ++ ds', by rw [hp, List.append_assoc], by rw [hp', List.append_assoc], List.rel_append hbs hds⟩

theorem InStep.setS (h : InStep f p p' s s') (w : U64) : InStep f p p' (s.setS w) (s'.setS w) :=
  ⟨h.flen, h.config, rfl, h.seeded, h.beats⟩

theorem InStep.setSeeded (h : InStep f p p' s s') : InStep f p p' s.setSeeded s'.setSeeded :=
  ⟨h.flen, h.config, h.word, rfl, h.beats⟩

theorem InStep.emit (h : InStep f p p' s s') {ds ds' : List U64} (hds : List.Forall₂ (SameUpToNaN f) ds ds') :
    InStep f p p' (s.emit ds) (s'.emit ds') :=
  ⟨h.flen, h.config, h.word, h.seeded,
    h.append_beats (List.forall₂_map_left_iff.2 (List.forall₂_map_right_iff.2 hds))⟩

theorem InStep.emitFloats (h : InStep f p p' s s') (vs : List Flt) :
    InStep f p p' (s.emitFloats vs) (s'.emitFloats vs) := by
  have hds : List.Forall₂ (SameUpToNaN f) (packAll s.source s.cfg.flen s.nanDraws vs)
      (packAll s'.source s'.cfg.flen s'.nanDraws vs) := by
    rw [h.flen, h.flen']
    exact sameUpToNaN_packAll f _ _ _ _ vs
  exact ⟨h.flen, h.config, h.word, h.seeded, (h.emit hds).beats⟩

theorem InStep.complete (h : InStep f p p' s s') (status : Status) (dom : Bool) (count : U32) :
    InStep f p p' (s.complete status dom count) (s'.complete status dom count) :=
  ⟨h.flen, h.config, h.word, h.seeded, h.append_beats (.cons ⟨rfl, rfl, rfl⟩ .nil)⟩

theorem InStep.raise (h : InStep f p p' s s') (e : Status) : InStep f p p' (s.raise e) (s'.raise e) :=
  h.complete e false 0

/-- The head of a drawing command refuses both or hands both the same word. -/
theorem InStep.drawing (h : InStep f p p' s s') (n : Int) {k k' : U64 → Host.Outcome State Fault Refusal}
    (hk : ∀ w, BothInStep f p p' (k w) (k' w)) : BothInStep f p p' (drawing n s k) (drawing n s' k') := by
  unfold Machine.drawing
  rw [← h.word, ← h.seeded]
  split_ifs
  · exact (h.raise _).bothNext
  · cases s.S with
    | none => rintro _ _ ⟨⟩
    | some w => exact hk w
  · exact (h.raise _).bothNext

/-! ## Commands and words keep two states in step -/

theorem InStep.exec (h : InStep f p p' s s') (i : Instr) : BothInStep f p p' (exec i s) (exec i s') := by
  have hf := h.flen
  have hf' := h.flen'
  have htr : transform s.cfg.elem f = transform s'.cfg.elem f := by simpa only [hf, hf'] using h.config.transform_eq
  cases i with
  | seed v => exact (((h.setS v).setSeeded).complete .ok false 0).bothNext
  | nextu32 => exact h.drawing 1 fun w => (((h.setS _).emit (.cons (.inl rfl) .nil)).complete .ok false 1).bothNext
  | nextuf =>
    refine h.drawing 1 fun w => ?_
    rw [hf, hf']
    exact (((h.setS _).emitFloats _).complete .ok false 1).bothNext
  | unifb n low high =>
    refine h.drawing _ fun w => ?_
    rw [hf, hf']
    exact (((h.setS _).emitFloats _).complete .ok false n).bothNext
  | bmxf u1 u2 =>
    simp only [Machine.exec, execBmxf, runBmxf, hf, hf', htr]
    exact ((h.emitFloats _).complete .ok _ 2).bothNext
  | normb n mu sigma =>
    refine h.drawing _ fun w => ?_
    simp only [hf, hf', normalBatch_congr htr]
    exact (((h.setS _).emitFloats _).complete .ok _ n).bothNext

theorem InStep.runWord (h : InStep f p p' s s') (w : CmdWord) : BothInStep f p p' (runWord w s) (runWord w s') := by
  unfold Machine.runWord
  rw [h.flen, h.flen']
  cases decode f w with
  | ok i => exact h.exec i
  | error e => exact (h.raise _).bothNext

theorem InStep.execAll (h : InStep f p p' s s') (ws : List CmdWord) :
    BothInStep f p p' (execAll ws s) (execAll ws s') := by
  induction ws generalizing s s' with
  | nil => exact h.bothNext
  | cons w ws ih =>
    intro t t' ht ht'
    obtain ⟨u, hu, ht⟩ := execAll_cons_next ht
    obtain ⟨u', hu', ht'⟩ := execAll_cons_next ht'
    exact ih (h.runWord w u u' hu hu') t t' ht ht'

end

/-- `SEED` puts any two blocks of the same configuration in step, whatever they held before. -/
theorem inStep_of_seed {seed : U64} {s s' a a' : State} (hc : SameConfig s.cfg s'.cfg)
    (ha : exec (.seed seed) s = .next a) (ha' : exec (.seed seed) s' = .next a') :
    InStep s.cfg.flen a.pending a'.pending a a' := by
  cases ha
  cases ha'
  exact ⟨rfl, hc, rfl, rfl, [], [], by simp, by simp, .nil⟩

theorem holdsWord_of_seed {seed : U64} {s a : State} (ha : exec (.seed seed) s = .next a) :
    HoldsWord a seed ∧ a.cfg = s.cfg := by
  cases ha
  exact ⟨⟨rfl, rfl⟩, rfl⟩

/-- Settles O55: `SEED` puts two blocks in step and every word keeps them there; the state word alone is `Next^k` of the
seed on each side, `k` the number of its draws. -/
theorem sameSeedSameResponses : Obligations.SameSeedSameResponses := by
  refine ⟨fun ws seed s s' a a' t t' hc ha ha' ht ht' => ?_,
    fun ws ws' seed s s' a a' t t' ha ha' hws hws' hsum ht ht' => ?_⟩
  · have h := (inStep_of_seed hc ha ha').execAll ws t t' ht ht'
    exact ⟨h.word, h.seeded, h.beatsAgree⟩
  · obtain ⟨hv, hcfg⟩ := holdsWord_of_seed ha
    obtain ⟨hv', hcfg'⟩ := holdsWord_of_seed ha'
    rw [← hcfg] at hws hsum
    rw [← hcfg'] at hws' hsum
    calc t.S = _ := (execAll_advancesWord hv hws ht).1
      _ = _ := by rw [hsum]
      _ = t'.S := (execAll_advancesWord hv' hws' ht').1.symm

end Machine

end Sys2Proof
end

section
/-! PROOFS. The generator: `Next` and `Out` as arithmetic (R90, R91), the zero state (R92), `Next` as a bijection (R96), and
the two commands of 40_generator.md (R93, R94). -/

namespace Sys2Proof.Machine

/-! ## Next and Out as integer arithmetic (R90, R91) -/

theorem toNat_xor_ushiftRight (s : U64) (k : Nat) : (s ^^^ (s >>> k)).toNat = s.toNat ^^^ (s.toNat / 2 ^ k) := by
  rw [BitVec.toNat_xor, BitVec.toNat_ushiftRight, Nat.shiftRight_eq_div_pow]

theorem toNat_xor_shiftLeft (s : U64) (k : Nat) : (s ^^^ (s <<< k)).toNat = s.toNat ^^^ (s.toNat * 2 ^ k % 2 ^ 64) := by
  rw [BitVec.toNat_xor, BitVec.toNat_shiftLeft, Nat.shiftLeft_eq]

theorem nextWord_toNat (s : U64) :
    let t1 := s.toNat ^^^ (s.toNat / 2 ^ 12)
    let t2 := t1 ^^^ (t1 * 2 ^ 25 % 2 ^ 64)
    (nextWord s).toNat = t2 ^^^ (t2 / 2 ^ 27) := by
  simp only [nextWord, toNat_xor_ushiftRight, toNat_xor_shiftLeft]

theorem multiplier_toNat : multiplier.toNat = 2685821657736338717 := rfl

/-- The result is the upper half of the product reduced modulo 2^64. -/
theorem outWord_toNat (s : U64) : (outWord s).toNat = s.toNat * 2685821657736338717 % 2 ^ 64 / 2 ^ 32 := by
  rw [outWord, BitVec.extractLsb'_toNat, BitVec.toNat_mul, multiplier_toNat, Nat.shiftRight_eq_div_pow, Nat.mod_eq_of_lt]
  omega

/-- Settles O10: bits 63 to 32 of the product are those of the product reduced modulo 2^64. -/
theorem nextAndOutArithmetic : Obligations.NextAndOutArithmetic := fun s =>
  ⟨nextWord_toNat s, outWord_toNat s,
    (outWord_toNat s).trans (Nat.mod_mul_right_div_self (s.toNat * 2685821657736338717) (2 ^ 32) (2 ^ 32)), rfl⟩

/-! ## Next is a bijection (R96) -/

/-- A word xored with a shift of itself: no two words give the same one, where the shift distributes over xor and leaves no
word but 0 as it was. -/
theorem xorShift_injective {shift : U64 → U64} (hxor : ∀ x y, shift (x ^^^ y) = shift x ^^^ shift y)
    (hfix : ∀ z, shift z = z → z = 0) : Function.Injective fun x => x ^^^ shift x := by
  intro x y h
  have hz : shift (x ^^^ y) = x ^^^ y := by
    have hxy : x ^^^ shift x = y ^^^ shift y := h
    calc shift (x ^^^ y) = shift x ^^^ shift y := hxor x y
      _ = x ^^^ (x ^^^ shift x) ^^^ shift y := by rw [← BitVec.xor_assoc, BitVec.xor_self, BitVec.zero_xor]
      _ = x ^^^ y := by rw [hxy, BitVec.xor_assoc, BitVec.xor_assoc, BitVec.xor_self, BitVec.xor_zero]
  exact BitVec.xor_eq_zero_iff.1 (hfix _ hz)

theorem xor_ushiftRight_injective {k : Nat} (hk : k ≠ 0) : Function.Injective fun x : U64 => x ^^^ (x >>> k) := by
  refine xorShift_injective (fun x y => BitVec.ushiftRight_xor_distrib x y k) fun z hz => ?_
  have hdiv : z.toNat / 2 ^ k = z.toNat := by
    rw [← Nat.shiftRight_eq_div_pow, ← BitVec.toNat_ushiftRight, hz]
  obtain h0 | hk' := (Nat.div_eq_self).1 hdiv
  · exact BitVec.eq_of_toNat_eq h0
  · exact absurd hk' (Nat.one_lt_two_pow hk).ne'

/-- A fixed point of the left shift is a multiple of 2^64, since `2^25 - 1` is odd. -/
theorem xor_shiftLeft_injective : Function.Injective fun x : U64 => x ^^^ (x <<< 25) := by
  refine xorShift_injective (fun x y => BitVec.shiftLeft_xor_distrib x y 25) fun z hz => ?_
  have hmul : z.toNat * 2 ^ 25 ≡ z.toNat * 1 [MOD 2 ^ 64] := by
    rw [Nat.ModEq, ← Nat.shiftLeft_eq, ← BitVec.toNat_shiftLeft, hz, Nat.mul_one, Nat.mod_eq_of_lt z.isLt]
  have hdvd : 2 ^ 64 ∣ z.toNat * (2 ^ 25 - 1) := by
    rw [Nat.mul_sub]
    exact (Nat.modEq_iff_dvd' (by omega)).1 hmul.symm
  have hz0 : 2 ^ 64 ∣ z.toNat := Nat.Coprime.dvd_of_dvd_mul_right (by norm_num) hdvd
  exact BitVec.eq_of_toNat_eq (Nat.eq_zero_of_dvd_of_lt hz0 z.isLt)

theorem nextWord_injective : Function.Injective nextWord :=
  (xor_ushiftRight_injective (k := 27) (by decide)).comp
    (xor_shiftLeft_injective.comp (xor_ushiftRight_injective (k := 12) (by decide)))

theorem nextWord_bijective : Function.Bijective nextWord :=
  have : Finite U64 := .of_equiv _ BitVec.equivFin.symm.toEquiv
  nextWord_injective.bijective_of_finite

@[simp] theorem nextWord_zero : nextWord 0#64 = 0#64 := rfl

@[simp] theorem outWord_zero : outWord 0#64 = 0#32 := rfl

@[simp] theorem nextIter_of_zero (k : Nat) : nextIter k 0#64 = 0#64 := Function.iterate_fixed nextWord_zero k

theorem nextIter_injective (k : Nat) : Function.Injective (nextIter k) := nextWord_injective.iterate k

theorem nextIter_eq_zero_iff (k : Nat) (w : U64) : nextIter k w = 0 ↔ w = 0 :=
  (nextIter_injective k).eq_iff' (nextIter_of_zero k)

/-- Settles O12: each of the three xor-shifts is injective, and a finite set's injections are its bijections. -/
theorem nextIsBijection : Obligations.NextIsBijection :=
  ⟨nextWord_bijective, nextIter_eq_zero_iff 1, fun k => ⟨nextIter_injective k, nextIter_eq_zero_iff k⟩⟩

/-! ## SEED and NEXTU32 (R93, R94) -/

/-- A word with a defined opcode runs its command where it meets the opcode's row, written as a condition on its fields, and
is refused otherwise (R68, R163). -/
theorem runWord_of_op {w : CmdWord} {s : State} {o : Opcode} {zeros : Prop} [Decidable zeros] (h : w.op = o.code)
    (hz : (∀ z ∈ o.zeroFields s.cfg.flen, w.isZero z = true) ↔ zeros) :
    runWord w s = if zeros then exec (o.instr w) s else refusedWith .illegalCommand s := by
  obtain ⟨⟨_, hr⟩, hok⟩ | ⟨hn, z, he⟩ := decode_of_op (f := s.cfg.flen) h
  · rw [if_pos (hz.1 hr), runWord, hok]
  · rw [if_neg fun hzs => hn ⟨h, hz.2 hzs⟩, runWord_of_decode_error he]

/-- A seeded `NEXTU32`, in closed form. -/
theorem execNextu32_run {s : State} {x : U64} (hE : s.SEEDED = true) (hS : s.S = some x) :
    execNextu32 s = .next (((s.setS (nextWord x)).emit [(outWord (nextWord x)).setWidth 64]).complete .ok false 1) := by
  rw [execNextu32, drawing_run hE (by decide) hS]
  rfl

theorem zero_append_eq_setWidth (r : U32) : (0 : U32) ++ r = r.setWidth 64 := by
  rw [BitVec.setWidth_eq_append (by decide)]
  rfl

/-- Settles O15: `SEED` in closed form, and its row of R62 field by field. -/
theorem seedCommand : Obligations.SeedCommand := fun s =>
  ⟨fun _ => rfl, fun w h => runWord_of_op (o := .seed) h (by simp [Opcode.zeroFields])⟩

/-- Settles O16: `NEXTU32` in closed form where it draws, its refusal while unseeded, and its row of R62 field by field. -/
theorem nextu32Command : Obligations.Nextu32Command := by
  refine fun s => ⟨fun x hE hS => ?_, fun hE => drawing_notSeeded hE _ _, fun w h =>
    runWord_of_op (o := .nextu32) h (by simp [Opcode.zeroFields])⟩
  rw [exec, execNextu32_run hE hS, zero_append_eq_setWidth]
  congr 1
  apply State.ext_fields <;> simp

/-- Settles O11: zero is a fixed point of `Next`, so of any number of draws, and `NEXTU32` draws from it as from any word. -/
theorem zeroStateIsFixedPoint : Obligations.ZeroStateIsFixedPoint := by
  refine ⟨nextWord_zero, outWord_zero, fun k => ⟨nextIter_of_zero k, ?_⟩, fun s hE hS => ?_⟩
  · exact (congrArg outWord (nextIter_of_zero (k + 1))).trans outWord_zero
  · rw [exec, execNextu32_run hE hS]
    congr 1
    apply State.ext_fields <;> simp [hS]

end Sys2Proof.Machine
end

section
/-! PROOFS. The uniform floats (R114, R115, R122), their encodings, and the two commands of 41_uniform.md (R116, R118). -/

namespace Sys2Proof

open Machine

/-! ## The magnitude of `U24toF` (R114) -/

/-- The magnitude of `k / 2^24`, in units. -/
def u24Mag (f : Flen) (k : U24) : Nat := k.toNat * 2 ^ (f.unitExp - 24)

theorem u24toF_eq (f : Flen) (k : U24) : u24toF f k = .fin false (u24Mag f k) := rfl

theorem oneMag_eq_mul (f : Flen) : f.oneMag = 2 ^ (f.unitExp - 24) * 2 ^ 24 := by
  rw [Flen.oneMag, ← Nat.pow_add, Nat.sub_add_cancel (by cases f <;> decide)]

/-- A unit of 2^-24 is a normal number: no uniform float but zero is subnormal. -/
theorem fracBits_le_unitExp_sub (f : Flen) : f.fracBits ≤ f.unitExp - 24 := by cases f <;> decide

theorem u24Mag_mul (f : Flen) (k : U24) : u24Mag f k * 2 ^ 24 = k.toNat * f.oneMag := by
  rw [oneMag_eq_mul, u24Mag, Nat.mul_assoc]

@[simp] theorem u24Mag_zero (f : Flen) : u24Mag f 0 = 0 := Nat.zero_mul _

theorem u24Mag_mono (f : Flen) {k l : U24} (h : k.toNat ≤ l.toNat) : u24Mag f k ≤ u24Mag f l := Nat.mul_le_mul_right _ h

theorem u24Mag_eq_zero (f : Flen) (k : U24) : u24Mag f k = 0 ↔ k.toNat = 0 := by simp [u24Mag]

theorem u24Mag_lt_oneMag (f : Flen) (k : U24) : u24Mag f k < f.oneMag := by
  rw [oneMag_eq_mul, u24Mag, Nat.mul_comm]
  exact Nat.mul_lt_mul_of_pos_left k.isLt (Nat.two_pow_pos _)

theorem u24Mag_normal (f : Flen) {k : U24} (h : k.toNat ≠ 0) : 2 ^ f.fracBits ≤ u24Mag f k :=
  (Nat.pow_le_pow_right (by decide) (fracBits_le_unitExp_sub f)).trans
    (Nat.le_mul_of_pos_left _ (Nat.pos_of_ne_zero h))

theorem u24toF_injective (f : Flen) : Function.Injective (u24toF f) := by
  intro k l h
  have hm : u24Mag f k = u24Mag f l := (Flt.fin.inj h).2
  exact BitVec.eq_of_toNat_eq (Nat.eq_of_mul_eq_mul_right (Nat.two_pow_pos _) hm)

theorem u24toF_representable (f : Flen) (k : U24) : (u24toF f k).representable f = true := by
  obtain ⟨hone, _⟩ := (representable_fin f false _).1 (one_representable f)
  refine (representable_fin f false _).2 ⟨(u24Mag_lt_oneMag f k).trans hone, hasSpacing_mul_two_pow f ?_⟩
  exact k.isLt.le.trans (Nat.pow_le_pow_right (by decide) (by cases f <;> decide))

/-! ## The encoding of `U24toF` (R114) -/

/-- The magnitude of a normal number with given exponent and fraction fields. -/
theorem magOfBits_normal (f : Flen) {e frac : Nat} (he : e ≠ 0) (hfrac : frac < 2 ^ f.fracBits) :
    magOfBits f (e * 2 ^ f.fracBits + frac) = (2 ^ f.fracBits + frac) * 2 ^ (e - 1) := by
  have hdiv : (e * 2 ^ f.fracBits + frac) / 2 ^ f.fracBits = e := by
    rw [Nat.mul_comm, Nat.mul_add_div (Nat.two_pow_pos _), Nat.div_eq_of_lt hfrac, Nat.add_zero]
  have hmod : (e * 2 ^ f.fracBits + frac) % 2 ^ f.fracBits = frac := by
    rw [Nat.mul_comm, Nat.mul_add_mod, Nat.mod_eq_of_lt hfrac]
  simp [magOfBits, hdiv, hmod, he]

/-- The exponent field is biased by the position `m` of the leading 1 of `k`, and the fraction is `k` below that 1. -/
theorem bitsOfMag_u24Mag (f : Flen) {k : U24} (hk : k.toNat ≠ 0) :
    bitsOfMag f (u24Mag f k) =
      (f.bias - 24 + k.toNat.log2) * 2 ^ f.fracBits + (k.toNat - 2 ^ k.toNat.log2) * 2 ^ (f.fracBits - k.toNat.log2) := by
  set m := k.toNat.log2 with hm
  have hbias : 25 ≤ f.bias := by cases f <;> decide
  have hm24 : m < 24 := (Nat.log2_lt hk).2 k.isLt
  have hmf : m ≤ f.fracBits := (Nat.le_of_lt_succ hm24).trans (by cases f <;> decide)
  have hlo : 2 ^ m ≤ k.toNat := Nat.log2_self_le hk
  have hhi : k.toNat - 2 ^ m < 2 ^ m := by
    have : k.toNat < 2 ^ (m + 1) := Nat.lt_log2_self
    omega
  have hsplit : 2 ^ f.fracBits = 2 ^ m * 2 ^ (f.fracBits - m) := by rw [← Nat.pow_add, Nat.add_sub_cancel' hmf]
  have hfrac : (k.toNat - 2 ^ m) * 2 ^ (f.fracBits - m) < 2 ^ f.fracBits := by
    rw [hsplit]
    exact Nat.mul_lt_mul_of_pos_right hhi (Nat.two_pow_pos _)
  have hexp : f.fracBits - m + (f.bias - 24 + m - 1) = f.unitExp - 24 := by unfold Flen.unitExp; omega
  have hmag : magOfBits f ((f.bias - 24 + m) * 2 ^ f.fracBits + (k.toNat - 2 ^ m) * 2 ^ (f.fracBits - m)) =
      u24Mag f k := by
    calc _ = (2 ^ f.fracBits + (k.toNat - 2 ^ m) * 2 ^ (f.fracBits - m)) * 2 ^ (f.bias - 24 + m - 1) :=
            magOfBits_normal f (by omega) hfrac
      _ = k.toNat * 2 ^ (f.fracBits - m) * 2 ^ (f.bias - 24 + m - 1) := by
            rw [hsplit, ← Nat.add_mul, Nat.add_sub_cancel' hlo]
      _ = u24Mag f k := by rw [Nat.mul_assoc, ← Nat.pow_add, hexp, u24Mag]
  rw [← hmag, bitsOfMag_magOfBits]

theorem packF_u24toF (f : Flen) (c : Bool × Nat) (k : U24) : packF f c (u24toF f k) = u24Encoding f k := by
  by_cases hk : k = 0
  · rw [hk, u24toF_eq, u24Mag_zero]
    cases f <;> rfl
  · have hk' : k.toNat ≠ 0 := fun h => hk (BitVec.eq_of_toNat_eq h)
    rw [u24toF_eq, packF, bitsOfMag_u24Mag f hk', encoding, u24Encoding, if_neg hk]
    simp

/-- Settles O18: the magnitude is `k` units of 2^-24, at most 24 significant bits, and its fields are read off `k`. -/
theorem u24toFExact : Obligations.U24toFExact := fun f k =>
  ⟨⟨_, u24toF_eq f k, u24Mag_mul f k⟩, u24toF_representable f k, fun c => packF_u24toF f c k, rfl⟩

/-! ## The float of a draw (R115, R122) -/

namespace Machine

/-- The numerator of a draw is the draw without its low 8 bits. -/
theorem numerator_toNat (r : U32) : (r.extractLsb' 8 24).toNat = r.toNat / 256 := by
  have := r.isLt
  rw [BitVec.extractLsb'_toNat, Nat.shiftRight_eq_div_pow]
  omega

/-- Every numerator is that of some draw. -/
theorem exists_draw_of_numerator (k : U24) : ∃ r : U32, r.extractLsb' 8 24 = k :=
  ⟨k ++ (0 : BitVec 8), BitVec.extractLsb'_append_eq_left⟩

/-- Settles O19: the results are the `k / 2^24`, and the numerator of a draw `r` is `r / 256`. -/
theorem uniformFloatRange : Obligations.UniformFloatRange := by
  refine fun f => ⟨u24toF_injective f, fun r => ?_, fun k => (exists_draw_of_numerator k).imp fun _ => congrArg (u24toF f)⟩
  have hk : (r.extractLsb' 8 24).toNat = r.toNat / 256 := numerator_toNat r
  have hval : floatOfDraw f r = u24toF f (r.extractLsb' 8 24) := rfl
  generalize r.extractLsb' 8 24 = k at hk hval
  have hmul := u24Mag_mul f k
  have hzero := u24Mag_eq_zero f k
  refine ⟨u24Mag f k, hval, u24Mag_lt_oneMag f k, ?_, ⟨k, hk, hval, hmul⟩, by omega, fun hm => ?_, ?_⟩
  · by_cases h : k.toNat = 0
    · exact .inl (hzero.2 h)
    · exact .inr (u24Mag_normal f h)
  · rw [hmul]
    exact Nat.le_mul_of_pos_left _ (by omega)
  · rw [hmul]
    exact Nat.mul_le_mul_right _ (by have := k.isLt; omega)

/-! ## NEXTUF and UNIFB (R116, R118) -/

/-- A seeded `NEXTUF`, in closed form. -/
theorem execNextuf_run {s : State} {x : U64} (hE : s.SEEDED = true) (hS : s.S = some x) :
    execNextuf s = .next (((s.setS (nextIter 1 x)).emitFloats [uniformAt s.cfg.flen 0 x]).complete .ok false 1) := by
  rw [execNextuf, drawing_run hE (by decide) hS]
  rfl

/-- Settles O17: `NEXTUF` in closed form where it draws, its refusal while unseeded, and its row of R62 field by field. -/
theorem nextufCommand : Obligations.NextufCommand := by
  refine fun s => ⟨fun x hE hS => ⟨s.nanDraws + 1, ?_⟩, fun hE => drawing_notSeeded hE _ _, fun w h =>
    runWord_of_op (o := .nextuf) h (by simp [Opcode.zeroFields])⟩
  have hpack : ∀ c, packF s.cfg.flen c (uniformAt s.cfg.flen 0 x) =
      u24Encoding s.cfg.flen ((outWord (nextWord x)).extractLsb' 8 24) := fun c => packF_u24toF _ c _
  rw [exec, execNextuf_run hE hS]
  congr 1
  apply State.ext_fields <;> simp [packAll, hpack, nextIter_succ]

/-- What is packed of a value is a data field that carries it, whatever the NaN choice. -/
theorem represents_packF (f : Flen) (c : Bool × Nat) (v : Flt) : Represents f v (packF f c v) := by
  cases v with
  | nan => exact isQuietNaN_quietNaN f c
  | inf neg => exact fun _ => rfl
  | fin neg m => exact fun _ => rfl

/-- The data fields of a list of results carry the results, in order. -/
theorem represents_packAll {src : Nat} {f : Flen} {k i : Nat} {vs : List Flt} {v : Flt} {d : U64}
    (hv : vs[i]? = some v) (hd : (packAll src f k vs)[i]? = some d) : Represents f v d := by
  rw [packAll_getElem?, hv] at hd
  cases hd
  exact represents_packF f _ v

/-- A batch length with `N[31] = 0` is not negative, and is `N` itself (R64). -/
theorem batchLength_of_msb_false {n : U32} (h : n.msb = false) : 0 ≤ batchLength n ∧ (batchLength n).toNat = n.toNat := by
  have hn : 0 ≤ batchLength n := not_lt.1 fun hneg => by simp [(batchLength_neg n).1 hneg] at h
  exact ⟨hn, batchLength_toNat hn⟩

/-- Under R65 the row of a batch command asks `RSV = 0` and, in the narrow format, zero upper halves of `A` and `B`. -/
theorem rsv_floatHalves_isZero (f : Flen) (w : CmdWord) :
    (∀ z ∈ ZeroField.rsv :: floatHalves f, w.isZero z = true) ↔
      w.rsv = 0 ∧ (f = .binary64 ∨ (w.a.extractLsb' 32 32 = 0 ∧ w.b.extractLsb' 32 32 = 0)) := by
  rw [List.forall_mem_cons, floatHalves_isZero, CmdWord.isZero_rsv]
  cases f <;> simp [floatFieldOk_iff]

/-- Settles O28: `UNIFB` in closed form where it draws, value `i` of the batch coming from draw `i`; its two refusals; and its
row of R62 field by field. -/
theorem unifbCommand : Obligations.UnifbCommand := by
  refine fun s n low high => ⟨fun x hE hS hn => ?_, fun hE => drawing_notSeeded hE _ _,
    fun hE hn => drawing_negative hE ((batchLength_neg n).2 hn) _, fun w h =>
      runWord_of_op (o := .unifb) h (rsv_floatHalves_isZero _ w)⟩
  obtain ⟨hpos, hlen⟩ := batchLength_of_msb_false hn
  set f := s.cfg.flen with hf
  set vs := (uniformBatch f (unpackF f low) (unpackF f high) n.toNat x).1 with hvs
  have hvlen : vs.length = n.toNat := uniformBatch_length ..
  have hplen : (packAll s.source f s.nanDraws vs).length = n.toNat := (packAll_length ..).trans hvlen
  refine ⟨packAll s.source f s.nanDraws vs, s.nanDraws + n.toNat, ?_, hplen, fun i d hd => ?_⟩
  · rw [exec, execUnifb_run low high hE hS hpos, hlen]
    congr 1
    apply State.ext_fields <;> simp [← hf, ← hvs, hvlen]
  · have hi : i < n.toNat := hplen ▸ (List.getElem?_eq_some_iff.1 hd).1
    exact represents_packAll (uniformBatch_getElem? f _ _ _ x hi) hd

end Machine

end Sys2Proof
end

section
/-! PROOFS. The arithmetic of the two formats: rounding to nearest, ties to even (R111), NaNs (R112), overflow, gradual
underflow and the signs of zero (R113). -/

namespace Sys2Proof

open Machine

/-! ## Nearest, ties to even (R111) -/

/-- The nearest integer is the even one where it is half a denominator away. -/
theorem nearestEven_even_of_tie {num den : Nat} (hd : 0 < den)
    (h : 2 * |(num : Int) - nearestEven num den * den| = den) : nearestEven num den % 2 = 0 := by
  have hm : den * (num / den) + num % den = num := Nat.div_add_mod num den
  have hr : num % den < den := Nat.mod_lt _ hd
  simp only [nearestEven, Int.abs_eq_natAbs] at h ⊢
  generalize num / den = q at *
  generalize num % den = r at *
  have hq : ((q + 1 : Nat) : Int) * den = q * den + den := by push_cast; ring
  rw [← hm, Nat.mul_comm, Nat.cast_add, Nat.cast_mul] at h
  split_ifs at h ⊢
  · rw [hq] at h; omega
  · assumption
  · omega
  · omega

/-- Every integer is at least as far away as the nearest one, and another as far away only where that one is even. -/
theorem nearestEven_nearest (num : Nat) {den : Nat} (hd : 0 < den) (c : Nat) :
    |(num : Int) - nearestEven num den * den| ≤ |(num : Int) - c * den| ∧
    (c ≠ nearestEven num den → |(num : Int) - nearestEven num den * den| = |(num : Int) - c * den| →
      nearestEven num den % 2 = 0) := by
  obtain ⟨hlo, hhi⟩ := nearestEven_half num hd
  have htie := nearestEven_even_of_tie (num := num) hd
  generalize nearestEven num den = n at *
  have hdist : (num : Int) - c * den = (num - n * den) + (n - c) * den := by ring
  have hlo' : 2 * ((num : Int) - n * den) ≤ den := by
    have : (2 * num : Int) ≤ (2 * n + 1) * den := by exact_mod_cast hlo
    linarith
  have hhi' : -(den : Int) ≤ 2 * ((num : Int) - n * den) := by
    have : 2 * ((n : Int) * den) ≤ 2 * num + den := by exact_mod_cast hhi
    linarith
  rw [hdist]
  generalize (num : Int) - n * den = e at *
  simp only [Int.abs_eq_natAbs] at *
  rcases lt_trichotomy c n with hc | rfl | hc
  · have : (den : Int) ≤ (n - c) * den := le_mul_of_one_le_left (by omega) (by omega)
    omega
  · simp
  · have : (n - c) * den ≤ -(den : Int) := by nlinarith
    omega

/-- A number with the format's spacing that is no multiple of the spacing at `t` lies below the binade of `t`, and the least
number of that binade is between the two. -/
theorem lt_binade_of_not_dvd {f : Flen} {k t : Nat} (hk : hasSpacing f k) (h : ¬ 2 ^ f.quantumExp t ∣ k) :
    k < 2 ^ f.fracBits * 2 ^ f.quantumExp t ∧ 2 ^ f.fracBits * 2 ^ f.quantumExp t ≤ t := by
  have hlt : f.quantumExp k < f.quantumExp t := by
    by_contra hge
    exact h ((Nat.pow_dvd_pow 2 (not_lt.1 hge)).trans ((hasSpacing_iff f k).1 hk))
  rw [← Nat.pow_add]
  exact ⟨(f.lt_of_quantumExp k).trans_le (Nat.pow_le_pow_right (by decide) (by omega)), f.le_of_quantumExp (by omega)⟩

/-- No number with the format's spacing is nearer than the rounded one; on a tie its significand is even. A number with a
finer spacing than the rounded one's is farther away than the least number of the binade is. -/
theorem roundMag_nearest (f : Flen) (num : Nat) {den : Nat} (hd : 0 < den) {k : Nat} (hk : hasSpacing f k) :
    |(num : Int) - roundMag f num den * den| ≤ |(num : Int) - k * den| ∧
    (k ≠ roundMag f num den → |(num : Int) - roundMag f num den * den| = |(num : Int) - k * den| →
      roundMag f num den / 2 ^ f.quantumExp (num / den) % 2 = 0) := by
  have hpos := Nat.two_pow_pos (f.quantumExp (num / den))
  have hnear := nearestEven_nearest num (Nat.mul_pos hd hpos)
  have hfine := lt_binade_of_not_dvd (t := num / den) hk
  have hr : roundMag f num den =
    nearestEven num (den * 2 ^ f.quantumExp (num / den)) * 2 ^ f.quantumExp (num / den) := rfl
  have hscale : ∀ c : Nat, ((c * 2 ^ f.quantumExp (num / den) : Nat) : Int) * den =
      c * (den * 2 ^ f.quantumExp (num / den) : Nat) := fun c => by push_cast; ring
  rw [hr, Nat.mul_div_cancel _ hpos, hscale]
  generalize 2 ^ f.quantumExp (num / den) = step at *
  by_cases hdvd : step ∣ k
  · obtain ⟨c, rfl⟩ := hdvd
    rw [Nat.mul_comm step c, hscale]
    exact ⟨(hnear c).1, fun hne => (hnear c).2 (fun hc => hne (by rw [hc]))⟩
  · obtain ⟨hkb, hbt⟩ := hfine hdvd
    have hle : |(num : Int) - nearestEven num (den * step) * (den * step : Nat)| ≤
        |(num : Int) - (2 ^ f.fracBits * step : Nat) * den| := hscale (2 ^ f.fracBits) ▸ (hnear _).1
    have hbnum : ((2 ^ f.fracBits * step : Nat) : Int) * den ≤ num := by
      exact_mod_cast (Nat.mul_le_mul_right den hbt).trans (Nat.div_mul_le_self num den)
    have hkbden : (k : Int) * den < (2 ^ f.fracBits * step : Nat) * den := by
      exact_mod_cast Nat.mul_lt_mul_of_pos_right hkb hd
    have hlt : |(num : Int) - nearestEven num (den * step) * (den * step : Nat)| < |(num : Int) - k * den| := by
      refine hle.trans_lt ?_
      rw [abs_of_nonneg (by omega), abs_of_nonneg (by omega)]
      omega
    exact ⟨hlt.le, fun _ htie => absurd htie hlt.ne⟩

/-! ## The operations by their operands (R111, R113) -/

theorem fadd_comm (f : Flen) (x y : Flt) : fadd f x y = fadd f y x := by
  cases x with
  | nan => cases y <;> rfl
  | inf a =>
    cases y with
    | inf b => cases a <;> cases b <;> rfl
    | _ => rfl
  | fin a m =>
    cases y with
    | fin b k => simp only [fadd, Int.add_comm (signedMag a m), Bool.and_comm a]
    | _ => rfl

theorem fmul_comm (f : Flen) (x y : Flt) : fmul f x y = fmul f y x := by
  cases x with
  | nan => cases y <;> rfl
  | inf a => cases y <;> simp only [fmul, bne_comm (a := a)]
  | fin a m => cases y <;> simp only [fmul, bne_comm (a := a), Nat.mul_comm m]

theorem fadd_fin_of_ne {f : Flen} {a b : Bool} {m k : Nat} (h : signedMag a m + signedMag b k ≠ 0) :
    fadd f (.fin a m) (.fin b k) =
      roundToF f (decide (signedMag a m + signedMag b k < 0)) (signedMag a m + signedMag b k).natAbs 1 :=
  if_neg h

theorem fadd_fin_of_eq {f : Flen} {a b : Bool} {m k : Nat} (h : signedMag a m + signedMag b k = 0) :
    fadd f (.fin a m) (.fin b k) = .fin (a && b) 0 :=
  if_pos h

theorem fmul_inf_of_ne (f : Flen) (a b : Bool) {m : Nat} (h : m ≠ 0) : fmul f (.inf a) (.fin b m) = .inf (a != b) :=
  if_neg h

/-- Settles O20: rounding is to nearest, and each operation's clause is its equation in the model. -/
theorem roundsToNearestEven : Obligations.RoundsToNearestEven :=
  ⟨fun f num _ hd => ⟨roundMag_hasSpacing f num hd, fun _ hk => roundMag_nearest f num hd hk⟩,
    fun _ _ _ _ => rfl, fun _ _ _ _ _ => rfl, fun _ _ _ _ _ h => fadd_fin_of_ne h, fun _ _ _ _ _ => rfl,
    fun f a b _ => ⟨if_pos rfl, rfl, rfl, fmul_inf_of_ne f a b⟩,
    fun f x y => ⟨fadd_comm f x y, fmul_comm f x y⟩, fun _ _ _ _ => rfl, fun _ _ _ _ => rfl⟩

/-! ## NaNs (R112) -/

@[simp] theorem fadd_nan_right (f : Flen) (x : Flt) : fadd f x .nan = .nan := fadd_comm f x .nan

@[simp] theorem fmul_nan_right (f : Flen) (x : Flt) : fmul f x .nan = .nan := fmul_comm f x .nan

theorem fadd_inf_opposite (f : Flen) (a : Bool) : fadd f (.inf a) (.inf !a) = .nan := if_neg (by simp)

/-- The exponent and fraction fields are read alike within the encoding and within the whole operand field. -/
theorem fields_toNat (f : Flen) (x : Nat) :
    x % 2 ^ f.signBit / 2 ^ f.fracBits = x / 2 ^ f.fracBits % 2 ^ f.expBits ∧
    x % 2 ^ f.signBit % 2 ^ f.fracBits = x % 2 ^ f.fracBits := by
  rw [two_pow_signBit, Nat.mul_comm]
  exact ⟨Nat.mod_mul_right_div_self .., Nat.mod_mod_of_dvd _ (Nat.dvd_mul_right ..)⟩

/-- The NaN encodings are those with all exponent bits 1 and a fraction that is not zero, quiet or signalling. -/
theorem unpackF_eq_nan_iff (f : Flen) (x : U64) : unpackF f x = .nan ↔
    x.toNat / 2 ^ f.fracBits % 2 ^ f.expBits = 2 ^ f.expBits - 1 ∧ x.toNat % 2 ^ f.fracBits ≠ 0 := by
  obtain ⟨hexp, hfrac⟩ := fields_toNat f x.toNat
  simp only [unpackF, hexp, hfrac, Flen.expOnes]
  split_ifs <;> simp_all

/-- A quiet NaN's bits: its sign, all exponent bits and the top fraction bit, and the rest of the fraction. -/
theorem quietNaN_of_isQuietNaN {f : Flen} {d : U64} (h : isQuietNaN f d = true) :
    quietNaN f (d.getLsbD f.signBit, d.toNat) = d := by
  obtain ⟨hones, hlt⟩ := (isQuietNaN_iff f d).1 h
  have hsign : (if d.getLsbD f.signBit then 2 ^ f.signBit else 0) = d.toNat / 2 ^ f.signBit % 2 * 2 ^ f.signBit := by
    rw [← Nat.toNat_testBit, BitVec.getLsbD]
    cases d.toNat.testBit f.signBit <;> simp
  apply BitVec.eq_of_toNat_eq
  rw [quietNaN, encoding, BitVec.toNat_ofNat, hsign]
  generalize d.toNat = x at *
  cases f <;> simp only [Flen.signBit, Flen.expOnes, Flen.expBits, Flen.fracBits] at hones hlt ⊢ <;> omega

/-- Settles O21: every primitive passes a NaN on, the encodings of NaNs are all unpacked as one value, and every quiet NaN
is packed for the choice of its own sign and payload. -/
theorem nanRules : Obligations.NanRules := fun f =>
  ⟨fun x => ⟨rfl, fadd_nan_right f x, rfl, fadd_nan_right f x, rfl, fmul_nan_right f x⟩,
    ⟨rfl, fun _ => ⟨rfl, rfl, rfl⟩⟩,
    fun a => ⟨fadd_inf_opposite f a, fadd_inf_opposite f a⟩,
    fun _ _ => ⟨rfl, rfl⟩,
    unpackF_eq_nan_iff f,
    isQuietNaN_quietNaN f,
    fun _ hd => ⟨_, quietNaN_of_isQuietNaN hd⟩⟩

/-! ## Overflow, gradual underflow and signs (R113) -/

theorem roundToF_overflow {f : Flen} {num den : Nat} (neg : Bool) (h : f.overflowMag ≤ roundMag f num den) :
    roundToF f neg num den = .inf neg :=
  if_neg (Nat.not_lt.2 h)

theorem roundToF_of_lt {f : Flen} {num den : Nat} (neg : Bool) (h : roundMag f num den < f.overflowMag) :
    roundToF f neg num den = .fin neg (roundMag f num den) :=
  if_pos h

/-- Below the least normal number rounding is to units. -/
theorem roundMag_of_subnormal {f : Flen} {num den : Nat} (h : num / den < 2 ^ f.fracBits) :
    roundMag f num den = nearestEven num den := by
  have hq : f.quantumExp (num / den) = 0 := Nat.le_zero.1 (f.quantumExp_le (h.trans (Nat.pow_lt_pow_succ (by decide))))
  simp [roundMag, hq]

/-- A subnormal encoding's fraction is its magnitude. -/
theorem unpackF_encoding_subnormal {f : Flen} (neg : Bool) {k : Nat} (h : k < 2 ^ f.fracBits) :
    unpackF f (encoding f neg k) = .fin neg k := by
  have hlt : k < 2 ^ f.signBit := h.trans_le (Nat.pow_le_pow_right (by decide) (Nat.le_add_left ..))
  have hones : 0 ≠ f.expOnes := by cases f <;> decide
  rw [unpackF_encoding f neg k hlt, Nat.div_eq_of_lt h, if_neg hones]
  simp [magOfBits, Nat.div_eq_of_lt h, Nat.mod_eq_of_lt h]

theorem signedMag_not (a : Bool) (m : Nat) : signedMag (!a) m = -signedMag a m := by cases a <;> simp [signedMag]

@[simp] theorem signedMag_zero (a : Bool) : signedMag a 0 = 0 := by cases a <;> rfl

@[simp] theorem natAbs_signedMag (a : Bool) (m : Nat) : (signedMag a m).natAbs = m := by cases a <;> simp [signedMag]

theorem decide_signedMag_neg (a : Bool) {m : Nat} (h : m ≠ 0) : decide (signedMag a m < 0) = a := by
  cases a <;> simp [signedMag]
  omega

theorem fadd_fin_not (f : Flen) (a : Bool) (m : Nat) : fadd f (.fin a m) (.fin (!a) m) = .fin false 0 := by
  rw [fadd_fin_of_eq (by rw [signedMag_not, add_neg_cancel]), Bool.and_not_self]

/-- A finite number other than zero plus a zero of either sign is that number. -/
theorem fadd_fin_zero {f : Flen} {a : Bool} {m : Nat} (h : (Flt.fin a m).representable f = true) (hm : m ≠ 0) (b : Bool) :
    fadd f (.fin a m) (.fin b 0) = .fin a m := by
  have hsum : signedMag a m + signedMag b 0 = signedMag a m := by simp
  have hne : signedMag a m ≠ 0 := fun h0 => hm (by simpa using congrArg Int.natAbs h0)
  rw [fadd_fin_of_ne (by rwa [hsum]), hsum, decide_signedMag_neg a hm, natAbs_signedMag]
  simpa using roundToF_exact f a h Nat.one_pos

theorem fadd_zero {f : Flen} {x : Flt} (h : x.representable f = true) (hpos : x ≠ .fin false 0) (hneg : x ≠ .fin true 0)
    (b : Bool) : fadd f x (.fin b 0) = x := by
  cases x with
  | nan => rfl
  | inf a => rfl
  | fin a m => exact fadd_fin_zero h (by rintro rfl; cases a <;> simp at hpos hneg) b

theorem signOf_fmul {f : Flen} {x y : Flt} (h : fmul f x y ≠ .nan) : signOf (fmul f x y) = (signOf x != signOf y) := by
  cases x with
  | nan => exact absurd rfl h
  | inf a =>
    cases y with
    | nan => exact absurd rfl h
    | inf b => rfl
    | fin b k =>
      by_cases h0 : k = 0
      · exact absurd (if_pos h0) h
      · exact congrArg signOf (if_neg h0)
  | fin a m =>
    cases y with
    | nan => exact absurd rfl h
    | inf b =>
      by_cases h0 : m = 0
      · exact absurd (if_pos h0) h
      · exact congrArg signOf (if_neg h0)
    | fin b k => exact roundToF_sign ..

theorem fmul_one {f : Flen} {x : Flt} (h : x.representable f = true) : fmul f x f.one = x := by
  cases x with
  | nan => rfl
  | inf a => exact (fmul_inf_of_ne f a false f.oneMag_pos.ne').trans (by rw [Bool.bne_false])
  | fin a m =>
    calc fmul f (.fin a m) f.one = roundToF f (a != false) (m * f.oneMag) f.oneMag := rfl
      _ = .fin a m := by rw [Bool.bne_false, roundToF_exact f a h f.oneMag_pos]

/-- Settles O22: each clause is a lemma on rounding, on sums or on products. -/
theorem arithmeticSpecialCases : Obligations.ArithmeticSpecialCases := fun f =>
  ⟨fun neg _ _ h => roundToF_overflow neg h, fun _ _ h => roundMag_of_subnormal h,
    fun neg _ h => unpackF_encoding_subnormal neg h,
    fun a m => ⟨fadd_fin_not f a m, fun _ => fadd_fin_not f a m⟩, rfl, rfl, rfl,
    fun _ b h hpos hneg => fadd_zero h hpos hneg b, fun _ _ h => signOf_fmul h, fun _ h => fmul_one h⟩

end Sys2Proof
end

section
/-! PROOFS. The affine map of uniform floats (R117, R121): the operations it is made of are monotonic. -/

namespace Sys2Proof

open Machine

/-! ## Finite values -/

theorem exists_fin_of_isFinite {x : Flt} (h : isFinite x = true) : ∃ a m, x = .fin a m := by
  cases x with
  | nan => simp [isFinite] at h
  | inf a => simp [isFinite] at h
  | fin a m => exact ⟨a, m, rfl⟩

theorem roundToF_of_isFinite {f : Flen} {neg : Bool} {num den : Nat} (h : isFinite (roundToF f neg num den) = true) :
    roundToF f neg num den = .fin neg (roundMag f num den) := by
  rcases Nat.lt_or_ge (roundMag f num den) f.overflowMag with hlt | hge
  · exact roundToF_of_lt neg hlt
  · simp [roundToF_overflow neg hge, isFinite] at h

/-! ## Rounding is monotonic for the order of the values -/

/-- The order of finite values is that of their signed counts of units. -/
theorem fin_le_fin (a b : Bool) (m k : Nat) : (Flt.fin a m).le (.fin b k) = true ↔ signedMag a m ≤ signedMag b k :=
  decide_eq_true_iff

theorem le_inf (x : Flt) (h : x ≠ .nan) : x.le (.inf false) = true := by
  cases x with
  | nan => exact absurd rfl h
  | inf a => cases a <;> rfl
  | fin a m => rfl

theorem neg_inf_le (x : Flt) (h : x ≠ .nan) : (Flt.inf true).le x = true := by
  cases x with
  | nan => exact absurd rfl h
  | inf a => cases a <;> rfl
  | fin a m => rfl

/-- Rounding a greater magnitude gives a greater value of positive sign and a smaller one of negative sign. -/
theorem roundToF_mono (f : Flen) {num num' den : Nat} (h : num ≤ num') (hd : 0 < den) :
    (roundToF f false num den).le (roundToF f false num' den) = true ∧
    (roundToF f true num' den).le (roundToF f true num den) = true := by
  have hmag := roundMag_mono f h hd
  rcases Nat.lt_or_ge (roundMag f num' den) f.overflowMag with hlt | hge
  · simp only [roundToF_of_lt _ hlt, roundToF_of_lt _ (hmag.trans_lt hlt), fin_le_fin, signedMag]
    simpa using hmag
  · simp only [roundToF_overflow _ hge]
    exact ⟨le_inf _ (roundToF_ne_nan _ _ _ _), neg_inf_le _ (roundToF_ne_nan _ _ _ _)⟩

/-- A rounded value of negative sign is at most any of positive sign. -/
theorem roundToF_neg_le_pos (f : Flen) (num num' den : Nat) :
    (roundToF f true num den).le (roundToF f false num' den) = true := by
  rcases Nat.lt_or_ge (roundMag f num den) f.overflowMag with hneg | hneg
  · rcases Nat.lt_or_ge (roundMag f num' den) f.overflowMag with hpos | hpos
    · simp only [roundToF_of_lt _ hneg, roundToF_of_lt _ hpos, fin_le_fin, signedMag, if_true, Bool.false_eq_true,
        if_false]
      omega
    · rw [roundToF_overflow _ hpos]
      exact le_inf _ (roundToF_ne_nan _ _ _ _)
  · rw [roundToF_overflow _ hneg]
    exact neg_inf_le _ (roundToF_ne_nan _ _ _ _)

/-- A signed count of units, rounded. -/
def roundInt (f : Flen) (z : Int) : Flt := roundToF f (decide (z < 0)) z.natAbs 1

@[simp] theorem roundInt_zero (f : Flen) : roundInt f 0 = .fin false 0 := by
  simpa [roundInt] using roundToF_exact f false (zero_representable f) Nat.one_pos

theorem roundInt_of_neg (f : Flen) {z : Int} (h : z < 0) : roundInt f z = roundToF f true z.natAbs 1 := by
  simp [roundInt, h]

theorem roundInt_of_nonneg (f : Flen) {z : Int} (h : 0 ≤ z) : roundInt f z = roundToF f false z.natAbs 1 := by
  simp [roundInt, not_lt.2 h]

theorem roundInt_mono (f : Flen) {z w : Int} (h : z ≤ w) : (roundInt f z).le (roundInt f w) = true := by
  rcases lt_or_ge z 0 with hz | hz
  · rcases lt_or_ge w 0 with hw | hw
    · rw [roundInt_of_neg f hz, roundInt_of_neg f hw]
      exact (roundToF_mono f (by omega) Nat.one_pos).2
    · rw [roundInt_of_neg f hz, roundInt_of_nonneg f hw]
      exact roundToF_neg_le_pos ..
  · rw [roundInt_of_nonneg f hz, roundInt_of_nonneg f (hz.trans h)]
    exact (roundToF_mono f (by omega) Nat.one_pos).1

/-! ## Sums are monotonic -/

/-- The order does not see the sign of a zero. -/
theorem zero_le_congr (a : Bool) (x : Flt) :
    (Flt.fin a 0).le x = (Flt.fin false 0).le x ∧ x.le (.fin a 0) = x.le (.fin false 0) := by
  cases x with
  | nan => exact ⟨rfl, rfl⟩
  | inf b => cases b <;> exact ⟨rfl, rfl⟩
  | fin b k => simp [Flt.le]

/-- A sum of finite values is the rounded exact sum, but for the sign of a zero. -/
theorem fadd_fin_eq_roundInt (f : Flen) (a b : Bool) (m k : Nat) :
    (∃ c, roundInt f (signedMag a m + signedMag b k) = .fin false 0 ∧ fadd f (.fin a m) (.fin b k) = .fin c 0) ∨
    fadd f (.fin a m) (.fin b k) = roundInt f (signedMag a m + signedMag b k) := by
  by_cases h : signedMag a m + signedMag b k = 0
  · exact .inl ⟨_, by rw [h, roundInt_zero], fadd_fin_of_eq h⟩
  · exact .inr (fadd_fin_of_ne h)

/-- Of two sums of finite values, the one whose exact sum is greater is not the smaller one. -/
theorem fadd_fin_mono (f : Flen) {a b a' b' : Bool} {m k m' k' : Nat}
    (h : signedMag a m + signedMag b k ≤ signedMag a' m' + signedMag b' k') :
    (fadd f (.fin a m) (.fin b k)).le (fadd f (.fin a' m') (.fin b' k')) = true := by
  have hround := roundInt_mono f h
  obtain ⟨c, h0, hadd⟩ | hadd := fadd_fin_eq_roundInt f a b m k <;>
    obtain ⟨c', h0', hadd'⟩ | hadd' := fadd_fin_eq_roundInt f a' b' m' k'
  · rw [hadd, hadd', (zero_le_congr c _).1, (zero_le_congr c' _).2]
    rfl
  · rwa [hadd, hadd', (zero_le_congr c _).1, ← h0]
  · rwa [hadd, hadd', (zero_le_congr c' _).2, ← h0']
  · rwa [hadd, hadd']

/-- Adding a value that is not negative gives no smaller value. -/
theorem le_fadd_of_nonneg {f : Flen} {a b : Bool} {m k : Nat} (hb : (Flt.fin b k).representable f = true)
    (ha : 0 ≤ signedMag a m) : (Flt.fin b k).le (fadd f (.fin a m) (.fin b k)) = true := by
  have hzero : fadd f (.fin b 0) (.fin b k) = .fin b k := by
    by_cases hk : k = 0
    · rw [hk, fadd_fin_of_eq (by simp), Bool.and_self]
    · rw [fadd_comm, fadd_fin_zero hb hk]
  have hmono := fadd_fin_mono f (a := b) (b := b) (m := 0) (k := k) (a' := a) (b' := b) (m' := m) (k' := k) (by simpa)
  rwa [hzero] at hmono

/-! ## The width and its product with a uniform float -/

/-- Every operand field is a number of the format (R65, R110). -/
theorem unpackF_representable (f : Flen) (x : U64) : (unpackF f x).representable f = true := by
  simp only [unpackF]
  split_ifs with hones hfrac
  · rfl
  · rfl
  · have hle : x.toNat % 2 ^ f.signBit / 2 ^ f.fracBits < f.expOnes + 1 := by
      rw [expOnes_succ, Nat.div_lt_iff_lt_mul (Nat.two_pow_pos _), ← two_pow_signBit]
      exact Nat.mod_lt _ (Nat.two_pow_pos _)
    exact (representable_fin f _ _).2 (magOfBits_representable f _ (by omega))

/-- The width `high - low` where it does not overflow: a number of the format that is not negative (R121). -/
theorem fsub_of_le {f : Flen} {a b : Bool} {m k : Nat} (hle : (Flt.fin a m).le (.fin b k) = true)
    (hfin : isFinite (fsub f (.fin b k) (.fin a m)) = true) :
    ∃ c d, fsub f (.fin b k) (.fin a m) = .fin c d ∧ (Flt.fin c d).representable f = true ∧ 0 ≤ signedMag c d := by
  have hz : 0 ≤ signedMag b k + signedMag (!a) m := by
    rw [signedMag_not]
    have := (fin_le_fin a b m k).1 hle
    omega
  have hdef : fsub f (.fin b k) (.fin a m) = fadd f (.fin b k) (.fin (!a) m) := rfl
  by_cases h0 : signedMag b k + signedMag (!a) m = 0
  · have hrep := (representable_fin f (b && !a) 0).2 ⟨Nat.two_pow_pos _, hasSpacing_zero f⟩
    exact ⟨_, _, hdef.trans (fadd_fin_of_eq h0), hrep, by simp⟩
  · have hround := hdef.trans (fadd_fin_of_ne h0)
    rw [decide_eq_false (not_lt.2 hz)] at hround
    have hrep := roundToF_representable f false (signedMag b k + signedMag (!a) m).natAbs Nat.one_pos
    rw [hround] at hfin ⊢
    rw [roundToF_of_isFinite hfin] at hrep ⊢
    exact ⟨_, _, rfl, hrep, by simp [signedMag]⟩

/-- Where a magnitude gives a value that is not negative, smaller magnitudes do too and are in the order of the values. -/
theorem signedMag_mono {c : Bool} {d p q : Nat} (hd : 0 ≤ signedMag c d) (hpq : p ≤ q) (hqd : q ≤ d) :
    signedMag c p ≤ signedMag c q := by
  cases c <;> simp [signedMag] at * <;> omega

/-- A uniform float times a number of the format: the exact product rounded, at most the number in magnitude. -/
theorem fmul_u24toF {f : Flen} {c : Bool} {d : Nat} (hd : (Flt.fin c d).representable f = true) (k : U24) :
    fmul f (u24toF f k) (.fin c d) = .fin c (roundMag f (u24Mag f k * d) f.oneMag) ∧
    roundMag f (u24Mag f k * d) f.oneMag ≤ d := by
  obtain ⟨hlt, hsp⟩ := (representable_fin f c d).1 hd
  have hle : roundMag f (u24Mag f k * d) f.oneMag ≤ d := by
    refine roundMag_le f hsp ?_ f.oneMag_pos
    rw [Nat.mul_comm d]
    exact Nat.mul_le_mul_right d (u24Mag_lt_oneMag f k).le
  refine ⟨?_, hle⟩
  calc fmul f (u24toF f k) (.fin c d) = roundToF f (false != c) (u24Mag f k * d) f.oneMag := rfl
    _ = .fin c (roundMag f (u24Mag f k * d) f.oneMag) := by rw [Bool.false_bne, roundToF_of_lt c (hle.trans_lt hlt)]

/-! ## The affine map (R121) -/

/-- Between finite bounds in order whose difference does not overflow, the affine map is monotonic in the numerator of its
uniform float and at least the lower bound. -/
theorem affineMap_mono {f : Flen} {low high : Flt} (hlow : low.representable f = true) (hlowFin : isFinite low = true)
    (hhighFin : isFinite high = true) (hle : low.le high = true) (hwidth : isFinite (fsub f high low) = true)
    {k l : U24} (hkl : k.toNat ≤ l.toNat) :
    low.le (affineMap f (u24toF f k) low high) = true ∧
    (affineMap f (u24toF f k) low high).le (affineMap f (u24toF f l) low high) = true := by
  obtain ⟨a, m, rfl⟩ := exists_fin_of_isFinite hlowFin
  obtain ⟨b, n, rfl⟩ := exists_fin_of_isFinite hhighFin
  obtain ⟨c, d, hd, hrep, hnonneg⟩ := fsub_of_le hle hwidth
  obtain ⟨hk, hkd⟩ := fmul_u24toF hrep k
  obtain ⟨hl, hld⟩ := fmul_u24toF hrep l
  have hprod : roundMag f (u24Mag f k * d) f.oneMag ≤ roundMag f (u24Mag f l * d) f.oneMag :=
    roundMag_mono f (Nat.mul_le_mul_right d (u24Mag_mono f hkl)) f.oneMag_pos
  simp only [affineMap, hd, hk, hl]
  refine ⟨le_fadd_of_nonneg hlow ?_, fadd_fin_mono f (Int.add_le_add_right (signedMag_mono hnonneg hprod hld) _)⟩
  simpa using signedMag_mono hnonneg (Nat.zero_le _) hkd

/-- Settles O27: the affine map is monotonic in the numerator, whose greatest value is 2^24 - 1; the worked example is
computed; and where nothing is rounded `low + k d / 2^24 < low + d = high`. -/
theorem affineMapBounds : Obligations.AffineMapBounds := by
  refine ⟨fun f a b k ha hb hle hd => ?_, by decide +kernel,
    fun f k a b c ma mb d p v hlt hsub hdiff hmul hprod hadd hsum => ?_⟩
  · exact affineMap_mono (unpackF_representable f a) ha hb hle hd (l := 0xFFFFFF#24) (Nat.le_of_lt_succ k.isLt)
  · have hkd : k.toNat * d < 2 ^ 24 * d := Nat.mul_lt_mul_of_pos_right k.isLt (by omega)
    have hpd : p < d := by omega
    exact ⟨by rw [affineMap, hsub, hmul, hadd], by omega, by omega⟩

end Sys2Proof
end

section
/-! PROOFS. The square root (R131), and the normal values: `NormalScale` (R138) and the two commands of 42_gaussian.md (R137,
R139). -/

namespace Sys2Proof

open Machine

/-! ## The integer that stands for twice the root -/

/-- Twice the root of `n` where that is an integer's double, else the odd integer between the doubles around it: what `fsqrt`
rounds. -/
def sqrtTwice (n : Nat) : Nat := if isqrt n * isqrt n = n then 2 * isqrt n else 2 * isqrt n + 1

theorem fsqrt_fin_pos (f : Flen) {m : Nat} (hm : m ≠ 0) :
    fsqrt f (.fin false m) = roundToF f false (sqrtTwice (m * f.oneMag)) 2 :=
  if_neg hm

/-- Below an integer's double as the root is below the integer. -/
theorem sqrtTwice_le_iff {n : Nat} (hn : n ≠ 0) (c : Nat) : sqrtTwice n ≤ c * 2 ↔ n ≤ c * c := by
  obtain ⟨hlo, hhi⟩ := isqrt_spec hn
  unfold sqrtTwice
  generalize isqrt n = r at *
  split_ifs with hr
  · rw [← hr, Nat.mul_self_le_mul_self_iff]
    omega
  · constructor
    · intro h
      exact hhi.le.trans (Nat.mul_self_le_mul_self (by omega))
    · intro h
      have : r < c := Nat.mul_self_lt_mul_self_iff.1 (by omega)
      omega

/-- Above an integer's double as the root is above the integer. -/
theorem le_sqrtTwice_iff {n : Nat} (hn : n ≠ 0) (c : Nat) : c * 2 ≤ sqrtTwice n ↔ c * c ≤ n := by
  obtain ⟨hlo, hhi⟩ := isqrt_spec hn
  unfold sqrtTwice
  generalize isqrt n = r at *
  split_ifs with hr
  · rw [← hr, Nat.mul_self_le_mul_self_iff]
    omega
  · constructor
    · intro h
      exact (Nat.mul_self_le_mul_self (by omega)).trans hlo
    · intro h
      have : c < r + 1 := Nat.mul_self_lt_mul_self_iff.1 (by omega)
      omega

/-! ## Midpoints -/

/-- The exact value is on the rounded one's side of the midpoint between it and another number with the format's
spacing. -/
theorem roundMag_midpoint (f : Flen) (num : Nat) {den k : Nat} (hd : 0 < den) (hk : hasSpacing f k) :
    (roundMag f num den < k → 2 * num ≤ (roundMag f num den + k) * den) ∧
    (k < roundMag f num den → (roundMag f num den + k) * den ≤ 2 * num) := by
  obtain ⟨hnear, _⟩ := roundMag_nearest f num hd hk
  generalize roundMag f num den = r at *
  simp only [Int.abs_eq_natAbs] at hnear
  rw [Nat.add_mul]
  constructor
  · intro h
    have hlt := Nat.mul_lt_mul_of_pos_right h hd
    omega
  · intro h
    have hlt := Nat.mul_lt_mul_of_pos_right h hd
    omega

/-- From the second binade of normal numbers on the spacing is at least two units. -/
theorem two_dvd_of_hasSpacing {f : Flen} {k : Nat} (hk : hasSpacing f k) (h : 2 ^ (f.fracBits + 1) ≤ k) : 2 ∣ k := by
  have hq : f.quantumExp k ≠ 0 := by
    intro h0
    have := f.lt_of_quantumExp k
    rw [h0, Nat.add_zero] at this
    omega
  exact (dvd_pow_self 2 hq).trans ((hasSpacing_iff f k).1 hk)

/-- The rounded root of `n` units squared. -/
def sqrtMag (f : Flen) (n : Nat) : Nat := roundMag f (sqrtTwice n) 2

/-- The root of `n` is on the side of `r` of the midpoint between `r` and `k`. -/
def RootNearer (n r k : Nat) : Prop := (r < k → 4 * n ≤ (r + k) ^ 2) ∧ (k < r → (r + k) ^ 2 ≤ 4 * n)

/-- The root is nearer its rounding than another number where their midpoint is an integer. -/
theorem rootNearer_of_even_sum (f : Flen) {n k : Nat} (hn : n ≠ 0) (hk : hasSpacing f k) (heven : 2 ∣ sqrtMag f n + k) :
    RootNearer n (sqrtMag f n) k := by
  obtain ⟨hbelow, habove⟩ := roundMag_midpoint f (sqrtTwice n) Nat.two_pos hk
  change (sqrtMag f n < k → _ ≤ (sqrtMag f n + k) * 2) at hbelow
  change (k < sqrtMag f n → (sqrtMag f n + k) * 2 ≤ _) at habove
  obtain ⟨c, hc⟩ := heven
  have hsq : (2 * c) ^ 2 = 4 * (c * c) := by ring
  rw [RootNearer, hc, hsq]
  rw [hc] at hbelow habove
  constructor
  · intro h
    have hmid := hbelow h
    have hroot := (sqrtTwice_le_iff hn c).1 (by omega)
    omega
  · intro h
    have hmid := habove h
    have hroot := (le_sqrtTwice_iff hn c).1 (by omega)
    omega

/-- A root of at least `2 ^ (p + 1)` is nearer its rounding than any other number: both are even, but for an odd number below
`2 ^ p`, for which `2 ^ p` stands in. -/
theorem sqrtMag_rootNearer {f : Flen} {n k : Nat} (hbig : 2 ^ (f.fracBits + 2) * 2 ^ (f.fracBits + 2) ≤ n)
    (hk : hasSpacing f k) : RootNearer n (sqrtMag f n) k := by
  have hn : n ≠ 0 := (lt_of_lt_of_le (by positivity) hbig).ne'
  have hdouble : 2 ^ (f.fracBits + 2) = 2 * 2 ^ (f.fracBits + 1) := Nat.pow_succ'
  have hpos := Nat.two_pow_pos (f.fracBits + 1)
  have hr : 2 ^ (f.fracBits + 2) ≤ sqrtMag f n :=
    roundMag_ge f (hasSpacing_two_pow f _) ((le_sqrtTwice_iff hn _).2 hbig) Nat.two_pos
  have hreven : 2 ∣ sqrtMag f n := two_dvd_of_hasSpacing (roundMag_hasSpacing f _ Nat.two_pos) (by omega)
  rcases Nat.lt_or_ge k (2 ^ (f.fracBits + 1)) with hsmall | hlarge
  · have hpeven : 2 ∣ 2 ^ (f.fracBits + 1) := dvd_pow_self 2 (Nat.succ_ne_zero _)
    obtain ⟨_, habove⟩ := rootNearer_of_even_sum f hn (hasSpacing_two_pow f _) (hreven.add hpeven)
    exact ⟨fun h => by omega, fun _ => (Nat.pow_le_pow_left (by omega) 2).trans (habove (by omega))⟩
  · exact rootNearer_of_even_sum f hn hk (hreven.add (two_dvd_of_hasSpacing hk hlarge))

/-! ## The range of a root -/

/-- The square of a root of a number of the format that is not zero, in units: far above the least normal number. -/
theorem le_mul_oneMag (f : Flen) {m : Nat} (hm : m ≠ 0) :
    2 ^ (f.fracBits + 2) * 2 ^ (f.fracBits + 2) ≤ m * f.oneMag := by
  calc 2 ^ (f.fracBits + 2) * 2 ^ (f.fracBits + 2)
      = 2 ^ (f.fracBits + 2 + (f.fracBits + 2)) := (Nat.pow_add ..).symm
    _ ≤ f.oneMag := Nat.pow_le_pow_right Nat.two_pos (by cases f <;> decide)
    _ ≤ m * f.oneMag := Nat.le_mul_of_pos_left _ (Nat.pos_of_ne_zero hm)

/-- A root of a finite number does not overflow: it rounds to at most half the overflow threshold. -/
theorem sqrtMag_lt (f : Flen) {m : Nat} (hm : m ≠ 0) (hlt : m < f.overflowMag) :
    sqrtMag f (m * f.oneMag) < f.overflowMag := by
  have hn : m * f.oneMag ≠ 0 := Nat.mul_ne_zero hm f.oneMag_pos.ne'
  have hsq : m * f.oneMag ≤ 2 ^ (f.fracBits + f.expOnes - 2) * 2 ^ (f.fracBits + f.expOnes - 2) := by
    calc m * f.oneMag ≤ f.overflowMag * f.oneMag := Nat.mul_le_mul_right _ hlt.le
      _ = 2 ^ (f.fracBits + f.expOnes - 1 + f.unitExp) := (Nat.pow_add ..).symm
      _ ≤ 2 ^ (f.fracBits + f.expOnes - 2 + (f.fracBits + f.expOnes - 2)) :=
        Nat.pow_le_pow_right Nat.two_pos (by cases f <;> decide)
      _ = _ := Nat.pow_add ..
  have hle : sqrtMag f (m * f.oneMag) ≤ 2 ^ (f.fracBits + f.expOnes - 2) :=
    roundMag_le f (hasSpacing_two_pow f _) ((sqrtTwice_le_iff hn _).2 hsq) Nat.two_pos
  exact hle.trans_lt (Nat.pow_lt_pow_right Nat.one_lt_two (by cases f <;> decide))

/-- Settles O23: the integer `fsqrt` rounds compares with a double as the root with its half (`sqrtTwice_le_iff`,
`le_sqrtTwice_iff`), and the numbers near a root are even, so that their midpoints are integers (`sqrtMag_rootNearer`). -/
theorem squareRootCorrectlyRounded : Obligations.SquareRootCorrectlyRounded := by
  refine fun f => ⟨fun _ => rfl, rfl, rfl, rfl, fun m hm => if_neg hm, fun m hm hrep => ?_⟩
  obtain ⟨hlt, _⟩ := (representable_fin f false m).1 hrep
  have hround := sqrtMag_lt f hm hlt
  refine ⟨sqrtMag f (m * f.oneMag), ?_, ?_, fun k hk => sqrtMag_rootNearer (le_mul_oneMag f hm) hk⟩
  · exact (fsqrt_fin_pos f hm).trans (roundToF_of_lt false hround)
  · exact (representable_fin f false _).2 ⟨hround, roundMag_hasSpacing f _ Nat.two_pos⟩

/-! ## NormalScale (R138) -/

/-- Adding `+0` leaves a number of the format as it is, except that `-0` becomes `+0`. -/
theorem fadd_posZero {f : Flen} {x : Flt} (h : x.representable f = true) :
    fadd f x (.fin false 0) = if x = .fin true 0 then .fin false 0 else x := by
  by_cases hneg : x = .fin true 0
  · rw [hneg, if_pos rfl]
    rfl
  · rw [if_neg hneg]
    by_cases hpos : x = .fin false 0
    · rw [hpos]
      rfl
    · exact fadd_zero h hpos hneg false

/-- Settles O36: multiplying by 1.0 is exact, and then `+0` is added. -/
theorem normalScaleDefaults : Obligations.NormalScaleDefaults := by
  refine ⟨fun _ _ _ _ => rfl, fun f z hz _ => ?_⟩
  rw [normalScale, fmul_one hz, fadd_posZero hz]

namespace Machine

/-! ## BMXF (R137) -/

/-- `TWO_PI_F` of the wide format by its encoding (R130). -/
theorem twoPi_binary64 : Flen.twoPi .binary64 = unpackF .binary64 0x401921FB54442D18#64 := by decide +kernel

/-- `TWO_PI_F` of the narrow format by its encoding (R130). -/
theorem twoPi_binary32 : Flen.twoPi .binary32 = unpackF .binary32 0x40C90FDB#64 := by decide +kernel

/-- The row of `BMXF` asks `RSV = 0`, `N = 0` and, in the narrow format, zero upper halves of `A` and `B` (R62, R65). -/
theorem rsv_n_floatHalves_isZero (f : Flen) (w : CmdWord) :
    (∀ z ∈ ZeroField.rsv :: ZeroField.n :: floatHalves f, w.isZero z = true) ↔
      w.rsv = 0 ∧ w.n = 0 ∧ (f = .binary64 ∨ (w.a.extractLsb' 32 32 = 0 ∧ w.b.extractLsb' 32 32 = 0)) := by
  have h := rsv_floatHalves_isZero f w
  simp only [List.forall_mem_cons, CmdWord.isZero_rsv, CmdWord.isZero_n] at h ⊢
  rw [and_left_comm, h, and_left_comm]

theorem domOf_singleton (u : Flt) : domOf [u] = !u.gtZero := by rw [domOf_cons, domOf_nil, Bool.or_false]

/-- Settles O35: `BMXF` answers the same in every state (`runBmxf_next`), and its row of R62 field by field. -/
theorem bmxfCommand : Obligations.BmxfCommand := by
  intro s u1 u2 f twoPi r a
  have htwoPi : twoPi = f.twoPi := by
    simp only [twoPi]
    generalize f = g
    cases g
    · exact twoPi_binary64.symm
    · exact twoPi_binary32.symm
  refine ⟨?_, fun w h => runWord_of_op (o := .bmxf) h (rsv_n_floatHalves_isZero _ w)⟩
  refine ⟨packF f (Config.nanChoice s.source s.nanDraws) (fmul f r (s.cfg.elem.cos f a)),
    packF f (Config.nanChoice s.source (s.nanDraws + 1)) (fmul f r (s.cfg.elem.sin f a)), s.nanDraws + 2, ?_,
    represents_packF .., represents_packF ..⟩
  have hz : transform s.cfg.elem f (unpackF f u1) (unpackF f u2) =
      (fmul f r (s.cfg.elem.cos f a), fmul f r (s.cfg.elem.sin f a)) := by
    simp only [transform, radius, angle, ← htwoPi, r, a]
  rw [exec, execBmxf, runBmxf_next, hz, domOf_singleton]
  congr 1
  apply State.ext_fields <;> simp [packAll, f]

/-! ## NORMB (R139) -/

/-- Settles O38: `NORMB` in closed form where it draws, value `i` of the batch coming from pair `i / 2`; its two refusals; and
its row of R62 field by field. -/
theorem normbCommand : Obligations.NormbCommand := by
  refine fun s n mu sigma => ⟨fun x hE hS hn => ?_, fun hE => drawing_notSeeded hE _ _,
    fun hE hn => drawing_negative hE ((batchLength_neg n).2 hn) _, fun w h =>
      runWord_of_op (o := .normb) h (rsv_floatHalves_isZero _ w)⟩
  obtain ⟨hpos, hlen⟩ := batchLength_of_msb_false hn
  set f := s.cfg.flen
  set vs := (normalBatch s.cfg.elem f (unpackF f mu) (unpackF f sigma) (pairCount n.toNat) n.toNat x).values
  have hvlen : vs.length = n.toNat := normalBatch_length (h := rfl) ..
  have hplen : (packAll s.source f s.nanDraws vs).length = n.toNat := (packAll_length ..).trans hvlen
  refine ⟨packAll s.source f s.nanDraws vs, _, s.nanDraws + vs.length, ?_, hplen, domOf_map_range _ _, fun i d hd => ?_⟩
  · rw [exec, execNormb, runNormb_run _ mu sigma hE hS hpos, hlen]
    rfl
  · have hi : i < n.toNat := hplen ▸ (List.getElem?_eq_some_iff.1 hd).1
    exact represents_packAll (normalBatch_getElem? _ f _ _ _ _ x rfl hi) hd

end Machine

end Sys2Proof
end

section
/-! PROOFS. Refusals (R160 to R167): the one status a command is answered with, and what each status leaves. -/

namespace Sys2Proof.Machine

/-! ## The status of a command (R162, R164, R166) -/

/-- The status a command is answered with, `NotSeeded` before `InvalidArgument` (R166). -/
def commandStatus (seeded : Bool) (i : Instr) : Status :=
  if isDrawing i && !seeded then .notSeeded
  else if hasNegativeLength i then .invalidArgument
  else .ok

theorem statusFor_of_ok {f : Flen} {w : CmdWord} {i : Instr} (seeded : Bool) (h : decode f w = .ok i) :
    statusFor f seeded w = commandStatus seeded i := by
  simp only [statusFor, h, commandStatus]

theorem statusFor_of_error {f : Flen} {w : CmdWord} {e : Illegal} (seeded : Bool) (h : decode f w = .error e) :
    statusFor f seeded w = .illegalCommand := by
  simp only [statusFor, h]

theorem isDrawing_iff (i : Instr) :
    isDrawing i = true ↔ i = .nextu32 ∨ i = .nextuf ∨ (∃ n a b, i = .unifb n a b) ∨ ∃ n a b, i = .normb n a b := by
  cases i <;> simp [isDrawing]

theorem hasNegativeLength_iff (i : Instr) :
    hasNegativeLength i = true ↔ ∃ n a b, n.getLsbD 31 = true ∧ (i = .unifb n a b ∨ i = .normb n a b) := by
  cases i <;> simp [hasNegativeLength, BitVec.msb_eq_getLsbD_last]

theorem isDrawing_of_hasNegativeLength {i : Instr} (h : hasNegativeLength i = true) : isDrawing i = true := by
  cases i <;> simp_all [hasNegativeLength, isDrawing]

theorem commandStatus_notSeeded_iff (seeded : Bool) (i : Instr) :
    commandStatus seeded i = .notSeeded ↔ seeded = false ∧ isDrawing i = true := by
  unfold commandStatus
  cases seeded <;> split_ifs <;> simp_all

/-- A negative length is reported where `NotSeeded` is not, since only drawing commands carry a length. -/
theorem commandStatus_invalidArgument_iff (seeded : Bool) (i : Instr) :
    commandStatus seeded i = .invalidArgument ↔ seeded = true ∧ hasNegativeLength i = true := by
  have hdraw := isDrawing_of_hasNegativeLength (i := i)
  unfold commandStatus
  split_ifs <;> simp_all

/-! ## What a status leaves -/

/-- Between two states stands one response: data beats, then one completion beat with a status. -/
def CompletesWith (e : Status) (s t : State) : Prop :=
  ∃ (ds : List U64) (dom : Bool) (count : U32), t.pending = s.pending ++ ds.map Beat.data ++ [.completion e dom count]

theorem completesWith_raise (e : Status) (s : State) : CompletesWith e s (s.raise e) := ⟨[], false, 0, by simp⟩

theorem completesWith_emitFloats {s u : State} (hu : u.pending = s.pending) (vs : List Flt) (dom : Bool) (count : U32) :
    CompletesWith .ok s ((u.emitFloats vs).complete .ok dom count) :=
  ⟨_, dom, count, by rw [State.complete_pending, State.emitFloats_pending, hu]⟩

/-- The one completion beat of a response carries its status. -/
theorem CompletesWith.status_eq {e e' : Status} {s t : State} {dom : Bool} {count : U32} (h : CompletesWith e s t)
    (hm : .completion e' dom count ∈ newBeats s t) : e' = e := by
  obtain ⟨ds, dom', count', hp⟩ := h
  rw [newBeats, hp, List.append_assoc, List.drop_left] at hm
  have hbeat : e' = e ∧ dom = dom' ∧ count = count' := by simpa using hm
  exact hbeat.1

/-! ## Everything a command can answer -/

/-- A command answers the refusal of its status; or, with status `OK`, a response; or it faults, where `SEEDED = 1` and `S`
holds no value (U10). -/
def AnswersByStatus (i : Instr) (s : State) : Prop :=
  (commandStatus s.SEEDED i ≠ .ok ∧ exec i s = refusedWith (commandStatus s.SEEDED i) s) ∨
  (commandStatus s.SEEDED i = .ok ∧ ∃ t, exec i s = .next t ∧ CompletesWith .ok s t) ∨
  (commandStatus s.SEEDED i = .ok ∧ s.SEEDED = true ∧ s.S = none ∧ exec i s = .fault .stateWordAbsent)

/-- The head of a drawing command makes its refusals in R166's order, so it is enough that its continuation responds. -/
theorem answersByStatus_of_drawing {i : Instr} {s : State} {n : Int} {k : U64 → Host.Outcome State Fault Refusal}
    (hi : isDrawing i = true) (hexec : exec i s = drawing n s k) (hn : n < 0 ↔ hasNegativeLength i = true)
    (hk : ∀ w, ∃ t, k w = .next t ∧ CompletesWith .ok s t) : AnswersByStatus i s := by
  unfold AnswersByStatus
  rw [hexec]
  cases hE : s.SEEDED with
  | false =>
    have hst : commandStatus false i = .notSeeded := (commandStatus_notSeeded_iff _ i).2 ⟨rfl, hi⟩
    exact .inl ⟨by simp [hst], by rw [hst, drawing_notSeeded hE]; rfl⟩
  | true =>
    by_cases hneg : n < 0
    · have hst : commandStatus true i = .invalidArgument := (commandStatus_invalidArgument_iff _ i).2 ⟨rfl, hn.1 hneg⟩
      exact .inl ⟨by simp [hst], by rw [hst, drawing_negative hE hneg]; rfl⟩
    · have hst : commandStatus true i = .ok := by simp [commandStatus, ← hn, hneg]
      cases hS : s.S with
      | none => exact .inr (.inr ⟨hst, rfl, rfl, by simp [drawing, hE, hneg, hS]⟩)
      | some w => exact .inr (.inl ⟨hst, by rw [drawing_run hE (not_lt.1 hneg) hS]; exact hk w⟩)

theorem exec_answersByStatus (i : Instr) (s : State) : AnswersByStatus i s := by
  cases i with
  | seed v => exact .inr (.inl ⟨rfl, _, rfl, [], false, 0, by simp⟩)
  | nextu32 => exact answersByStatus_of_drawing rfl rfl (by decide) fun w => ⟨_, rfl, [_], false, 1, rfl⟩
  | nextuf => exact answersByStatus_of_drawing rfl rfl (by decide) fun w => ⟨_, rfl, completesWith_emitFloats rfl ..⟩
  | unifb n low high =>
    exact answersByStatus_of_drawing rfl rfl (batchLength_neg n) fun w => ⟨_, rfl, completesWith_emitFloats rfl ..⟩
  | bmxf u1 u2 => exact .inr (.inl ⟨rfl, _, rfl, completesWith_emitFloats rfl ..⟩)
  | normb n mu sigma =>
    exact answersByStatus_of_drawing rfl rfl (batchLength_neg n) fun w => ⟨_, rfl, completesWith_emitFloats rfl ..⟩

/-- A status other than `OK` is a refusal, in every state. -/
theorem exec_of_commandStatus_ne_ok {i : Instr} {s : State} (h : commandStatus s.SEEDED i ≠ .ok) :
    exec i s = refusedWith (commandStatus s.SEEDED i) s := by
  obtain ⟨_, hr⟩ | ⟨hok, _⟩ | ⟨hok, _⟩ := exec_answersByStatus i s
  · exact hr
  · exact absurd hok h
  · exact absurd hok h

/-- An answered command completes with its status. -/
theorem exec_completesWith {i : Instr} {s t : State} (h : exec i s = .next t) :
    CompletesWith (commandStatus s.SEEDED i) s t := by
  obtain ⟨_, hr⟩ | ⟨hok, u, hu, hc⟩ | ⟨_, _, _, hf⟩ := exec_answersByStatus i s
  · cases hr.symm.trans h
    exact completesWith_raise _ s
  · cases hu.symm.trans h
    rwa [hok]
  · cases hf.symm.trans h

/-- No command faults where `SEEDED` says whether `S` holds a value. -/
theorem exec_total {s : State} (hs : s.SEEDED = s.S.isSome) (i : Instr) : ∃ t, exec i s = .next t := by
  obtain ⟨_, hr⟩ | ⟨_, t, ht, _⟩ | ⟨_, hE, hS, _⟩ := exec_answersByStatus i s
  · exact ⟨_, hr⟩
  · exact ⟨t, ht⟩
  · simp [hE, hS] at hs

/-! ## The statements -/

/-- Settles O42: the beat of an answered command carries the command's status, `NotSeeded` exactly for a drawing command of
an unseeded block. -/
theorem notSeededExactly : Obligations.NotSeededExactly := by
  refine fun i s => ⟨fun hE hi => ?_, fun t dom count h hm => ?_⟩
  · have hst := (commandStatus_notSeeded_iff s.SEEDED i).2 ⟨hE, (isDrawing_iff i).2 hi⟩
    rw [exec_of_commandStatus_ne_ok (by simp [hst]), hst]
  · have hst := (exec_completesWith h).status_eq hm
    exact ((commandStatus_notSeeded_iff s.SEEDED i).1 hst.symm).imp_right (isDrawing_iff i).1

/-- Settles O43: the beat of an answered command carries the command's status, `InvalidArgument` exactly for a negative
length on a seeded block. -/
theorem invalidArgumentExactly : Obligations.InvalidArgumentExactly := by
  refine fun i s => ⟨fun n a b hE hn hi => ?_, fun t dom count h hm => ?_⟩
  · have hneg := (hasNegativeLength_iff i).2 ⟨n, a, b, hn, hi⟩
    have hst := (commandStatus_invalidArgument_iff s.SEEDED i).2 ⟨hE, hneg⟩
    rw [exec_of_commandStatus_ne_ok (by simp [hst]), hst]
  · have hst := (exec_completesWith h).status_eq hm
    exact ((commandStatus_invalidArgument_iff s.SEEDED i).1 hst.symm).imp_right (hasNegativeLength_iff i).1

/-- Settles O44: a word runs a command, which is answered and completes with its status, or is the refusal of an illegal
word. -/
theorem everyWordAnsweredByPriority : Obligations.EveryWordAnsweredByPriority := by
  intro w s hs
  have hword : ∃ t, runWord w s = .next t ∧ CompletesWith (statusFor s.cfg.flen s.SEEDED w) s t := by
    cases hd : decode s.cfg.flen w with
    | error e =>
      rw [statusFor_of_error _ hd, runWord_of_decode_error hd]
      exact ⟨_, rfl, completesWith_raise _ s⟩
    | ok i =>
      obtain ⟨t, ht⟩ := exec_total hs i
      rw [statusFor_of_ok _ hd, runWord, hd]
      exact ⟨t, ht, exec_completesWith ht⟩
  obtain ⟨t, ht, ds, dom, count, hp⟩ := hword
  exact ⟨t, ds, dom, count, ht, hp⟩

/-- Settles O45: an illegal word is refused, and so is a command whose status is not `OK`. -/
theorem refusalHasNoEffect : Obligations.RefusalHasNoEffect := by
  intro w s h
  cases hd : decode s.cfg.flen w with
  | error e => rw [statusFor_of_error _ hd, runWord_of_decode_error hd, refusedWith]
  | ok i =>
    rw [statusFor_of_ok _ hd] at h ⊢
    rw [runWord, hd]
    exact exec_of_commandStatus_ne_ok h

end Sys2Proof.Machine
end

section
/-! PROOFS. `encode` and `decode` undo each other (R61, R62, R69), and the bits and bytes of words and beats (R44, R70,
R71). -/

namespace Sys2Proof

/-! ## Encoding and decoding -/

/-- A word that meets a row spells the row's command (R69). -/
theorem Opcode.RowMet.decode_eq {f : Flen} {w : CmdWord} {o : Opcode} (h : o.RowMet f w) :
    decode f w = .ok (o.instr w) := by
  obtain ⟨_, hok⟩ | ⟨hn, _⟩ := decode_of_op (f := f) h.1
  · exact hok
  · exact absurd h hn

/-- A word that decodes to a command meets the row of the command's opcode, and the command is that row's. -/
theorem rowMet_of_decode {f : Flen} {w : CmdWord} {i : Instr} (h : decode f w = .ok i) :
    i.opcode.RowMet f w ∧ i.opcode.instr w = i := by
  have hrow := (decode_ok_opcode_iff f w i.opcode).1 ⟨i, h, rfl⟩
  exact ⟨hrow, Except.ok.inj (hrow.decode_eq.symm.trans h)⟩

/-- The fields a command's word uses are the command's operands. -/
theorem instr_encode (i : Instr) : i.opcode.instr (encode i) = i := by
  cases i <;> simp [Instr.opcode, Opcode.instr, encode]

/-- The word of a well-formed command meets the row of its opcode. -/
theorem rowMet_encode {f : Flen} {i : Instr} (h : i.wellFormed f = true) : i.opcode.RowMet f (encode i) := by
  cases i <;>
    simp_all [Opcode.RowMet, Instr.opcode, Opcode.zeroFields, encode, Instr.wellFormed, floatHalves_isZero]

/-- A word that meets a row is the encoding of the row's command: its unused fields are zero. -/
theorem Opcode.RowMet.encode_instr {f : Flen} {w : CmdWord} {o : Opcode} (h : o.RowMet f w) :
    encode (o.instr w) = w := by
  obtain ⟨hop, hzero⟩ := h
  conv_rhs => rw [← assemble_fields w, hop]
  cases o <;> simp_all [Opcode.zeroFields, Opcode.instr, encode]

/-- The operands of a word that meets a row are operand fields of the format. -/
theorem Opcode.RowMet.wellFormed_instr {f : Flen} {w : CmdWord} {o : Opcode} (h : o.RowMet f w) :
    (o.instr w).wellFormed f = true := by
  obtain ⟨_, hzero⟩ := h
  cases o <;> simp_all [Opcode.zeroFields, Opcode.instr, Instr.wellFormed, floatHalves_isZero]

/-- Settles O1: the word of a well-formed command meets its opcode's row, and its fields are the command's operands. -/
theorem decodeEncodeRoundTrip : Obligations.DecodeEncodeRoundTrip := fun f i h => by
  rw [(rowMet_encode h).decode_eq, instr_encode]

/-- Settles O2: a word that decodes meets the row of its command's opcode, so its unused fields are zero. -/
theorem encodeDecodeRoundTrip : Obligations.EncodeDecodeRoundTrip := fun f w i h => by
  obtain ⟨hrow, hi⟩ := rowMet_of_decode h
  rw [← hi]
  exact ⟨hrow.encode_instr, hrow.wellFormed_instr⟩

/-- Settles O6: each word is evaluated. -/
theorem workedWordsDecode : Obligations.WorkedWordsDecode := ⟨rfl, rfl, rfl, rfl, rfl, rfl⟩

/-! ## Bytes (R44, R45) -/

/-- Little-endian bytes of a number spell it. -/
theorem natOfBytes_bytes (x n : Nat) :
    natOfBytes ((List.range n).map fun k => BitVec.ofNat 8 (x / 2 ^ (8 * k))) = x % 2 ^ (8 * n) := by
  induction n generalizing x with
  | zero => simp [natOfBytes, Nat.mod_one]
  | succ n ih =>
    have hshift : ∀ k, x / 2 ^ (8 * (k + 1)) = x / 256 / 2 ^ (8 * k) := fun k => by
      rw [Nat.div_div_eq_div_mul, Nat.mul_succ, Nat.pow_add, Nat.mul_comm]
    have hmod : x % 2 ^ (8 * (n + 1)) = x % 256 + 256 * (x / 256 % 2 ^ (8 * n)) := by
      rw [Nat.mul_succ, Nat.add_comm, Nat.pow_add, Nat.mod_mul]
    simp only [List.range_succ_eq_map, List.map_cons, List.map_map, Function.comp_def, natOfBytes, Nat.succ_eq_add_one,
      hshift, ih, hmod]
    simp

theorem bytesOfWord_length (w : CmdWord) : (bytesOfWord w).length = 24 := by simp [bytesOfWord]

theorem bytesOfBeat_length (r : RspWord) : (bytesOfBeat r).length = 9 := by simp [bytesOfBeat]

/-- The stored bytes of a word spell the word. -/
theorem wordOfBytes_bytesOfWord (w : CmdWord) : wordOfBytes (bytesOfWord w) = w := by
  have hbyte : ∀ k, w.extractLsb' (8 * k) 8 = BitVec.ofNat 8 (w.toNat / 2 ^ (8 * k)) := fun k => by
    rw [← Nat.shiftRight_eq_div_pow]
    rfl
  apply BitVec.eq_of_toNat_eq
  simp only [wordOfBytes, bytesOfWord, hbyte, natOfBytes_bytes, BitVec.toNat_ofNat]
  simp [Nat.mod_eq_of_lt w.isLt]

/-- Stored bytes are decoded as the word they spell, and the bytes after them are left. -/
theorem decodeBytes_bytesOfWord (f : Flen) (w : CmdWord) (rest : List Byte) :
    decodeBytes f (bytesOfWord w ++ rest) = (decode f w).map (fun i => (i, rest)) := by
  have hlen := bytesOfWord_length w
  have hlt : ¬ (bytesOfWord w ++ rest).length < 24 := by simp [hlen]
  rw [decodeBytes, if_neg hlt, ← hlen, List.take_left, List.drop_left, wordOfBytes_bytesOfWord]
  cases decode f w <;> rfl

/-- Byte `k` of a list of a bit vector's bytes holds its bits `8k + 7` to `8k`. -/
theorem getLsbD_byte {n m k j : Nat} (x : BitVec n) (hk : k < m) (hj : j < 8) :
    (((List.range m).map fun k => x.extractLsb' (8 * k) 8)[k]?.map fun b => b.getLsbD j) =
      some (x.getLsbD (8 * k + j)) := by
  simp [hk, hj]

/-- Settles O7: the bytes of a word spell it (`natOfBytes_bytes`), and each byte is eight bits of it. -/
theorem storedBytesDecode : Obligations.StoredBytesDecode := by
  refine ⟨decodeBytes_bytesOfWord, fun w => ⟨bytesOfWord_length w, rfl, fun k j hk hj => getLsbD_byte w hk hj⟩,
    fun r => ⟨bytesOfBeat_length r, fun k j hk hj => getLsbD_byte r hk hj⟩, fun f bs h => if_pos h⟩

end Sys2Proof

namespace Sys2Proof.Machine

/-! ## Beats (R70, R71, R161) -/

theorem Status.code_injective {a b : Status} (h : a.code = b.code) : a = b := by
  cases a <;> cases b <;> simp_all [Status.code]

theorem dataBits_done (v : U64) : (Beat.data v).bits.getLsbD 64 = false := by
  simp only [Beat.bits, BitVec.getLsbD_append]
  rfl

theorem dataBits_data (v : U64) : (Beat.data v).bits.extractLsb' 0 64 = v :=
  BitVec.extractLsb'_append_eq_right

/-- The fields of a completion beat, each in its place. -/
theorem completionBits_fields (status : Status) (dom : Bool) (count : U32) :
    let b := (Beat.completion status dom count).bits
    b.getLsbD 64 = true ∧ b.extractLsb' 0 4 = status.code ∧ b.getLsbD 4 = dom ∧ b.extractLsb' 5 3 = 0 ∧
      b.extractLsb' 8 32 = count ∧ b.extractLsb' 40 24 = 0 := by
  refine ⟨?_, BitVec.extractLsb'_append_eq_right, ?_, ?_, ?_, ?_⟩
  · simp only [Beat.bits, BitVec.getLsbD_append]
    rfl
  · simp only [Beat.bits, BitVec.getLsbD_append]
    simp
  · rw [Beat.bits, BitVec.extractLsb'_append_eq_of_le (by omega), BitVec.extractLsb'_append_eq_of_le (by omega)]
    exact BitVec.extractLsb'_append_eq_right
  · rw [Beat.bits, BitVec.extractLsb'_append_eq_of_le (by omega), BitVec.extractLsb'_append_eq_of_le (by omega),
      BitVec.extractLsb'_append_eq_of_le (by omega)]
    exact BitVec.extractLsb'_append_eq_right
  · rw [Beat.bits, BitVec.extractLsb'_append_eq_of_le (by omega), BitVec.extractLsb'_append_eq_of_le (by omega),
      BitVec.extractLsb'_append_eq_of_le (by omega), BitVec.extractLsb'_append_eq_of_le (by omega)]
    exact BitVec.extractLsb'_append_eq_right

/-- The bits of a beat tell its kind and its fields. -/
theorem Beat.bits_injective {b c : Beat} (h : b.bits = c.bits) : b = c := by
  cases b with
  | data v =>
    cases c with
    | data v' => rw [← dataBits_data v, h, dataBits_data]
    | completion status dom count =>
      obtain ⟨hdone, _⟩ := completionBits_fields status dom count
      rw [← h, dataBits_done] at hdone
      exact absurd hdone Bool.false_ne_true
  | completion status dom count =>
    obtain ⟨hdone, hstatus, hdom, _, hcount, _⟩ := completionBits_fields status dom count
    cases c with
    | data v =>
      rw [h, dataBits_done] at hdone
      exact absurd hdone Bool.false_ne_true
    | completion status' dom' count' =>
      obtain ⟨_, hstatus', hdom', _, hcount', _⟩ := completionBits_fields status' dom' count'
      rw [h] at hstatus hdom hcount
      rw [Status.code_injective (hstatus.symm.trans hstatus'), hdom.symm.trans hdom', hcount.symm.trans hcount']

/-- Settles O8: each field is read off the bits of its beat, and so no two beats have the same bits. -/
theorem beatLayout : Obligations.BeatLayout :=
  ⟨fun v => ⟨dataBits_done v, dataBits_data v⟩, completionBits_fields, by intro status; cases status <;> decide,
    rfl, rfl, rfl, rfl, fun _ _ h => Beat.bits_injective h⟩

end Sys2Proof.Machine
end

section
/-! PROOFS. Edges and runs: the invariant (R21, R50), the non-zero word (R32), and the fold of `Exec` (R49, R202). -/

namespace Sys2Proof.Machine

/-! ## What a command does to the state word -/

/-- A command stores a seed, leaves the word and the flag as they are, or draws from the word of a seeded block. -/
def WordUpdate (i : Instr) (s t : State) : Prop :=
  (∃ v, i = .seed v ∧ t.S = some v ∧ t.SEEDED = true) ∨
  (t.S = s.S ∧ t.SEEDED = s.SEEDED) ∨
  ∃ v k, HoldsWord s v ∧ HoldsWord t (nextIter k v)

theorem exec_wordUpdate {i : Instr} {s t : State} (h : exec i s = .next t) : WordUpdate i s t := by
  cases i with
  | seed v =>
    cases h
    exact .inl ⟨v, rfl, rfl, rfl⟩
  | nextu32 =>
    obtain ⟨_, rfl⟩ | ⟨w, hE, hS, rfl⟩ := execNextu32_next h
    · exact .inr (.inl ⟨rfl, rfl⟩)
    · exact .inr (.inr ⟨w, _, ⟨hS, hE⟩, rfl, hE⟩)
  | nextuf =>
    obtain ⟨_, rfl⟩ | ⟨w, hE, hS, rfl⟩ := execNextuf_next h
    · exact .inr (.inl ⟨rfl, rfl⟩)
    · exact .inr (.inr ⟨w, _, ⟨hS, hE⟩, rfl, hE⟩)
  | unifb n low high =>
    obtain ⟨_, rfl⟩ | ⟨_, _, rfl⟩ | ⟨w, hE, _, hS, rfl⟩ := execUnifb_next h
    · exact .inr (.inl ⟨rfl, rfl⟩)
    · exact .inr (.inl ⟨rfl, rfl⟩)
    · exact .inr (.inr ⟨w, _, ⟨hS, hE⟩, rfl, hE⟩)
  | bmxf u1 u2 =>
    cases h
    exact .inr (.inl ⟨rfl, rfl⟩)
  | normb n mu sigma =>
    obtain ⟨_, rfl⟩ | ⟨_, _, rfl⟩ | ⟨w, hE, _, hS, rfl⟩ := runNormb_next h
    · exact .inr (.inl ⟨rfl, rfl⟩)
    · exact .inr (.inl ⟨rfl, rfl⟩)
    · exact .inr (.inr ⟨w, _, ⟨hS, hE⟩, rfl, hE⟩)

/-- A word keeps `SEEDED = 1` exactly while `S` holds a value (R21). -/
theorem runWord_keepsSeeded {w : CmdWord} {s t : State} (hs : s.SEEDED = s.S.isSome) (h : runWord w s = .next t) :
    t.SEEDED = t.S.isSome := by
  obtain ⟨i, _, hi⟩ | ⟨e, _, rfl⟩ := runWord_next h
  · obtain ⟨v, _, hS, hE⟩ | ⟨hS, hE⟩ | ⟨v, k, _, hS, hE⟩ := exec_wordUpdate hi
    · simp [hS, hE]
    · rw [hS, hE, hs]
    · simp [hS, hE]
  · exact hs

/-- A word other than `SEED 0` leaves a state word that is not zero where it found one (R32, R96). -/
theorem runWord_keepsNonZero {w : CmdWord} {s t : State} (hs : s.S ≠ some 0) (hw : decode s.cfg.flen w ≠ .ok (.seed 0))
    (h : runWord w s = .next t) : t.S ≠ some 0 := by
  obtain ⟨i, hd, hi⟩ | ⟨e, _, rfl⟩ := runWord_next h
  · obtain ⟨v, rfl, hS, _⟩ | ⟨hS, _⟩ | ⟨v, k, ⟨hv, _⟩, hS, _⟩ := exec_wordUpdate hi
    · rw [hS]
      rintro ⟨⟩
      exact hw hd
    · rwa [hS]
    · rw [hS]
      intro h0
      exact hs (hv.trans (congrArg some ((nextIter_eq_zero_iff k v).1 (Option.some.inj h0))))
  · exact hs

/-! ## The invariant -/

/-- The rest of a response: data beats, at most as many as `COUNT` says, then one completion beat; a refusal's has
`DOM = 0` and `COUNT = 0`. -/
def ResponseRest (bs : List Beat) : Prop :=
  ∃ (ds : List U64) (status : Status) (dom : Bool) (count : U32),
    bs = ds.map Beat.data ++ [.completion status dom count] ∧ ds.length ≤ count.toNat ∧
    (status ≠ .ok → dom = false ∧ count = 0)

theorem not_isCompletion_iff (b : Beat) : (!b.isCompletion) = true ↔ ∃ v, Beat.data v = b := by
  cases b <;> simp [Beat.isCompletion]

/-- Beats none of which is a completion beat are the data beats of some values. -/
theorem all_not_isCompletion_iff (bs : List Beat) :
    bs.all (fun b => !b.isCompletion) = true ↔ ∃ ds : List U64, ds.map Beat.data = bs := by
  simp only [List.all_eq_true, not_isCompletion_iff]
  exact (Set.ext_iff.1 (Set.range_list_map Beat.data) bs).symm

theorem responseOk_concat_data (bs : List Beat) (v : U64) : responseOk (bs ++ [.data v]) = false := by
  simp [responseOk]

theorem responseOk_concat_completion (bs : List Beat) (status : Status) (dom : Bool) (count : U32) :
    responseOk (bs ++ [.completion status dom count]) = true ↔
      (∃ ds : List U64, ds.map Beat.data = bs) ∧ bs.length ≤ count.toNat ∧
        (status ≠ .ok → dom = false ∧ count = 0) := by
  rw [← all_not_isCompletion_iff]
  simp [responseOk, and_assoc, or_iff_not_imp_left]

theorem responseOk_iff (bs : List Beat) : responseOk bs = true ↔ bs = [] ∨ ResponseRest bs := by
  constructor
  · intro h
    obtain rfl | ⟨bs', b, rfl⟩ := List.eq_nil_or_concat' bs
    · exact .inl rfl
    · cases b with
      | data v => simp [responseOk_concat_data] at h
      | completion status dom count =>
        obtain ⟨⟨ds, rfl⟩, hlen, hst⟩ := (responseOk_concat_completion ..).1 h
        exact .inr ⟨ds, status, dom, count, rfl, by simpa using hlen, hst⟩
  · rintro (rfl | ⟨ds, status, dom, count, rfl, hlen, hst⟩)
    · rfl
    · exact (responseOk_concat_completion ..).2 ⟨⟨ds, rfl⟩, by simpa using hlen, hst⟩

/-- The rest of a response without its first beat is the rest of a response, or nothing. -/
theorem responseOk_tail {bs : List Beat} (h : responseOk bs = true) : responseOk bs.tail = true := by
  rw [responseOk_iff] at h ⊢
  obtain rfl | ⟨ds, status, dom, count, rfl, hlen, hst⟩ := h
  · exact .inl rfl
  · cases ds with
    | nil => exact .inl rfl
    | cons d ds => exact .inr ⟨ds, status, dom, count, rfl, (Nat.le_succ _).trans hlen, hst⟩

theorem inv_iff (s : State) :
    s.inv = true ↔ s.SEEDED = s.S.isSome ∧ responseOk s.pending = true ∧ (s.pending = [] → s.wait = 0) := by
  simp [State.inv, and_assoc, or_iff_not_imp_left]

/-- The response an idle block begins with a word is whole: its data beats are as many as `COUNT` says. -/
theorem runWord_responseRest {w : CmdWord} {s t : State} (hp : s.pending = []) (h : runWord w s = .next t) :
    ResponseRest t.pending := by
  obtain ⟨ds, status, dom, count, hpend, hcount, _, hno⟩ := countIsDataBeats w s t h
  refine ⟨ds, status, dom, count, by rw [hpend, hp, List.nil_append], hcount.ge, fun hst => ?_⟩
  obtain ⟨rfl, hdom⟩ := hno hst
  exact ⟨hdom, BitVec.eq_of_toNat_eq hcount⟩

theorem ResponseRest.ne_nil {bs : List Beat} (h : ResponseRest bs) : bs ≠ [] := by
  obtain ⟨ds, status, dom, count, rfl, _⟩ := h
  simp

/-- After the last beat of a response nothing is waited for. -/
theorem State.takeBeat_wait {s : State} (hw : s.wait = 0) (hp : s.pending.tail = []) : s.takeBeat.wait = 0 := by
  unfold State.takeBeat
  split
  · exact hw
  · exact hw
  · simp_all

theorem clockEdge_keepsInv {p : Pins} {s t : State} (hs : s.inv = true) (h : clockEdge p s = .next t) :
    t.inv = true := by
  rw [inv_iff] at hs ⊢
  obtain ⟨hseed, hresp, hwait⟩ := hs
  obtain ⟨_, rfl⟩ | ⟨_, _, hp, _, u, hu, rfl⟩ | ⟨_, _, hp, hw, _, rfl⟩ | ⟨_, _, _, _, rfl⟩ := clockEdge_next h
  · exact ⟨rfl, rfl, fun _ => rfl⟩
  · have hrest := runWord_responseRest (s := withHeld p s) hp hu
    have hseed' := runWord_keepsSeeded (s := withHeld p s) hseed hu
    exact ⟨hseed', (responseOk_iff _).2 (.inr hrest), fun h0 => absurd h0 hrest.ne_nil⟩
  · refine ⟨?_, ?_, fun h0 => ?_⟩
    · rw [State.takeBeat_SEEDED, State.takeBeat_S]
      exact hseed
    · rw [State.takeBeat_pending]
      exact responseOk_tail hresp
    · rw [State.takeBeat_pending] at h0
      exact State.takeBeat_wait hw h0
  · exact ⟨hseed, hresp, fun h0 => by rw [State.tick_wait, withHeld, hwait h0]⟩

/-- Settles O52: a word begins one whole response and keeps R21; an edge that takes a beat leaves the rest of it. -/
theorem invariantKeptByStep : Obligations.InvariantKeptByStep := fun s _ hs h =>
  clockEdge_keepsInv (s := s.popPins) hs h

/-- Settles O51: nothing is held, waited for or in flight after reset. -/
theorem invariantAtReset : Obligations.InvariantAtReset := fun _ _ => rfl

/-- Settles O14: only a seed puts a word there that no draw made, and a draw makes no zero of another word. -/
theorem nonZeroWordStaysNonZero : Obligations.NonZeroWordStaysNonZero := by
  intro s t hs hacc h
  obtain ⟨_, rfl⟩ | ⟨hrst, _, hp, hv, u, hu, rfl⟩ | ⟨_, _, _, _, _, rfl⟩ | ⟨_, _, _, _, rfl⟩ := clockEdge_next h
  · exact nofun
  · have hready : cmdReady s.pins s.popPins = true := (cmdReady_iff _ _).2 ⟨hrst, hp⟩
    have hnot := hacc s.pins.cmdData (by simp [acceptedAt, hready, hv])
    exact runWord_keepsNonZero (s := withHeld s.pins s.popPins) (t := u) hs hnot hu
  · rwa [State.takeBeat_S]
  · exact hs

/-! ## A run as a fold (R49, R202) -/

theorem execAll_append {ws ws' : List CmdWord} {s t u : State} (h : execAll ws s = .next t)
    (h' : execAll ws' t = .next u) : execAll (ws ++ ws') s = .next u := by
  induction ws generalizing s with
  | nil =>
    cases h
    exact h'
  | cons w ws ih =>
    obtain ⟨v, hv, hrest⟩ := execAll_cons_next h
    simp only [List.cons_append, execAll, hv]
    exact ih hrest

/-- Two states are the same transaction-level state where word, flag, configuration, choices and stream agree. -/
theorem State.atomic_congr {s t : State} (hS : t.S = s.S) (hE : t.SEEDED = s.SEEDED) (hc : t.cfg = s.cfg)
    (hu : t.source = s.source) (hn : t.nanDraws = s.nanDraws)
    (hp : t.delivered ++ t.pending = s.delivered ++ s.pending) : t.atomic = s.atomic := by
  apply State.ext_fields <;> simp [hS, hE, hc, hu, hn, hp]

/-- A word run at the ports is the word run on the transaction-level state. -/
theorem runWord_atomic {w : CmdWord} {s t : State} (h : runWord w s = .next t) :
    runWord w s.atomic = .next t.atomic := by
  obtain ⟨_, hc, hsrc, _, _, _, hd⟩ := runWord_keepsPorts h
  obtain ⟨bs, hp, hatomic⟩ := runWord_congr (s := s) (s' := s.atomic) rfl rfl rfl rfl rfl h
  rw [hatomic]
  congr 1
  apply State.ext_fields <;> simp [hc, hsrc, hd, hp]

theorem cmdReady_of_busy (p : Pins) {s : State} (hp : s.pending ≠ []) : cmdReady p s = false :=
  Bool.eq_false_iff.2 fun hr => hp ((cmdReady_iff p s).1 hr).2

/-- An edge without reset runs the word it accepts, if any, and changes nothing else at the transaction level. -/
theorem clockEdge_atomic {p : Pins} {s t : State} (hrst : p.rst = false) (h : clockEdge p s = .next t) :
    execAll (acceptedAt p s).toList s.atomic = .next t.atomic := by
  obtain ⟨hr, _⟩ | ⟨_, _, hp, hv, u, hu, rfl⟩ | ⟨_, _, hp, _, _, rfl⟩ | ⟨_, _, hacc, _, rfl⟩ := clockEdge_next h
  · simp [hrst] at hr
  · have hready : cmdReady p s = true := (cmdReady_iff p s).2 ⟨hrst, hp⟩
    have hword : runWord p.cmdData s.atomic = .next u.takeLatency.atomic :=
      runWord_atomic (s := withHeld p s) (t := u) hu
    simp [acceptedAt, hready, hv, execAll, hword]
  · have hready := cmdReady_of_busy p hp
    have hatomic : (withHeld p s).takeBeat.atomic = s.atomic :=
      State.atomic_congr (State.takeBeat_S _) (State.takeBeat_SEEDED _) (State.takeBeat_cfg _) (State.takeBeat_source _)
        (State.takeBeat_nanDraws _) (State.takeBeat_stream (withHeld p s))
    simp [acceptedAt, hready, execAll, hatomic]
  · rw [hacc]
    rfl

theorem core_run_succ (k : Nat) {s t : State} (h : step s = .next t) :
    Host.Core.run core (k + 1) s = Host.Core.run core k t := by
  have hcore : core.step s = .next t := h
  simp only [Host.Core.run, hcore]

theorem core_run_succ_next {k : Nat} {s u : State} (h : Host.Core.run core (k + 1) s = .next u) :
    ∃ t, step s = .next t ∧ Host.Core.run core k t = .next u := by
  cases hs : step s with
  | next t => exact ⟨t, rfl, (core_run_succ k hs).symm.trans h⟩
  | fault r =>
    have hcore : core.step s = .fault r := hs
    simp [Host.Core.run, hcore] at h
  | refused r =>
    have hcore : core.step s = .refused r := hs
    simp [Host.Core.run, hcore] at h

theorem acceptedWords_succ (k : Nat) {s t : State} (h : step s = .next t) :
    acceptedWords (k + 1) s = (acceptedAt s.pins s.popPins).toList ++ acceptedWords k t := by
  simp only [acceptedWords, h]

/-- No reset at the next edge, and none at those after it. -/
theorem noReset_succ {k : Nat} {s t : State} (h : noReset (k + 1) s) (hst : step s = .next t) :
    s.pins.rst = false ∧ noReset k t := by
  obtain ⟨hinputs, _⟩ := step_keeps hst
  unfold noReset State.pins at *
  rw [hinputs]
  cases hi : s.inputs with
  | nil => simp [Pins.idle]
  | cons p ps =>
    rw [hi] at h
    exact ⟨h p (by simp), fun q hq => h q (by simpa using .inr hq)⟩

/-- Settles O53, by induction on the number of edges: each runs the word it accepts on the transaction-level state. -/
theorem runIsFoldOfExec : Obligations.RunIsFoldOfExec := by
  intro k
  induction k with
  | zero =>
    intro s t _ h
    cases h
    rfl
  | succ k ih =>
    intro s u hreset h
    obtain ⟨t, hst, hrun⟩ := core_run_succ_next h
    obtain ⟨hrst, hreset'⟩ := noReset_succ hreset hst
    rw [acceptedWords_succ k hst]
    exact execAll_append (clockEdge_atomic (s := s.popPins) hrst hst) (ih t u hreset' hrun)

end Sys2Proof.Machine
end

section
/-! PROOFS. The ports (R41, R42, R49, R192, R200), delivery in finite time (R203), and several instances or requesters
(R34, R53, R196). -/

namespace Sys2Proof.Machine

/-! ## One edge -/

/-- Settles O58. -/
theorem configurationIsFixed : Obligations.ConfigurationIsFixed := fun _ _ h => (step_keeps h).2

theorem clockEdge_reset {p : Pins} {s : State} (h : p.rst = true) : clockEdge p s = .next (withHeld p s).resetNow := by
  simp [clockEdge, h, withHeld]

/-- Settles O46: a resetting edge is `resetNow`, whatever the state. -/
theorem resetEdge : Obligations.ResetEdge := by
  refine ⟨fun _ _ => ⟨rfl, rfl, rfl, rfl⟩, fun s h => ⟨?_, ?_, (withHeld s.pins s.popPins).resetNow, ?_⟩⟩
  · simp [cmdReady, h]
  · simp [rspValid, h]
  · exact ⟨clockEdge_reset h, rfl, rfl, rfl, rfl, rfl, rfl, rfl, rfl, rfl⟩

theorem holdBroken_iff (p : Pins) (s : State) :
    holdBroken p s = true ↔ p.cmdValid = true ∧ ∃ w, s.held = some w ∧ p.cmdData ≠ w := by
  unfold holdBroken
  split <;> simp_all

/-- Settles O47: the edge accepts the word presented, and what it runs is what the word decodes to. -/
theorem stepRunsAcceptedCommand : Obligations.StepRunsAcceptedCommand := by
  intro s hp hrst hv hheld
  have hhold : holdBroken s.pins s.popPins = false := by
    rw [Bool.eq_false_iff, ne_eq, holdBroken_iff]
    rintro ⟨_, w, hw, hne⟩
    exact hne (hheld w hw)
  have hstep : step s = beginResponse (runWord s.pins.cmdData { s with inputs := s.inputs.tail, held := none }) :=
    clockEdge_accept hrst hhold hp hv
  refine ⟨fun i hd => ?_, fun e hd => ?_, fun _ => rfl⟩
  · rw [hstep, runWord, hd]
  · exact hstep.trans (congrArg beginResponse (runWord_of_decode_error hd))

/-- While beats are in flight an edge without reset takes the beat presented or lets time pass, and accepts no word. -/
theorem clockEdge_busy {p : Pins} {s t : State} (hp : s.pending ≠ []) (hrst : p.rst = false)
    (h : clockEdge p s = .next t) :
    (rspValid p s = true ∧ p.rspReady = true ∧ t = (withHeld p s).takeBeat) ∨
    ((rspValid p s = false ∨ p.rspReady = false) ∧ t = (withHeld p s).tick) := by
  obtain ⟨hr, _⟩ | ⟨_, _, hp0, _⟩ | ⟨_, _, _, hw, hready, ht⟩ | ⟨_, _, _, hno, ht⟩ := clockEdge_next h
  · simp [hrst] at hr
  · exact absurd hp0 hp
  · exact .inl ⟨(rspValid_iff p s).2 ⟨hrst, hp, hw⟩, hready, ht⟩
  · exact .inr ⟨hno, ht⟩

/-- Settles O49: neither taking a beat nor waiting writes the state, and both keep the response stream. -/
theorem busyBlockKeepsState : Obligations.BusyBlockKeepsState := by
  intro s t hp hrst h
  refine ⟨cmdReady_of_busy _ hp, ?_⟩
  obtain ⟨_, _, rfl⟩ | ⟨_, rfl⟩ := clockEdge_busy (s := s.popPins) hp hrst h
  · exact ⟨State.takeBeat_S _, State.takeBeat_SEEDED _, State.takeBeat_cfg _, State.takeBeat_nanDraws _,
      State.takeBeat_stream (withHeld s.pins s.popPins)⟩
  · exact ⟨rfl, rfl, rfl, rfl, rfl⟩

/-- Settles O48: an edge at which the beat is not taken leaves it presented, and one at which it is takes it alone. -/
theorem responseHeldUntilTaken : Obligations.ResponseHeldUntilTaken := by
  intro s t hvalid h
  obtain ⟨hrst, hp, hw⟩ := (rspValid_iff s.pins s).1 hvalid
  have hdata : rspData s.pins s = s.pending.head?.map Beat.bits := if_pos hvalid
  obtain ⟨_, hready, rfl⟩ | ⟨hno, rfl⟩ := clockEdge_busy (s := s.popPins) hp hrst h
  · refine ⟨fun h0 => by simp [hready] at h0, fun _ => ?_⟩
    obtain ⟨b, rest, hbr⟩ := List.exists_cons_of_ne_nil hp
    refine ⟨b, rest, hbr, by rw [hdata, hbr]; rfl, ?_, ?_⟩
    · simp [withHeld, hbr]
    · simp [withHeld, hbr]
  · have hready : s.pins.rspReady = false := hno.resolve_left (fun h0 => by
      have hvalid' : rspValid s.pins s.popPins = true := hvalid
      simp [hvalid'] at h0)
    refine ⟨fun _ => ⟨rfl, fun p hpr => ?_⟩, fun h1 => by simp [hready] at h1⟩
    have hvalid' : rspValid p (withHeld s.pins s.popPins).tick = true :=
      (rspValid_iff _ _).2 ⟨hpr, hp, by simp [withHeld, hw]⟩
    exact ⟨hvalid', (if_pos hvalid').trans hdata.symm⟩

/-- Settles O50: an edge resets, faults for the broken hold, or answers, since the command it runs answers (R166). -/
theorem stopsOnlyWhenHostBreaksHold : Obligations.StopsOnlyWhenHostBreaksHold := by
  intro s hs
  obtain ⟨hseed, _⟩ := (inv_iff s).1 hs
  unfold step clockEdge
  simp only
  split_ifs with hrst hhold hacc htake
  · exact .inl ⟨_, rfl⟩
  · obtain ⟨hv, w, hw, hne⟩ := (holdBroken_iff _ _).1 hhold
    exact .inr ⟨rfl, by simpa using hrst, hv, w, hw, hne⟩
  · obtain ⟨t, _, _, _, ht, _⟩ :=
      everyWordAnsweredByPriority s.pins.cmdData { s.popPins with held := heldAfter s.pins s.popPins } hseed
    exact .inl ⟨t.takeLatency, by rw [ht, beginResponse]⟩
  · exact .inl ⟨_, rfl⟩
  · exact .inl ⟨_, rfl⟩

/-! ## Delivery (R203) -/

/-- A state whose script is given. -/
def State.withInputs (s : State) (inputs : List Pins) : State := { s with inputs := inputs }

/-- A state whose script is the first `k` pins of an endless host. -/
def State.fed (s : State) (pins : Nat → Pins) (k : Nat) : State := s.withInputs ((List.range k).map pins)

theorem State.fed_succ (s : State) (pins : Nat → Pins) (k : Nat) :
    s.fed pins (k + 1) = s.withInputs (pins 0 :: (List.range k).map fun i => pins (i + 1)) := by
  simp [State.fed, List.range_succ_eq_map, Function.comp_def]

/-- What an edge without reset leaves while beats are in flight. -/
def busyEdge (p : Pins) (s : State) : State :=
  if rspValid p s && p.rspReady then (withHeld p s).takeBeat else (withHeld p s).tick

theorem State.takeBeat_withInputs (s : State) (inputs : List Pins) :
    (s.withInputs inputs).takeBeat = s.takeBeat.withInputs inputs := by
  unfold State.takeBeat State.withInputs
  simp only
  split <;> rfl

theorem busyEdge_withInputs (p : Pins) (s : State) (inputs : List Pins) :
    busyEdge p (s.withInputs inputs) = (busyEdge p s).withInputs inputs := by
  have hheld : withHeld p (s.withInputs inputs) = (withHeld p s).withInputs inputs := rfl
  have hvalid : rspValid p (s.withInputs inputs) = rspValid p s := rfl
  unfold busyEdge
  rw [hvalid, hheld, State.takeBeat_withInputs]
  split_ifs <;> rfl

theorem clockEdge_eq_busyEdge {p : Pins} {s : State} (hp : s.pending ≠ []) (hrst : p.rst = false)
    (hhold : holdBroken p s = false) : clockEdge p s = .next (busyEdge p s) := by
  have hready := cmdReady_of_busy p hp
  unfold clockEdge busyEdge withHeld
  simp only [hrst, hhold, hready, Bool.false_and, Bool.false_eq_true, if_false]
  split_ifs <;> rfl

/-- A host that never resets, keeps its word and takes beats again and again. -/
structure FairHost (s : State) (pins : Nat → Pins) : Prop where
  noReset : ∀ k, (pins k).rst = false
  keepsWord : ∀ k, hostKeepsWord k (s.fed pins k)
  takes : ∀ k, ∃ j, k ≤ j ∧ (pins j).rspReady = true

/-- After some number of edges all beats in flight are delivered, in order; the word and the flag are as they were. -/
def DeliversAll (s : State) (pins : Nat → Pins) : Prop :=
  ∃ (k : Nat) (t : State), Host.Core.run core k (s.fed pins k) = .next t ∧ t.pending = [] ∧
    t.delivered = s.delivered ++ s.pending ∧ t.S = s.S ∧ t.SEEDED = s.SEEDED

section
variable {s : State} {pins : Nat → Pins}

theorem deliversAll_of_idle (hp : s.pending = []) : DeliversAll s pins :=
  ⟨0, s.fed pins 0, rfl, hp, by simp [State.fed, State.withInputs, hp], rfl, rfl⟩

theorem FairHost.step_fed (h : FairHost s pins) (hp : s.pending ≠ []) (k : Nat) :
    step (s.fed pins (k + 1)) = .next ((busyEdge (pins 0) s).fed (fun i => pins (i + 1)) k) := by
  have hhold : holdBroken (pins 0) s = false := (h.keepsWord 1).1
  have hedge := clockEdge_eq_busyEdge (p := pins 0) (s := s.withInputs ((List.range k).map fun i => pins (i + 1)))
    hp (h.noReset 0) hhold
  rw [busyEdge_withInputs] at hedge
  rw [State.fed_succ]
  exact hedge

/-- After an edge with beats in flight the host is as fair as before. -/
theorem FairHost.next (h : FairHost s pins) (hp : s.pending ≠ []) :
    FairHost (busyEdge (pins 0) s) (fun i => pins (i + 1)) := by
  refine ⟨fun k => h.noReset (k + 1), fun k => (h.keepsWord (k + 1)).2 _ (h.step_fed hp k), fun k => ?_⟩
  obtain ⟨j, hj, hready⟩ := h.takes (k + 1)
  exact ⟨j - 1, by omega, by rwa [Nat.sub_add_cancel (by omega)]⟩

theorem busyEdge_stream (p : Pins) (s : State) :
    (busyEdge p s).delivered ++ (busyEdge p s).pending = s.delivered ++ s.pending := by
  unfold busyEdge
  split_ifs
  · exact State.takeBeat_stream (withHeld p s)
  · rfl

theorem busyEdge_word (p : Pins) (s : State) : (busyEdge p s).S = s.S ∧ (busyEdge p s).SEEDED = s.SEEDED := by
  unfold busyEdge
  split_ifs
  · exact ⟨State.takeBeat_S _, State.takeBeat_SEEDED _⟩
  · exact ⟨rfl, rfl⟩

/-- What is delivered from the state after an edge is delivered from the state before it. -/
theorem FairHost.deliversAll_of_next (h : FairHost s pins) (hp : s.pending ≠ [])
    (hnext : DeliversAll (busyEdge (pins 0) s) (fun i => pins (i + 1))) : DeliversAll s pins := by
  obtain ⟨k, t, hrun, hpend, hdel, hS, hE⟩ := hnext
  obtain ⟨hbS, hbE⟩ := busyEdge_word (pins 0) s
  exact ⟨k + 1, t, (core_run_succ k (h.step_fed hp k)).trans hrun, hpend, hdel.trans (busyEdge_stream ..), hS.trans hbS,
    hE.trans hbE⟩

theorem busyEdge_of_waiting {p : Pins} (hw : s.wait ≠ 0) : busyEdge p s = (withHeld p s).tick := by
  simp [busyEdge, rspValid, hw]

theorem busyEdge_of_notReady {p : Pins} (h : p.rspReady = false) : busyEdge p s = (withHeld p s).tick := by
  simp [busyEdge, h]

theorem busyEdge_of_taken {p : Pins} (hrst : p.rst = false) (hp : s.pending ≠ []) (hw : s.wait = 0)
    (h : p.rspReady = true) : busyEdge p s = (withHeld p s).takeBeat := by
  simp [busyEdge, (rspValid_iff p s).2 ⟨hrst, hp, hw⟩, h]

end

section
variable {n : Nat}
  (hrest : ∀ (s : State) (pins : Nat → Pins), s.pending.length = n → FairHost s pins → DeliversAll s pins)
include hrest

/-- A beat presented to a host that is ready is taken, and what is left is delivered from there. -/
theorem FairHost.deliversAll_of_ready {s : State} {pins : Nat → Pins} (h : FairHost s pins)
    (hlen : s.pending.length = n + 1) (hw : s.wait = 0) (hready : (pins 0).rspReady = true) : DeliversAll s pins := by
  have hp : s.pending ≠ [] := List.ne_nil_of_length_eq_add_one hlen
  refine h.deliversAll_of_next hp (hrest _ _ ?_ (h.next hp))
  rw [busyEdge_of_taken (h.noReset 0) hp hw hready, State.takeBeat_pending, List.length_tail]
  exact Nat.sub_eq_of_eq_add hlen

/-- A beat presented is taken at the first edge at which the host is ready, and stays presented until then. -/
theorem FairHost.deliversAll_of_presented {j : Nat} {s : State} {pins : Nat → Pins} (h : FairHost s pins)
    (hlen : s.pending.length = n + 1) (hw : s.wait = 0) (hj : (pins j).rspReady = true) : DeliversAll s pins := by
  induction j generalizing s pins with
  | zero => exact h.deliversAll_of_ready hrest hlen hw hj
  | succ j ih =>
    cases hready : (pins 0).rspReady with
    | true => exact h.deliversAll_of_ready hrest hlen hw hready
    | false =>
      have hp : s.pending ≠ [] := List.ne_nil_of_length_eq_add_one hlen
      have hnext := h.next hp
      refine h.deliversAll_of_next hp ?_
      rw [busyEdge_of_notReady hready] at hnext ⊢
      exact ih hnext hlen (by rw [State.tick_wait, withHeld, hw]) hj

end

/-- Beats in flight are delivered one after another: each waits its latency and then for the host. -/
theorem FairHost.deliversAll {s : State} {pins : Nat → Pins} (h : FairHost s pins) : DeliversAll s pins := by
  induction hlen : s.pending.length generalizing s pins with
  | zero => exact deliversAll_of_idle (List.eq_nil_of_length_eq_zero hlen)
  | succ n ih =>
    have hp : s.pending ≠ [] := List.ne_nil_of_length_eq_add_one hlen
    induction hw : s.wait generalizing s pins with
    | zero =>
      obtain ⟨j, _, hj⟩ := h.takes 0
      exact h.deliversAll_of_presented (fun _ _ hn hf => ih hf hn) hlen hw hj
    | succ w ihw =>
      have hnext := h.next hp
      refine h.deliversAll_of_next hp ?_
      rw [busyEdge_of_waiting (by omega)] at hnext ⊢
      exact ihw hnext hlen hp (by rw [State.tick_wait, withHeld, hw, Nat.add_sub_cancel])

/-- Settles O54, by induction on the beats in flight, the latency of the first and the edges until the host takes it. -/
theorem responseDeliveredInFiniteTime : Obligations.ResponseDeliveredInFiniteTime := fun _ _ hrst hkeeps htakes =>
  FairHost.deliversAll ⟨hrst, hkeeps, htakes⟩

/-! ## Several instances (R34), several requesters (R53, R196) -/

theorem stepInstance_next {k : Nat} {sys sys' : List State} {s : State} (hs : sys[k]? = some s)
    (h : stepInstance k sys = .next sys') : ∃ t, step s = .next t ∧ sys' = sys.set k t := by
  simp only [stepInstance, hs] at h
  split at h
  · exact ⟨_, ‹_›, (Host.Outcome.next.inj h).symm⟩
  all_goals cases h

/-- Settles O56: the state of the block that steps is replaced, and no other. -/
theorem instancesShareNothing : Obligations.InstancesShareNothing := by
  intro sys sys' k s hs h
  obtain ⟨t, ht, rfl⟩ := stepInstance_next hs h
  obtain ⟨hk, _⟩ := List.getElem?_eq_some_iff.1 hs
  exact ⟨⟨t, ht, List.getElem?_set_self hk⟩, List.length_set, fun j hj => List.getElem?_set_ne hj.symm⟩

/-- A grant: a requester with no word spends it, another has its next word run whole. -/
theorem grantNext_next {q q' : Shared} (h : grantNext q = .next q') :
    (q' = { q with grants := q.grants + 1 } ∧ ∀ w rest, q.queues[q.granted]? ≠ some (w :: rest)) ∨
    ∃ w rest t, q.queues[q.granted]? = some (w :: rest) ∧ runWord w q.block = .next t ∧ q' =
      { block := { t with pending := q.block.pending }
        queues := q.queues.set q.granted rest
        received := q.received.modify q.granted (· ++ newBeats q.block t)
        grants := q.grants + 1 } := by
  unfold grantNext at h
  split at h
  · split at h
    · exact .inr ⟨_, _, _, ‹_›, ‹_›, (Host.Outcome.next.inj h).symm⟩
    all_goals cases h
  · exact .inl ⟨(Host.Outcome.next.inj h).symm, ‹_›⟩

/-- Settles O57: what a grant leaves is read off its two cases. -/
theorem sharedBlockServesWholeCommands : Obligations.SharedBlockServesWholeCommands := by
  intro q q' h
  obtain hidle | ⟨w, rest, t, hq, hw, rfl⟩ := grantNext_next h
  · exact .inl hidle
  · obtain ⟨hlt, _⟩ := List.getElem?_eq_some_iff.1 hq
    refine .inr ⟨w, rest, t, hq, hw, rfl, rfl, rfl, List.getElem?_set_self hlt, ?_, fun j hj => ⟨?_, ?_⟩⟩
    · exact List.getElem?_modify_eq ..
    · exact List.getElem?_set_ne hj.symm
    · exact List.getElem?_modify_ne _ _ hj.symm

end Sys2Proof.Machine
end

section
/-! PROOFS. Numbers of the format: every operation gives one (R65, R110, R111), packing keeps them (R73), the elementary
functions give them (R132, R133), and the identities of the affine map and of `NormalScale` (R117, R143). -/

namespace Sys2Proof

open Machine

/-! ## Every operation gives a number of the format -/

theorem finZero_representable (f : Flen) (neg : Bool) : (Flt.fin neg 0).representable f = true :=
  (representable_fin f neg 0).2 ⟨Nat.two_pow_pos _, hasSpacing_zero f⟩

theorem fadd_representable (f : Flen) (x y : Flt) : (fadd f x y).representable f = true := by
  cases x with
  | nan => rfl
  | inf a =>
    cases y with
    | nan => rfl
    | inf b => cases a <;> cases b <;> rfl
    | fin b k => rfl
  | fin a m =>
    cases y with
    | nan => rfl
    | inf b => rfl
    | fin b k =>
      by_cases h : signedMag a m + signedMag b k = 0
      · rw [fadd_fin_of_eq h]
        exact finZero_representable f _
      · rw [fadd_fin_of_ne h]
        exact roundToF_representable f _ _ Nat.one_pos

theorem fmul_inf_fin_representable (f : Flen) (a b : Bool) (k : Nat) :
    (fmul f (.inf a) (.fin b k)).representable f = true := by
  by_cases hk : k = 0
  · rw [hk]
    rfl
  · rw [fmul_inf_of_ne f a b hk]
    rfl

theorem fmul_representable (f : Flen) (x y : Flt) : (fmul f x y).representable f = true := by
  cases x with
  | nan => rfl
  | inf a =>
    cases y with
    | nan => rfl
    | inf b => rfl
    | fin b k => exact fmul_inf_fin_representable f a b k
  | fin a m =>
    cases y with
    | nan => rfl
    | inf b =>
      rw [fmul_comm]
      exact fmul_inf_fin_representable f b a m
    | fin b k => exact roundToF_representable f _ _ f.oneMag_pos

theorem fsqrt_representable (f : Flen) (x : Flt) : (fsqrt f x).representable f = true := by
  cases x with
  | nan => rfl
  | inf a => cases a <;> rfl
  | fin a m =>
    by_cases hm : m = 0
    · rw [hm]
      exact finZero_representable f a
    · cases a with
      | true => rw [show fsqrt f (.fin true m) = .nan from if_neg hm]; rfl
      | false => rw [fsqrt_fin_pos f hm]; exact roundToF_representable f _ _ Nat.two_pos

theorem two_mul_oneMag (f : Flen) : 2 * f.oneMag = 2 ^ (f.unitExp + 1) := Nat.pow_succ'.symm

theorem two_representable (f : Flen) (neg : Bool) : (Flt.fin neg (2 * f.oneMag)).representable f = true := by
  rw [two_mul_oneMag]
  exact (representable_fin f neg _).2
    ⟨Nat.pow_lt_pow_right (by decide) (by cases f <;> decide), hasSpacing_two_pow f _⟩

/-- Settles O24: what an operation does not answer exactly it rounds. -/
theorem arithmeticStaysInFormat : Obligations.ArithmeticStaysInFormat := fun f =>
  ⟨unpackF_representable f,
    fun x y _ _ => ⟨fadd_representable f x y, fadd_representable f x _, fmul_representable f x y⟩,
    fun x _ => fsqrt_representable f x, one_representable f, two_representable f true, fmul_representable f _ _⟩

/-! ## Packing and unpacking (R73) -/

/-- An operand field of the format has no bits above the sign. -/
theorem toNat_lt_of_floatFieldOk {f : Flen} {x : U64} (h : floatFieldOk f x = true) :
    x.toNat < 2 ^ (f.signBit + 1) := by
  cases f with
  | binary64 => exact x.isLt
  | binary32 =>
    have hhi : x.toNat / 2 ^ 32 % 2 ^ 32 = 0 := by
      have h0 := congrArg BitVec.toNat ((floatFieldOk_iff .binary32 x).1 h rfl)
      rwa [BitVec.extractLsb'_toNat, Nat.shiftRight_eq_div_pow] at h0
    have := x.isLt
    change x.toNat < 2 ^ 32
    omega

/-- An operand field of the format is the encoding of its own sign and fields. -/
theorem encoding_of_field {f : Flen} {x : U64} (h : floatFieldOk f x = true) :
    encoding f (x.getLsbD f.signBit) (x.toNat % 2 ^ f.signBit) = x := by
  have hlt := toNat_lt_of_floatFieldOk h
  have hsign : (if x.getLsbD f.signBit then 2 ^ f.signBit else 0) = x.toNat / 2 ^ f.signBit * 2 ^ f.signBit := by
    have hbit : x.toNat / 2 ^ f.signBit < 2 := by
      rwa [Nat.div_lt_iff_lt_mul (Nat.two_pow_pos _), ← Nat.pow_succ']
    rw [← Nat.mod_eq_of_lt hbit, ← Nat.toNat_testBit, BitVec.getLsbD]
    cases x.toNat.testBit f.signBit <;> simp
  apply BitVec.eq_of_toNat_eq
  rw [encoding_toNat f _ _ (Nat.mod_lt _ (Nat.two_pow_pos _)), hsign, Nat.mul_comm, Nat.div_add_mod]

theorem packF_unpackF {f : Flen} {x : U64} (c : Bool × Nat) (h : floatFieldOk f x = true) (hnan : unpackF f x ≠ .nan) :
    packF f c (unpackF f x) = x := by
  have hdm := Nat.div_add_mod (x.toNat % 2 ^ f.signBit) (2 ^ f.fracBits)
  unfold unpackF at hnan ⊢
  simp only at hnan ⊢
  split_ifs at hnan ⊢ with hones hfrac
  · rw [hones, hfrac, Nat.add_zero, Nat.mul_comm] at hdm
    rw [packF, hdm, encoding_of_field h]
  · exact absurd rfl hnan
  · rw [packF, bitsOfMag_magOfBits, encoding_of_field h]

theorem unpackF_quietNaN (f : Flen) (c : Bool × Nat) : unpackF f (quietNaN f c) = .nan := by
  obtain ⟨hones, hlt⟩ := (isQuietNaN_iff f _).1 (isQuietNaN_quietNaN f c)
  rw [unpackF_eq_nan_iff]
  generalize (quietNaN f c).toNat = x at hones hlt
  cases f <;> simp only [Flen.signBit, Flen.expBits, Flen.fracBits] at hones hlt ⊢ <;> omega

theorem unpackF_packF {f : Flen} {v : Flt} (c : Bool × Nat) (h : v.representable f = true) :
    unpackF f (packF f c v) = v := by
  have hones : f.expOnes * 2 ^ f.fracBits < 2 ^ f.signBit := by cases f <;> decide
  cases v with
  | nan => exact unpackF_quietNaN f c
  | inf neg =>
    rw [packF, unpackF_encoding f neg _ hones, Nat.mul_div_cancel _ (Nat.two_pow_pos _), if_pos rfl, Nat.mul_mod_left,
      if_pos rfl]
  | fin neg m =>
    obtain ⟨hlt, hsp⟩ := (representable_fin f neg m).1 h
    have hbits := bitsOfMag_lt f m hlt
    have hdiv : bitsOfMag f m / 2 ^ f.fracBits ≠ f.expOnes :=
      ((Nat.div_lt_iff_lt_mul (Nat.two_pow_pos _)).2 hbits).ne
    rw [packF, unpackF_encoding f neg _ (hbits.trans hones), if_neg hdiv, magOfBits_bitsOfMag f m hsp]

/-- Settles O25: sign and fields are read off the encoding and put back, and so are the magnitude and its fields. -/
theorem packUnpackRoundTrip : Obligations.PackUnpackRoundTrip :=
  ⟨fun _ _ c h hnan => packF_unpackF c h hnan, fun _ _ c h => unpackF_packF c h⟩

/-! ## The affine map and NormalScale at zero (R117, R143) -/

theorem roundMag_zero (f : Flen) {den : Nat} (hd : 0 < den) : roundMag f 0 den = 0 := by
  simpa using roundMag_exact f (hasSpacing_zero f) hd

/-- A finite number times a zero is the zero of the product's sign. -/
theorem fmul_fin_zero (f : Flen) (a b : Bool) (m : Nat) : fmul f (.fin a m) (.fin b 0) = .fin (a != b) 0 := by
  have h := roundToF_exact f (a != b) (finZero_representable f _) f.oneMag_pos
  rwa [Nat.zero_mul] at h

/-- Settles O26: subtracting 0, multiplying by 1.0 and adding `+0` are exact; and so are a difference of equals, its
product with a finite number, and `+0` added. -/
theorem affineMapDefaults : Obligations.AffineMapDefaults := by
  refine fun f k => ⟨?_, fun a m h => ?_⟩
  · have hwidth : fsub f f.one (.fin false 0) = f.one := fadd_fin_zero (one_representable f) f.oneMag_pos.ne' true
    rw [affineMap, hwidth, fmul_one (u24toF_representable f k), fadd_posZero (u24toF_representable f k), u24toF_eq]
    exact if_neg (by simp)
  · have hwidth : fsub f (.fin a m) (.fin a m) = .fin false 0 := fadd_fin_not f a m
    have hprod : fmul f (u24toF f k) (.fin false 0) = .fin false 0 := fmul_fin_zero f false false _
    rw [affineMap, hwidth, hprod, fadd_comm, fadd_posZero h]
    by_cases hm : m = 0
    · cases a <;> simp [hm]
    · simp [hm]

/-- Settles O37: the product with `+0` is the zero of the sign of `z`, and adding a zero leaves what is no zero. -/
theorem sigmaZeroGivesMu : Obligations.SigmaZeroGivesMu := by
  intro f a m mu hmu
  have hprod : fmul f (.fin a m) (.fin false 0) = .fin a 0 := by rw [fmul_fin_zero, Bool.bne_false]
  refine ⟨fun hpos hneg => ?_, fun b => ?_, rfl⟩
  · rw [normalScale, hprod, fadd_comm, fadd_zero hmu hpos hneg]
  · rw [normalScale, hprod, fadd_fin_of_eq (by simp)]

/-! ## The elementary functions (R132, R133) -/

/-- A magnitude is below the binade above its exponent field. -/
theorem magOfBits_lt (f : Flen) (e : Nat) : magOfBits f e < 2 ^ (f.fracBits + e / 2 ^ f.fracBits) := by
  have hlt : e % 2 ^ f.fracBits < 2 ^ f.fracBits := Nat.mod_lt _ (Nat.two_pow_pos _)
  unfold magOfBits
  simp only
  split_ifs with h0
  · rwa [h0, Nat.add_zero]
  · have hexp : f.fracBits + e / 2 ^ f.fracBits = f.fracBits + 1 + (e / 2 ^ f.fracBits - 1) := by
      have := Nat.pos_of_ne_zero h0
      generalize e / 2 ^ f.fracBits = d at *
      omega
    rw [hexp, Nat.pow_add]
    exact Nat.mul_lt_mul_of_pos_right (by rw [Nat.pow_succ]; omega) (Nat.two_pow_pos _)

theorem magOfBits_one (f : Flen) : magOfBits f (f.bias * 2 ^ f.fracBits) = f.oneMag := by
  rw [← bitsOfMag_oneMag, magOfBits_bitsOfMag f f.oneMag (hasSpacing_two_pow f f.unitExp)]

/-- An encoding up to that of 1.0 has a magnitude up to 1.0. -/
theorem magOfBits_le_oneMag {f : Flen} {e : Nat} (h : e ≤ f.bias * 2 ^ f.fracBits) : magOfBits f e ≤ f.oneMag := by
  rcases h.lt_or_eq with hlt | rfl
  · have hexp : e / 2 ^ f.fracBits < f.bias := (Nat.div_lt_iff_lt_mul (Nat.two_pow_pos _)).2 hlt
    refine (magOfBits_lt f e).le.trans (Nat.pow_le_pow_right (by decide) ?_)
    unfold Flen.unitExp
    omega
  · exact (magOfBits_one f).le

theorem fin_magOfBits_representable {f : Flen} (neg : Bool) {e : Nat} (h : e < f.expOnes * 2 ^ f.fracBits) :
    (Flt.fin neg (magOfBits f e)).representable f = true :=
  (representable_fin f neg _).2 (magOfBits_representable f e ((Nat.div_lt_iff_lt_mul (Nat.two_pow_pos _)).2 h))

/-- A free finite magnitude is a number of the format other than zero (R132). -/
theorem freeFiniteMag_spec (f : Flen) (neg : Bool) (k : Nat) :
    freeFiniteMag f k ≠ 0 ∧ (Flt.fin neg (freeFiniteMag f k)).representable f = true := by
  have hmax : 1 + k % f.maxFiniteBits < f.expOnes * 2 ^ f.fracBits := by
    have hpos : 0 < f.maxFiniteBits := by cases f <;> decide
    have hlt := Nat.mod_lt k hpos
    unfold Flen.maxFiniteBits at *
    omega
  refine ⟨fun h0 => ?_, fin_magOfBits_representable neg hmax⟩
  have hbits := bitsOfMag_magOfBits f (1 + k % f.maxFiniteBits)
  have hzero : bitsOfMag f 0 = 0 := if_pos (Nat.two_pow_pos _)
  rw [show magOfBits f (1 + k % f.maxFiniteBits) = 0 from h0, hzero] at hbits
  omega

/-- A free magnitude up to 1.0 is one, and a number of the format (R133). -/
theorem freeUnitMag_spec (f : Flen) (neg : Bool) (k : Nat) :
    freeUnitMag f k ≤ f.oneMag ∧ (Flt.fin neg (freeUnitMag f k)).representable f = true := by
  have hle : k % (f.bias * 2 ^ f.fracBits + 1) ≤ f.bias * 2 ^ f.fracBits :=
    Nat.le_of_lt_succ (Nat.mod_lt _ (Nat.succ_pos _))
  have hones : f.bias * 2 ^ f.fracBits < f.expOnes * 2 ^ f.fracBits := by cases f <;> decide
  exact ⟨magOfBits_le_oneMag hle, fin_magOfBits_representable neg (hle.trans_lt hones)⟩

theorem elemLn_of_pos (name : Nat) (f : Flen) {m : Nat} (h0 : m ≠ 0) (h1 : m ≠ f.oneMag) :
    elemLn name f (.fin false m) = .fin (decide (m < f.oneMag)) (freeFiniteMag f (Config.lnMag name f m)) := by
  simp [elemLn, h0, h1]

theorem lnProperties_elem (c : Config) (f : Flen) : LnProperties c.elem f where
  lnNan := by
    rintro x (rfl | rfl | ⟨m, hm, rfl⟩)
    · rfl
    · rfl
    · exact (if_neg hm).trans (if_pos rfl)
  lnZero _ := rfl
  lnOne := by
    have hpos := f.oneMag_pos.ne'
    simp [Config.elem, Flen.one, elemLn, hpos]
  lnInf := rfl
  lnSignBelow m hpos hlt := by
    obtain ⟨hne, hrep⟩ := freeFiniteMag_spec f true (Config.lnMag c.ln f m)
    exact ⟨_, hne, (elemLn_of_pos c.ln f hpos.ne' hlt.ne).trans (by rw [decide_eq_true hlt]), hrep⟩
  lnSignAbove m hlt := by
    obtain ⟨hne, hrep⟩ := freeFiniteMag_spec f false (Config.lnMag c.ln f m)
    exact ⟨_, hne, (elemLn_of_pos c.ln f (by omega) hlt.ne').trans (by rw [decide_eq_false hlt.not_gt]), hrep⟩

/-- A value of `COS` or `SIN`, given at a zero and free elsewhere, is in the range of R133 where the given one is. -/
theorem unitRange {f : Flen} {a : Bool} {k : Nat} (hk : k ≤ f.oneMag) (hrep : (Flt.fin a k).representable f = true)
    (m : Nat) (free : Bool × Nat) :
    ∃ b j, j ≤ f.oneMag ∧ (if m = 0 then Flt.fin a k else .fin free.1 (freeUnitMag f free.2)) = .fin b j ∧
      (Flt.fin b j).representable f = true := by
  by_cases hm : m = 0
  · exact ⟨a, k, hk, if_pos hm, hrep⟩
  · obtain ⟨hle, hrep'⟩ := freeUnitMag_spec f free.1 free.2
    exact ⟨_, _, hle, if_neg hm, hrep'⟩

theorem cosSinProperties_elem (c : Config) (f : Flen) : CosSinProperties c.elem f where
  csNan := by
    rintro x (rfl | ⟨neg, rfl⟩)
    · exact ⟨rfl, rfl⟩
    · exact ⟨rfl, rfl⟩
  csZero _ := ⟨rfl, rfl⟩
  csRange neg m :=
    ⟨unitRange le_rfl (one_representable f) m (Config.cosFree c.cos f neg m),
      unitRange (Nat.zero_le _) (finZero_representable f neg) m (Config.sinFree c.sin f neg m)⟩

/-- Settles O31: the special operands by the definitions, the others by the range of the free magnitudes. -/
theorem elementaryNamedProperties : Obligations.ElementaryNamedProperties := fun c f =>
  ⟨lnProperties_elem c f, cosSinProperties_elem c f⟩

end Sys2Proof
end

section
/-! PROOFS. Batches against each other (R119, R136, R141, R142): what each emits and the word it leaves, said once. -/

namespace Sys2Proof.Machine

/-! ## Emitting values -/

/-- Two data fields that carry one value agree up to the choice of NaN. -/
theorem Represents.sameUpToNaN {f : Flen} {v : Flt} {d e : U64} (hd : Represents f v d) (he : Represents f v e) :
    SameUpToNaN f d e := by
  unfold Represents at hd he
  split_ifs at hd he
  · exact .inr ⟨hd, he⟩
  · exact .inl ((hd (false, 0)).trans (he (false, 0)).symm)

/-- Two data fields that carry one value other than a NaN are equal. -/
theorem Represents.eq_of_ne_nan {f : Flen} {v : Flt} {d e : U64} (hd : Represents f v d) (he : Represents f v e)
    (hv : v ≠ .nan) : d = e := by
  rw [Represents, if_neg hv] at hd he
  exact (hd (false, 0)).trans (he (false, 0)).symm

theorem forall₂_represents_packAll (src : Nat) (f : Flen) (k : Nat) (vs : List Flt) :
    List.Forall₂ (Represents f) vs (packAll src f k vs) := by
  induction vs generalizing k with
  | nil => exact .nil
  | cons v vs ih => exact .cons (represents_packF f _ v) (ih _)

/-- Two lists of data fields that carry the same values are related field by field. -/
theorem forall₂_of_represents {f : Flen} {Q : U64 → U64 → Prop} {vs : List Flt} {ds es : List U64}
    (hQ : ∀ v ∈ vs, ∀ d e, Represents f v d → Represents f v e → Q d e)
    (hd : List.Forall₂ (Represents f) vs ds) (he : List.Forall₂ (Represents f) vs es) : List.Forall₂ Q ds es := by
  induction hd generalizing es with
  | nil =>
    cases he
    exact .nil
  | cons hd _ ih =>
    cases he with
    | cons he hes =>
      exact .cons (hQ _ List.mem_cons_self _ _ hd he) (ih (fun v hv => hQ v (List.mem_cons_of_mem _ hv)) hes)

theorem dataValues_append (bs cs : List Beat) : dataValues (bs ++ cs) = dataValues bs ++ dataValues cs :=
  List.filterMap_append

theorem dataValues_map_data (ds : List U64) : dataValues (ds.map Beat.data) = ds := by
  induction ds with
  | nil => rfl
  | cons d ds ih => exact congrArg (d :: ·) ih

theorem dataValues_response (ds : List U64) (status : Status) (dom : Bool) (count : U32) :
    dataValues (ds.map Beat.data ++ [.completion status dom count]) = ds := by
  rw [dataValues_append, dataValues_map_data]
  exact List.append_nil ds

/-- From `s` to `t` a seeded block has emitted data beats that carry the values `vs`, and its word has become `w`. -/
structure Emits (s t : State) (w : U64) (vs : List Flt) : Prop where
  holds : HoldsWord t w
  config : t.cfg = s.cfg
  appends : ∃ bs, t.pending = s.pending ++ bs
  carries : List.Forall₂ (Represents s.cfg.flen) vs (dataValues (newBeats s t))

section
variable {s t u : State} {w w' : U64} {vs us : List Flt}

theorem newBeats_of_append {bs : List Beat} (h : t.pending = s.pending ++ bs) : newBeats s t = bs := by
  rw [newBeats, h, List.drop_left]

theorem Emits.refl (h : HoldsWord s w) : Emits s s w [] :=
  ⟨h, rfl, ⟨[], (List.append_nil _).symm⟩, by rw [newBeats, List.drop_length]; exact .nil⟩

theorem Emits.trans (h : Emits s t w vs) (h' : Emits t u w' us) : Emits s u w' (vs ++ us) := by
  obtain ⟨bs, hbs⟩ := h.appends
  obtain ⟨cs, hcs⟩ := h'.appends
  have hall : u.pending = s.pending ++ (bs ++ cs) := by rw [hcs, hbs, List.append_assoc]
  have hfirst := h.carries
  have hsecond := h'.carries
  rw [newBeats_of_append hbs] at hfirst
  rw [newBeats_of_append hcs, h.config] at hsecond
  refine ⟨h'.holds, h'.config.trans h.config, ⟨_, hall⟩, ?_⟩
  rw [newBeats_of_append hall, dataValues_append]
  exact List.rel_append hfirst hsecond

theorem Emits.sameUpToNaN (h : Emits s t w vs) (h' : Emits s u w' vs) :
    List.Forall₂ (SameUpToNaN s.cfg.flen) (dataValues (newBeats s t)) (dataValues (newBeats s u)) :=
  forall₂_of_represents (fun _ _ _ _ => Represents.sameUpToNaN) h.carries h'.carries

theorem Emits.values_eq (h : Emits s t w vs) (h' : Emits s u w' vs) (hvs : ∀ v ∈ vs, v ≠ .nan) :
    dataValues (newBeats s t) = dataValues (newBeats s u) := by
  rw [← List.forall₂_eq_eq_eq]
  exact forall₂_of_represents (fun v hv _ _ hd he => hd.eq_of_ne_nan he (hvs v hv)) h.carries h'.carries

theorem Emits.S_eq (h : Emits s t w vs) (h' : Emits s u w us) : t.S = u.S := h.holds.1.trans h'.holds.1.symm

/-- The response of a command that draws: the new word, its values and one completion beat. -/
theorem emits_emitFloats (hE : s.SEEDED = true) (w : U64) (vs : List Flt) (dom : Bool) (count : U32) :
    Emits s (((s.setS w).emitFloats vs).complete .ok dom count) w vs := by
  have hbeats : (((s.setS w).emitFloats vs).complete .ok dom count).pending =
      s.pending ++ ((packAll s.source s.cfg.flen s.nanDraws vs).map Beat.data ++ [.completion .ok dom count]) := by
    simp
  refine ⟨⟨rfl, hE⟩, rfl, ⟨_, hbeats⟩, ?_⟩
  rw [newBeats_of_append hbeats, dataValues_response]
  exact forall₂_represents_packAll ..

end

/-! ## What the drawing commands emit -/

theorem batchLength_of_lt {n : U32} (h : n.toNat < 2 ^ 31) : 0 ≤ batchLength n ∧ (batchLength n).toNat = n.toNat :=
  batchLength_of_msb_false (BitVec.msb_eq_false_iff_two_mul_lt.2 (by omega))

theorem toNat_add_of_lt {n m : U32} (h : n.toNat + m.toNat < 2 ^ 31) : (n + m).toNat = n.toNat + m.toNat := by
  rw [BitVec.toNat_add, Nat.mod_eq_of_lt (by omega)]

/-- The values of a normal batch, by index (R139). -/
def normalValues (E : ElemFns) (f : Flen) (mu sigma : Flt) (n : Nat) (x : U64) : List Flt :=
  (List.range n).map fun i => normalAt E f mu sigma i x

section
variable (E : ElemFns) (f : Flen) (mu sigma : Flt)

theorem normalBatch_values (n : Nat) (x : U64) :
    (normalBatch E f mu sigma (pairCount n) n x).values = normalValues E f mu sigma n x := by
  apply List.ext_getElem?
  intro i
  rcases Nat.lt_or_ge i n with hi | hi
  · rw [normalBatch_getElem? E f mu sigma _ _ x rfl hi]
    simp [normalValues, hi]
  · rw [List.getElem?_eq_none (by rwa [normalBatch_length E f mu sigma _ _ x rfl]),
      List.getElem?_eq_none (by simpa [normalValues] using hi)]

/-- Whole pairs in front shift the stream by their draws (R142). -/
theorem normalAt_add_even (m i : Nat) (x : U64) :
    normalAt E f mu sigma (2 * m + i) x = normalAt E f mu sigma i (nextIter (2 * m) x) := by
  induction m generalizing x with
  | zero => rw [Nat.mul_zero, Nat.zero_add, nextIter_zero]
  | succ m ih => rw [Nat.mul_succ, Nat.add_right_comm, normalAt_add_two, ih, Nat.add_comm (2 * m), nextIter_add]

theorem normalValues_add_even (m n : Nat) (x : U64) :
    normalValues E f mu sigma (2 * m + n) x =
      normalValues E f mu sigma (2 * m) x ++ normalValues E f mu sigma n (nextIter (2 * m) x) := by
  simp only [normalValues, List.range_add, List.map_append, List.map_map, Function.comp_def, normalAt_add_even]

theorem normalValues_length (n : Nat) (x : U64) : (normalValues E f mu sigma n x).length = n := by simp [normalValues]

theorem normalValues_take (n : Nat) (x : U64) :
    (normalValues E f mu sigma (n + 1) x).take n = normalValues E f mu sigma n x := by
  rw [normalValues, List.range_succ, List.map_append]
  exact List.take_left' (normalValues_length E f mu sigma n x)

end

section
variable {s : State} {x : U64} (hx : HoldsWord s x)
include hx

theorem execNextuf_emits :
    ∃ t, exec .nextuf s = .next t ∧ Emits s t (nextIter 1 x) [uniformAt s.cfg.flen 0 x] :=
  ⟨_, execNextuf_run hx.2 hx.1, emits_emitFloats hx.2 ..⟩

theorem execUnifb_emits {n : U32} (low high : U64) (hn : n.toNat < 2 ^ 31) :
    ∃ t, exec (.unifb n low high) s = .next t ∧ Emits s t (nextIter n.toNat x)
      (uniformBatch s.cfg.flen (unpackF s.cfg.flen low) (unpackF s.cfg.flen high) n.toNat x).1 := by
  obtain ⟨hpos, hlen⟩ := batchLength_of_lt hn
  have hrun := execUnifb_run low high hx.2 hx.1 hpos
  rw [hlen] at hrun
  exact ⟨_, hrun, emits_emitFloats hx.2 ..⟩

theorem execNormb_emits {n : U32} (mu sigma : U64) (hn : n.toNat < 2 ^ 31) :
    ∃ t, exec (.normb n mu sigma) s = .next t ∧ Emits s t (nextIter (2 * pairCount n.toNat) x)
      (normalValues s.cfg.elem s.cfg.flen (unpackF s.cfg.flen mu) (unpackF s.cfg.flen sigma) n.toNat x) := by
  obtain ⟨hpos, hlen⟩ := batchLength_of_lt hn
  have hrun := runNormb_run s.cfg.elem mu sigma hx.2 hx.1 hpos
  rw [hlen, normalBatch_values] at hrun
  exact ⟨_, hrun, emits_emitFloats hx.2 ..⟩

end

/-! ## Uniform batches (R119) -/

/-- Settles O29: the values and the word of the two batches are those of the one (`uniformBatch_add`). -/
theorem unifbSplitsAnywhere : Obligations.UnifbSplitsAnywhere := by
  intro s x n1 n2 low high hE hS hn
  have hsum := toNat_add_of_lt hn
  obtain ⟨t1, ht1, h1⟩ := execUnifb_emits ⟨hS, hE⟩ (n := n1) low high (by omega)
  obtain ⟨t2, ht2, h2⟩ := execUnifb_emits h1.holds (n := n2) low high (by omega)
  obtain ⟨u, hu, h⟩ := execUnifb_emits ⟨hS, hE⟩ (n := n1 + n2) low high (by omega)
  rw [h1.config] at h2
  have h12 := h1.trans h2
  rw [hsum] at h
  rw [← uniformBatch_add, ← nextIter_add] at h12
  exact ⟨t1, t2, u, ht1, ht2, hu, h12.S_eq h, h12.sameUpToNaN h⟩

/-- The floats of the first draws of a stream. -/
def uniformValues (f : Flen) (n : Nat) (x : U64) : List Flt := (List.range n).map fun i => uniformAt f i x

theorem uniformValues_succ (f : Flen) (n : Nat) (x : U64) :
    uniformValues f (n + 1) x = uniformAt f 0 x :: uniformValues f n (nextIter 1 x) := by
  simp only [uniformValues, List.range_succ_eq_map, List.map_cons, List.map_map, Function.comp_def,
    Nat.succ_eq_one_add, uniformAt_add]

theorem ne_nan_of_mem_uniformValues {f : Flen} {n : Nat} {x : U64} {v : Flt} (hv : v ∈ uniformValues f n x) :
    v ≠ .nan := by
  obtain ⟨i, _, rfl⟩ := List.mem_map.1 hv
  exact nofun

/-- With the bounds 0.0 and 1.0 a uniform batch is the floats of its draws (R117). -/
theorem uniformBatch_defaults (f : Flen) (n : Nat) (x : U64) :
    (uniformBatch f (.fin false 0) f.one n x).1 = uniformValues f n x := by
  apply List.ext_getElem?
  intro i
  rcases Nat.lt_or_ge i n with hi | hi
  · rw [uniformBatch_getElem? f _ _ n x hi, uniformAt, floatOfDraw, (affineMapDefaults f _).1]
    simp [uniformValues, hi, uniformAt, floatOfDraw]
  · rw [List.getElem?_eq_none (by rwa [uniformBatch_length]),
      List.getElem?_eq_none (by simpa [uniformValues] using hi)]

theorem runInstrs_nextuf_emits {s : State} {x : U64} (hx : HoldsWord s x) (n : Nat) :
    ∃ t, runInstrs (List.replicate n .nextuf) s = .next t ∧
      Emits s t (nextIter n x) (uniformValues s.cfg.flen n x) := by
  induction n generalizing s x with
  | zero => exact ⟨s, rfl, .refl hx⟩
  | succ n ih =>
    obtain ⟨u, hu, h1⟩ := execNextuf_emits hx
    obtain ⟨t, ht, h⟩ := ih h1.holds
    rw [h1.config] at h
    have hall := h1.trans h
    rw [← nextIter_add, Nat.add_comm 1 n, List.singleton_append, ← uniformValues_succ] at hall
    refine ⟨t, ?_, hall⟩
    simp only [List.replicate_succ, runInstrs, hu]
    exact ht

theorem unpackF_zero (f : Flen) : unpackF f 0 = .fin false 0 := by
  rw [← defaultZero_eq f]
  exact unpackF_packF _ (finZero_representable f false)

theorem unpackF_defaultOne (f : Flen) : unpackF f (defaultOne f) = f.one := unpackF_packF _ (one_representable f)

/-- The encodings of 1.0 in the two formats (R75). -/
theorem defaultOne_binary64 : defaultOne .binary64 = 0x3FF0000000000000#64 := defaultOne_eq .binary64
theorem defaultOne_binary32 : defaultOne .binary32 = 0x000000003F800000#64 := defaultOne_eq .binary32

/-- Settles O30: with the defaults the affine map is the identity, and no uniform float is a NaN. -/
theorem unifbDefaultsAreNextufs : Obligations.UnifbDefaultsAreNextufs := by
  intro s x n hE hS hn one
  have hlt : n.toNat < 2 ^ 31 := by
    have := BitVec.msb_eq_false_iff_two_mul_lt.1 hn
    omega
  obtain ⟨t, ht, h⟩ := execUnifb_emits ⟨hS, hE⟩ 0 one hlt
  obtain ⟨u, hu, h'⟩ := runInstrs_nextuf_emits ⟨hS, hE⟩ n.toNat
  have hone : one = defaultOne s.cfg.flen := by
    simp only [one]
    generalize s.cfg.flen = f
    cases f
    · exact defaultOne_binary64.symm
    · exact defaultOne_binary32.symm
  rw [unpackF_zero, hone, unpackF_defaultOne, uniformBatch_defaults] at h
  refine ⟨t, u, ht, hu, h.S_eq h', h.values_eq h' fun _ => ne_nan_of_mem_uniformValues, ?_⟩
  rw [← h.carries.length_eq]
  simp [uniformValues]

/-! ## Normal batches (R136, R141, R142) -/

/-- Settles O39: both batches make the draws of the same pairs, and the shorter one's values are the first of the
other's. -/
theorem normbOddDropsLastOnly : Obligations.NormbOddDropsLastOnly := by
  intro s x n mu sigma hE hS hodd hn
  have hsum : (n + 1).toNat = n.toNat + 1 := toNat_add_of_lt (m := 1) hn
  have hpairs : pairCount (n.toNat + 1) = pairCount n.toNat := by
    unfold pairCount
    omega
  obtain ⟨t, ht, h⟩ := execNormb_emits ⟨hS, hE⟩ (n := n) mu sigma (by omega)
  obtain ⟨u, hu, h'⟩ := execNormb_emits ⟨hS, hE⟩ (n := n + 1) mu sigma (by omega)
  rw [hsum, hpairs] at h'
  refine ⟨t, u, ht, hu, h.S_eq h', ?_, ?_, ?_⟩
  · rw [← h.carries.length_eq, normalValues_length]
  · rw [← h'.carries.length_eq, normalValues_length]
  · have hfirst := List.forall₂_take n.toNat h'.carries
    rw [normalValues_take] at hfirst
    exact forall₂_of_represents (fun _ _ _ _ => Represents.sameUpToNaN) h.carries hfirst

theorem drawsOf_normb_of_lt {n : U32} (mu sigma : U64) (hn : n.toNat < 2 ^ 31) :
    drawsOf (.normb n mu sigma) = 2 * ((n.toNat + 1) / 2) := by
  rw [drawsOf, (batchLength_of_lt hn).2]

/-- Settles O40: an even batch is whole pairs, so the pairs of the two batches are those of the one. -/
theorem normbSplitsAtEvenLength : Obligations.NormbSplitsAtEvenLength := by
  refine ⟨fun s x n1 n2 mu sigma hE hS heven hn => ?_, fun n1 n2 mu sigma hodd hn => ?_⟩
  · have hsum := toNat_add_of_lt hn
    obtain ⟨m, hm⟩ : ∃ m, n1.toNat = 2 * m := ⟨n1.toNat / 2, by omega⟩
    have hfirst : pairCount (2 * m) = m := by
      unfold pairCount
      omega
    have hpairs : 2 * pairCount (2 * m + n2.toNat) = 2 * m + 2 * pairCount n2.toNat := by
      unfold pairCount
      omega
    obtain ⟨t1, ht1, h1⟩ := execNormb_emits ⟨hS, hE⟩ (n := n1) mu sigma (by omega)
    obtain ⟨t2, ht2, h2⟩ := execNormb_emits h1.holds (n := n2) mu sigma (by omega)
    obtain ⟨u, hu, h⟩ := execNormb_emits ⟨hS, hE⟩ (n := n1 + n2) mu sigma (by omega)
    rw [h1.config] at h2
    have h12 := h1.trans h2
    rw [hsum, hm, hpairs] at h
    rw [hm, hfirst, ← nextIter_add, ← normalValues_add_even] at h12
    exact ⟨t1, t2, u, ht1, ht2, hu, h12.S_eq h, h12.sameUpToNaN h⟩
  · rw [drawsOf_normb_of_lt mu sigma (n := n1) (by omega), drawsOf_normb_of_lt mu sigma (n := n2) (by omega),
      drawsOf_normb_of_lt mu sigma (n := n1 + n2) (by rwa [toNat_add_of_lt hn]), toNat_add_of_lt hn]
    split_ifs <;> omega

/-- A uniform float is not greater than zero exactly where its draw is below 0x100 (R122). -/
theorem uniformAt_gtZero_false_iff (f : Flen) (k : Nat) (x : U64) :
    (uniformAt f k x).gtZero = false ↔ (drawAt k x).toNat < 256 := by
  have hval : uniformAt f k x = .fin false (u24Mag f ((drawAt k x).extractLsb' 8 24)) := rfl
  have hzero := u24Mag_eq_zero f ((drawAt k x).extractLsb' 8 24)
  rw [numerator_toNat] at hzero
  simp only [hval, Flt.gtZero, Bool.not_false, Bool.true_and, bne_eq_false_iff_eq, hzero]
  omega

/-- Settles O41: `DOM` is that of the first operands, which are the even draws (`normalBatch_u1s`). -/
theorem normbDomExactly : Obligations.NormbDomExactly := by
  intro s t x n mu sigma hE hS hn h
  obtain ⟨hpos, hlen⟩ := batchLength_of_msb_false hn
  have hrun := (runNormb_run s.cfg.elem mu sigma hE hS hpos).symm.trans h
  rw [hlen] at hrun
  cases hrun
  refine ⟨domOf ((List.range (pairCount n.toNat)).map fun j => uniformAt s.cfg.flen (2 * j) x), by simp, ?_⟩
  simp only [domOf_map_range, uniformAt_gtZero_false_iff, pairCount]

end Sys2Proof.Machine
end

section
/-! PROOFS. The constants of `Transform` (R130): `PI_F` is nearest pi, and doubling is exact. -/

namespace Sys2Proof

open Machine

/-! ## Products with 2.0 -/

theorem hasSpacing_two_mul {f : Flen} {m : Nat} (h : hasSpacing f m) : hasSpacing f (2 * m) := by
  have hlt : 2 * m < 2 ^ (f.fracBits + 1 + (f.quantumExp m + 1)) := by
    rw [← Nat.add_assoc, Nat.pow_succ']
    exact Nat.mul_lt_mul_of_pos_left (f.lt_of_quantumExp m) Nat.two_pos
  have hdvd : 2 ^ (f.quantumExp m + 1) ∣ 2 * m := by
    rw [Nat.pow_succ']
    exact Nat.mul_dvd_mul_left 2 ((hasSpacing_iff f m).1 h)
  exact (hasSpacing_iff f _).2 ((Nat.pow_dvd_pow 2 (f.quantumExp_le hlt)).trans hdvd)

/-- Doubling is exact, or overflows to the infinity of the product's sign. -/
theorem fmul_two {f : Flen} (a b : Bool) {m : Nat} (h : hasSpacing f m) :
    fmul f (.fin a (2 * f.oneMag)) (.fin b m) =
      if 2 * m < f.overflowMag then .fin (a != b) (2 * m) else .inf (a != b) := by
  have hround : roundMag f (2 * f.oneMag * m) f.oneMag = 2 * m := by
    rw [Nat.mul_right_comm]
    exact roundMag_exact f (hasSpacing_two_mul h) f.oneMag_pos
  calc fmul f (.fin a (2 * f.oneMag)) (.fin b m) = roundToF f (a != b) (2 * f.oneMag * m) f.oneMag := rfl
    _ = _ := by rw [roundToF, hround]

theorem nearestEven_two_mul (num den : Nat) : nearestEven (2 * num) (2 * den) = nearestEven num den := by
  simp only [nearestEven, Nat.mul_div_mul_left _ _ Nat.two_pos, Nat.mul_mod_mul_left, Nat.mul_lt_mul_left Nat.two_pos,
    Nat.mul_right_inj (show (2 : Nat) ≠ 0 by decide)]

/-- In the normal range twice a magnitude has twice the spacing. -/
theorem quantumExp_two_mul {f : Flen} {num den : Nat} (h : 2 ^ f.fracBits ≤ num / den) :
    f.quantumExp (2 * num / den) = f.quantumExp (num / den) + 1 := by
  have hne : num / den ≠ 0 := (lt_of_lt_of_le (Nat.two_pow_pos _) h).ne'
  have hfrac : f.fracBits ≤ (num / den).log2 := (Nat.le_log2 hne).2 h
  have hden : 0 < den := Nat.pos_of_ne_zero (by rintro rfl; simp at hne)
  have hlo : 2 * (num / den) ≤ 2 * num / den := by
    rw [Nat.le_div_iff_mul_le hden, Nat.mul_assoc]
    exact Nat.mul_le_mul_left 2 (Nat.div_mul_le_self num den)
  have hhi : 2 * num / den < 2 * (num / den + 1) := by
    rw [Nat.div_lt_iff_lt_mul hden, Nat.mul_assoc, Nat.mul_comm _ den]
    exact Nat.mul_lt_mul_of_pos_left (Nat.lt_mul_div_succ num hden) Nat.two_pos
  have hlog : (2 * num / den).log2 = (num / den).log2 + 1 := by
    have h1 := Nat.log2_self_le hne
    have h2 : num / den < 2 ^ ((num / den).log2 + 1) := Nat.lt_log2_self
    rw [Nat.log2_eq_iff (by omega)]
    rw [Nat.pow_succ'] at h2 ⊢
    rw [Nat.pow_succ', Nat.pow_succ']
    omega
  unfold Flen.quantumExp
  omega

theorem roundMag_two_mul {f : Flen} {num den : Nat} (h : 2 ^ f.fracBits ≤ num / den) :
    roundMag f (2 * num) den = 2 * roundMag f num den := by
  have hstep : den * 2 ^ (f.quantumExp (num / den) + 1) = 2 * (den * 2 ^ f.quantumExp (num / den)) := by
    rw [Nat.pow_succ', Nat.mul_left_comm]
  unfold roundMag
  simp only
  rw [quantumExp_two_mul h, hstep, nearestEven_two_mul, Nat.pow_succ', Nat.mul_left_comm]

/-! ## The constants (R130) -/

/-- The significand of `PI_F`. -/
def piSignificand : Flen → Nat
  | .binary64 => 7074237752028440
  | .binary32 => 13176795

/-- The spacing of the format's numbers from 2.0 to 4.0 is 2 to this power, in units. -/
def piExp (f : Flen) : Nat := f.unitExp + 1 - f.fracBits

def piMag (f : Flen) : Nat := piSignificand f * 2 ^ piExp f

theorem pi_eq (f : Flen) : f.pi = .fin false (piMag f) := by cases f <;> decide +kernel

theorem piSignificand_bounds (f : Flen) :
    2 ^ f.fracBits < piSignificand f ∧ piSignificand f < 2 ^ (f.fracBits + 1) := by
  cases f <;> decide

theorem oneMag_eq_piExp (f : Flen) : f.oneMag = 2 ^ piExp f * 2 ^ (f.fracBits - 1) := by
  rw [Flen.oneMag, ← Nat.pow_add]
  congr 1
  cases f <;> decide

theorem hasSpacing_piMag (f : Flen) : hasSpacing f (piMag f) :=
  hasSpacing_mul_two_pow f (piSignificand_bounds f).2.le

/-- `PI_F` is below 4.0, and twice it far below the largest number. -/
theorem two_mul_piMag_lt (f : Flen) : 2 * piMag f < f.overflowMag := by
  have hlt : piMag f < 2 ^ (f.fracBits + 1) * 2 ^ piExp f :=
    Nat.mul_lt_mul_of_pos_right (piSignificand_bounds f).2 (Nat.two_pow_pos _)
  calc 2 * piMag f < 2 * (2 ^ (f.fracBits + 1) * 2 ^ piExp f) := Nat.mul_lt_mul_of_pos_left hlt Nat.two_pos
    _ = 2 ^ (f.fracBits + 1 + piExp f + 1) := by rw [← Nat.pow_add, Nat.pow_succ' (n := f.fracBits + 1 + piExp f)]
    _ ≤ f.overflowMag := Nat.pow_le_pow_right Nat.two_pos (by cases f <;> decide)

theorem piMag_representable (f : Flen) : (Flt.fin false (piMag f)).representable f = true :=
  (representable_fin f _ _).2 ⟨(Nat.le_mul_of_pos_left _ Nat.two_pos).trans_lt (two_mul_piMag_lt f), hasSpacing_piMag f⟩

theorem two_mul_piMag_representable (f : Flen) : (Flt.fin false (2 * piMag f)).representable f = true :=
  (representable_fin f _ _).2 ⟨two_mul_piMag_lt f, hasSpacing_two_mul (hasSpacing_piMag f)⟩

/-- The spacing at `PI_F`. -/
theorem quantumExp_piMag (f : Flen) : f.quantumExp (piMag f) = piExp f := by
  obtain ⟨hlo, hhi⟩ := piSignificand_bounds f
  have hpos := Nat.two_pow_pos (piExp f)
  have hlog : (piMag f).log2 = f.fracBits + piExp f := by
    unfold piMag
    rw [Nat.log2_eq_iff (Nat.mul_pos (by omega) hpos).ne', Nat.add_right_comm, Nat.pow_add, Nat.pow_add _ (_ + 1)]
    exact ⟨Nat.mul_le_mul_right _ hlo.le, Nat.mul_lt_mul_of_pos_right hhi hpos⟩
  rw [Flen.quantumExp, hlog, Nat.add_sub_cancel_left]

/-- Half a spacing is more than `PI_F` is away from pi. -/
theorem abs_piSignificand_sub (f : Flen) : |(piSignificand f : ℝ) - Real.pi * 2 ^ (f.fracBits - 1)| ≤ 1 / 2 := by
  have hlo := Real.pi_gt_d20
  have hhi := Real.pi_lt_d20
  rw [abs_le]
  cases f with
  | binary64 => constructor <;> norm_num [piSignificand, Flen.fracBits] <;> linarith
  | binary32 => constructor <;> norm_num [piSignificand, Flen.fracBits] <;> linarith

/-- The numbers of the format other than `PI_F` are at least a spacing away from it. -/
theorem piMag_neighbours {f : Flen} {k : Nat} (hk : hasSpacing f k) :
    k + 2 ^ piExp f ≤ piMag f ∨ k = piMag f ∨ piMag f + 2 ^ piExp f ≤ k := by
  obtain ⟨hlo, _⟩ := piSignificand_bounds f
  have hpos := Nat.two_pow_pos (piExp f)
  by_cases hdvd : 2 ^ piExp f ∣ k
  · obtain ⟨c, rfl⟩ := hdvd
    rw [Nat.mul_comm, piMag, ← Nat.succ_mul, ← Nat.succ_mul]
    rcases lt_trichotomy c (piSignificand f) with hc | rfl | hc
    · exact .inl (Nat.mul_le_mul_right _ hc)
    · exact .inr (.inl rfl)
    · exact .inr (.inr (Nat.mul_le_mul_right _ hc))
  · have hbelow : k < 2 ^ f.fracBits * 2 ^ piExp f := by
      rw [← quantumExp_piMag] at hdvd ⊢
      exact (lt_binade_of_not_dvd hk hdvd).1
    have hgap : (2 ^ f.fracBits + 1) * 2 ^ piExp f ≤ piMag f := Nat.mul_le_mul_right _ hlo
    rw [Nat.succ_mul] at hgap
    exact .inl (by omega)

/-- No number of the format is nearer pi than `PI_F`. -/
theorem piMag_nearest {f : Flen} {k : Nat} (hk : hasSpacing f k) :
    |(piMag f : ℝ) / f.oneMag - Real.pi| ≤ |(k : ℝ) / f.oneMag - Real.pi| := by
  have hone : (0 : ℝ) < f.oneMag := by exact_mod_cast f.oneMag_pos
  have hstep : (0 : ℝ) < 2 ^ piExp f := by positivity
  have hhalf : |(piMag f : ℝ) - Real.pi * f.oneMag| ≤ 2 ^ piExp f / 2 := by
    have h := abs_piSignificand_sub f
    have heq : (piMag f : ℝ) - Real.pi * f.oneMag =
        ((piSignificand f : ℝ) - Real.pi * 2 ^ (f.fracBits - 1)) * 2 ^ piExp f := by
      rw [oneMag_eq_piExp, piMag]
      push_cast
      ring
    rw [heq, abs_mul, abs_of_pos hstep]
    nlinarith
  have hfar : |(piMag f : ℝ) - Real.pi * f.oneMag| ≤ |(k : ℝ) - Real.pi * f.oneMag| := by
    obtain h | rfl | h := piMag_neighbours hk
    · have h' : (k : ℝ) + 2 ^ piExp f ≤ piMag f := by exact_mod_cast h
      rw [abs_le] at hhalf
      refine (abs_le.2 hhalf).trans (le_abs.2 (.inr ?_))
      linarith
    · exact le_rfl
    · have h' : (piMag f : ℝ) + 2 ^ piExp f ≤ k := by exact_mod_cast h
      rw [abs_le] at hhalf
      refine (abs_le.2 hhalf).trans (le_abs.2 (.inl ?_))
      linarith
  have hscale : ∀ x : ℝ, |x / f.oneMag - Real.pi| = |x - Real.pi * f.oneMag| / f.oneMag := fun x => by
    rw [← abs_of_pos hone, ← abs_div, abs_of_pos hone, sub_div, mul_div_cancel_right₀ _ hone.ne']
  rw [hscale, hscale]
  exact div_le_div_of_nonneg_right hfar hone.le

theorem two_eq (f : Flen) : f.two = .fin false (2 * f.oneMag) := rfl

theorem minusTwo_eq (f : Flen) : f.minusTwo = .fin true (2 * f.oneMag) := rfl

theorem twoPi_eq (f : Flen) : f.twoPi = .fin false (2 * piMag f) := by
  rw [Flen.twoPi, pi_eq, two_eq, fmul_two _ _ (hasSpacing_piMag f), if_pos (two_mul_piMag_lt f)]
  rfl

/-- The product of a uniform float other than zero with `PI_F` is in the normal range. -/
theorem le_u24Mag_mul_piMag {f : Flen} {k : U24} (hk : k.toNat ≠ 0) :
    2 ^ f.fracBits ≤ u24Mag f k * piMag f / f.oneMag := by
  have hpi : f.oneMag ≤ piMag f := by
    rw [oneMag_eq_piExp, Nat.mul_comm]
    refine Nat.mul_le_mul_right _ (le_trans ?_ (piSignificand_bounds f).1.le)
    exact Nat.pow_le_pow_right Nat.two_pos (Nat.sub_le _ _)
  rw [Nat.le_div_iff_mul_le f.oneMag_pos]
  exact Nat.mul_le_mul (u24Mag_normal f hk) hpi

/-- The other association of `2 * pi * u2`: doubling before or after the one rounding is the same. -/
theorem fmul_two_fmul_pi (f : Flen) (k : U24) : fmul f f.two (fmul f f.pi (u24toF f k)) = angle f (u24toF f k) := by
  obtain ⟨hprod, hle⟩ := fmul_u24toF (piMag_representable f) k
  obtain ⟨hangle, _⟩ := fmul_u24toF (two_mul_piMag_representable f) k
  have hlt : 2 * roundMag f (u24Mag f k * piMag f) f.oneMag < f.overflowMag :=
    (Nat.mul_le_mul_left 2 hle).trans_lt (two_mul_piMag_lt f)
  rw [angle, twoPi_eq, fmul_comm f (.fin false (2 * piMag f)), hangle, pi_eq, fmul_comm f (.fin false (piMag f)), hprod,
    two_eq, fmul_two _ _ (roundMag_hasSpacing f _ f.oneMag_pos), if_pos hlt, Nat.mul_left_comm]
  by_cases hk : k.toNat = 0
  · rw [(u24Mag_eq_zero f k).2 hk, Nat.zero_mul, Nat.mul_zero, roundMag_zero f f.oneMag_pos]
    rfl
  · rw [roundMag_two_mul (le_u24Mag_mul_piMag hk)]
    rfl

/-- Settles O32: `PI_F` is within half a spacing of pi and its neighbours are a spacing away; doubling is exact, and
commutes with rounding in the normal range. -/
theorem transformConstants : Obligations.TransformConstants := by
  refine ⟨rfl, rfl, twoPi_binary64, twoPi_binary32, fun f =>
    ⟨⟨piMag f, pi_eq f, twoPi_eq f, rfl, fun k hk => piMag_nearest hk⟩, fmul_two_fmul_pi f,
      fun neg m h hlt => ?_⟩⟩
  rw [minusTwo_eq, fmul_two _ _ ((representable_fin f neg m).1 h).2, if_pos hlt, Bool.true_bne]

end Sys2Proof
end

section
/-! PROOFS. The corner cases of `Transform` (R135) and the bound on its values (R144), from the named properties. -/

namespace Sys2Proof.Machine

/-! ## Products and roots -/

@[simp] theorem fmul_nan_left (f : Flen) (x : Flt) : fmul f .nan x = .nan := rfl

theorem fmul_inf_fin (f : Flen) (a b : Bool) (k : Nat) :
    fmul f (.inf a) (.fin b k) = if k = 0 then .nan else .inf (a != b) := rfl

/-- A number times one of magnitude at most 1.0 is finite and at most the number in magnitude. -/
theorem fmul_fin_of_le_one {f : Flen} {a : Bool} {r : Nat} (hr : (Flt.fin a r).representable f = true) (b : Bool)
    {k : Nat} (hk : k ≤ f.oneMag) : ∃ p, fmul f (.fin a r) (.fin b k) = .fin (a != b) p ∧ p ≤ r := by
  obtain ⟨hlt, hsp⟩ := (representable_fin f a r).1 hr
  have hle : roundMag f (r * k) f.oneMag ≤ r := roundMag_le f hsp (Nat.mul_le_mul_left r hk) f.oneMag_pos
  exact ⟨_, roundToF_of_lt (a != b) (hle.trans_lt hlt), hle⟩

/-- The root of a finite number that is positive is one too. -/
theorem fsqrt_fin_pos_spec {f : Flen} {m : Nat} (hm : m ≠ 0) (hlt : m < f.overflowMag) :
    ∃ r, r ≠ 0 ∧ fsqrt f (.fin false m) = .fin false r := by
  have hn : m * f.oneMag ≠ 0 := Nat.mul_ne_zero hm f.oneMag_pos.ne'
  have hone : hasSpacing f 1 := hasSpacing_two_pow f 0
  have hpos : 1 ≤ sqrtMag f (m * f.oneMag) :=
    roundMag_ge f hone ((le_sqrtTwice_iff hn 1).2 (Nat.pos_of_ne_zero hn)) Nat.two_pos
  exact ⟨sqrtMag f (m * f.oneMag), by omega, (fsqrt_fin_pos f hm).trans (roundToF_of_lt false (sqrtMag_lt f hm hlt))⟩

/-- `fmul(-2.0, x)` for a finite `x` of the format: exact, or an infinity (log 7). -/
theorem fmul_minusTwo {f : Flen} {a : Bool} {m : Nat} (h : (Flt.fin a m).representable f = true) :
    fmul f f.minusTwo (.fin a m) = if 2 * m < f.overflowMag then .fin (!a) (2 * m) else .inf (!a) := by
  rw [minusTwo_eq, fmul_two _ _ ((representable_fin f a m).1 h).2, Bool.true_bne]

theorem fmul_minusTwo_inf (f : Flen) (a : Bool) : fmul f f.minusTwo (.inf a) = .inf (!a) :=
  (if_neg (by have := f.oneMag_pos; omega)).trans (by rw [Bool.true_bne])

section
variable {E : ElemFns} {f : Flen} (hln : LnProperties E f) (hcs : CosSinProperties E f)

/-! ## The radius -/

section
include hln

theorem radius_zero (neg : Bool) : radius E f (.fin neg 0) = .inf false := by
  rw [radius, hln.lnZero, fmul_minusTwo_inf]
  rfl

theorem radius_one : radius E f f.one = .fin true 0 := by
  rw [radius, hln.lnOne, minusTwo_eq, fmul_fin_zero]
  rfl

theorem radius_nan {u1 : Flt} (h : u1 = .nan ∨ u1 = .inf true ∨ ∃ m, m ≠ 0 ∧ u1 = .fin true m) :
    radius E f u1 = .nan := by
  rw [radius, hln.lnNan u1 h, fmul_nan_right]
  rfl

/-- Above 1.0 the logarithm is positive, and the root of a negative number is a NaN. -/
theorem radius_above_one {u1 : Flt} (h : u1 = .inf false ∨ ∃ m, f.oneMag < m ∧ u1 = .fin false m) :
    radius E f u1 = .nan := by
  obtain rfl | ⟨m, hm, rfl⟩ := h
  · rw [radius, hln.lnInf, fmul_minusTwo_inf]
    rfl
  · obtain ⟨k, hk, hlnm, hrep⟩ := hln.lnSignAbove m hm
    rw [radius, hlnm, fmul_minusTwo hrep]
    split_ifs
    · exact if_neg (by omega)
    · rfl

/-- Between 0 and 1.0 the logarithm is negative: the radius is a positive number, or `+inf` where the product
overflows. -/
theorem radius_below_one {m : Nat} (hpos : 0 < m) (hlt : m < f.oneMag) :
    (isFinite (fmul f f.minusTwo (E.ln f (.fin false m))) = true →
      ∃ r, r ≠ 0 ∧ radius E f (.fin false m) = .fin false r) ∧
    (isFinite (fmul f f.minusTwo (E.ln f (.fin false m))) = false → radius E f (.fin false m) = .inf false) := by
  obtain ⟨k, hk, hlnm, hrep⟩ := hln.lnSignBelow m hpos hlt
  rw [radius, hlnm, fmul_minusTwo hrep]
  split_ifs with h
  · exact ⟨fun _ => fsqrt_fin_pos_spec (by omega) h, fun h0 => by simp [isFinite] at h0⟩
  · exact ⟨fun h0 => by simp [isFinite] at h0, fun _ => rfl⟩

end

theorem radius_representable (E : ElemFns) (f : Flen) (u1 : Flt) : (radius E f u1).representable f = true :=
  fsqrt_representable f _

/-! ## The two values from the radius and the angle -/

theorem transform_of_radius_nan {u1 : Flt} (h : radius E f u1 = .nan) (u2 : Flt) :
    transform E f u1 u2 = (.nan, .nan) := by
  rw [transform, h, fmul_nan_left, fmul_nan_left]

/-- Each value under an infinite radius: the infinity of the factor's sign, a NaN where the factor is zero. -/
theorem transform_of_radius_inf {u1 : Flt} (h : radius E f u1 = .inf false) (u2 : Flt) :
    (∀ c k, E.cos f (angle f u2) = .fin c k → (transform E f u1 u2).1 = if k = 0 then .nan else .inf c) ∧
    (∀ c k, E.sin f (angle f u2) = .fin c k → (transform E f u1 u2).2 = if k = 0 then .nan else .inf c) := by
  refine ⟨fun c k hc => ?_, fun c k hc => ?_⟩ <;> simp only [transform, h, hc, fmul_inf_fin, Bool.false_bne]

/-- Each value under a radius of `-0`: the zero of the opposite of the factor's sign. -/
theorem transform_of_radius_negZero {u1 : Flt} (h : radius E f u1 = .fin true 0) (u2 : Flt) :
    (∀ c k, E.cos f (angle f u2) = .fin c k → (transform E f u1 u2).1 = .fin (!c) 0) ∧
    (∀ c k, E.sin f (angle f u2) = .fin c k → (transform E f u1 u2).2 = .fin (!c) 0) := by
  refine ⟨fun c k hc => ?_, fun c k hc => ?_⟩ <;>
    simp only [transform, h, hc, fmul_comm f (.fin true 0), fmul_fin_zero, Bool.bne_true]

section
include hcs

theorem transform_of_angle_not_finite {u2 : Flt} (h : isFinite (angle f u2) = false) (u1 : Flt) :
    transform E f u1 u2 = (.nan, .nan) := by
  have hnan : angle f u2 = .nan ∨ ∃ neg, angle f u2 = .inf neg := by
    cases ha : angle f u2 with
    | nan => exact .inl rfl
    | inf neg => exact .inr ⟨neg, rfl⟩
    | fin a m => simp [ha, isFinite] at h
  obtain ⟨hcos, hsin⟩ := hcs.csNan _ hnan
  rw [transform, hcos, hsin, fmul_nan_right]

/-- Under a finite radius and a finite angle both values are finite and at most the radius in magnitude. -/
theorem transform_bounded {u1 u2 : Flt} {r : Nat} (hr : radius E f u1 = .fin false r)
    (ha : isFinite (angle f u2) = true) :
    let z := transform E f u1 u2
    isFinite z.1 = true ∧ isFinite z.2 = true ∧
      z.1.abs.le (.fin false r) = true ∧ z.2.abs.le (.fin false r) = true := by
  obtain ⟨a, m, hang⟩ := exists_fin_of_isFinite ha
  obtain ⟨⟨c, k, hk, hcos, _⟩, d, j, hj, hsin, _⟩ := hcs.csRange a m
  have hrep : (Flt.fin false r).representable f = true := hr ▸ radius_representable E f u1
  obtain ⟨p, hp, hpr⟩ := fmul_fin_of_le_one hrep c hk
  obtain ⟨q, hq, hqr⟩ := fmul_fin_of_le_one hrep d hj
  have hle : ∀ n : Nat, n ≤ r → (Flt.fin false n).le (.fin false r) = true := fun n hn =>
    (fin_le_fin ..).2 (Int.ofNat_le.2 hn)
  simp only [transform, hr, hang, hcos, hsin, hp, hq]
  exact ⟨rfl, rfl, hle p hpr, hle q hqr⟩

end

end

/-! ## The angle (R130, R134) -/

theorem piMag_pos (f : Flen) : 0 < piMag f :=
  Nat.mul_pos (Nat.zero_lt_of_lt (piSignificand_bounds f).1) (Nat.two_pow_pos _)

theorem angle_zero (f : Flen) : angle f (.fin false 0) = .fin false 0 := by
  rw [angle, twoPi_eq, fmul_fin_zero]
  rfl

theorem angle_not_finite (f : Flen) {u2 : Flt} (h : u2 = .nan ∨ ∃ neg, u2 = .inf neg) :
    isFinite (angle f u2) = false := by
  obtain rfl | ⟨neg, rfl⟩ := h
  · rw [angle, fmul_nan_right]
    rfl
  · have hne : 2 * piMag f ≠ 0 := Nat.mul_ne_zero (by decide) (piMag_pos f).ne'
    rw [angle, twoPi_eq, fmul_comm, fmul_inf_of_ne f _ _ hne]
    rfl

/-- The angle of a uniform float is finite. -/
theorem angle_u24toF_isFinite (f : Flen) (k : U24) : isFinite (angle f (u24toF f k)) = true := by
  rw [angle, twoPi_eq, fmul_comm, (fmul_u24toF (two_mul_piMag_representable f) k).1]
  rfl

section
variable {E : ElemFns} {f : Flen} (hcs : CosSinProperties E f)
include hcs

/-- At the angle 0 the cosine is 1.0 and the sine 0. -/
theorem transform_at_zero (u1 : Flt) :
    transform E f u1 (.fin false 0) = (fmul f (radius E f u1) f.one, fmul f (radius E f u1) (.fin false 0)) := by
  obtain ⟨hcos, hsin⟩ := hcs.csZero false
  rw [transform, angle_zero, hcos, hsin]

theorem transform_at_zero_of_radius_fin {u1 : Flt} {r : Nat} (hr : radius E f u1 = .fin false r) :
    transform E f u1 (.fin false 0) = (.fin false r, .fin false 0) := by
  have hrep : (Flt.fin false r).representable f = true := hr ▸ radius_representable E f u1
  rw [transform_at_zero hcs, hr, fmul_one hrep, fmul_fin_zero, Bool.bne_false]

theorem transform_at_zero_of_radius_inf {u1 : Flt} (hr : radius E f u1 = .inf false) :
    transform E f u1 (.fin false 0) = (.inf false, .nan) := by
  rw [transform_at_zero hcs, hr, fmul_one rfl]
  rfl

end

/-- Settles O33: each row is the radius its `u1` gives, and what that radius and the angle give. -/
theorem transformCornerCases : Obligations.TransformCornerCases := by
  refine fun E f u2 hln hcs => ⟨fun neg => ⟨radius_zero hln neg, transform_of_radius_inf (radius_zero hln neg) u2⟩,
    transform_at_zero_of_radius_inf hcs (radius_zero hln false),
    fun u1 h => transform_of_radius_nan (radius_nan hln h) u2,
    ⟨radius_one hln, transform_of_radius_negZero (radius_one hln) u2⟩,
    fun u1 h => transform_of_radius_nan (radius_above_one hln h) u2, fun m hpos hlt => ?_,
    fun u1 h => transform_of_radius_inf h u2,
    fun u1 h => transform_of_angle_not_finite hcs h u1,
    fun u1 h => transform_of_angle_not_finite hcs (angle_not_finite f h) u1,
    fun u1 r hr _ => transform_at_zero_of_radius_fin hcs hr⟩
  obtain ⟨hfin, hinf⟩ := radius_below_one hln hpos hlt
  refine ⟨fun h => ?_, hinf⟩
  obtain ⟨r, hr0, hr⟩ := hfin h
  exact ⟨r, hr0, hr, fun ha => transform_bounded hcs hr ha⟩

/-- Settles O34: the angle of a uniform float is finite, and `COS` and `SIN` of it are at most 1.0 in magnitude. -/
theorem normalValuesBoundedByRadius : Obligations.NormalValuesBoundedByRadius := by
  intro E f k j r _ hcs _ hr
  obtain ⟨_, _, hcos, hsin⟩ := transform_bounded hcs hr (angle_u24toF_isFinite f j)
  exact ⟨hcos, hsin⟩

end Sys2Proof.Machine
end
